-- ==== Sys2Proof/Word.lean ====
section
/-! DEFINITION. The words the machine computes with and the three access sizes (00_scope.md R4, R5). -/

namespace Sys2Proof

/-- A register, the pc, or an address while it is computed: 32 bits (R4, R20). -/
abbrev Word := BitVec 32

/-- A halfword: 16 bits (R5). -/
abbrev Half := BitVec 16

/-- The addressable unit: 8 bits (R4). -/
abbrev Byte := BitVec 8

/-- A register number, a 4-bit field read as unsigned (R118). -/
abbrev Reg := Fin 16

/-- The access widths: byte, halfword, word (R4, R57). -/
inductive Size where
  | byte
  | half
  | word
deriving DecidableEq, Repr

/-- How many bytes an access of this size touches (R4, R5). -/
def Size.bytes : Size → Nat
  | .byte => 1
  | .half => 2
  | .word => 4

end Sys2Proof
end

