-- ==== Sys2Proof/Syntax.lean ====
section
/-! DEFINITION. The nine instructions of spec/opcode_table.json, one constructor a row (30_encoding.md R119). -/

namespace Sys2Proof

/-- The nine instructions. Operands stand in the order of the assembler syntax (R124). -/
inductive Instr where
  /-- Data Synchronization Barrier (R132). -/
  | dsb (option : BitVec 4)
  /-- Data Memory Barrier (R131). -/
  | dmb (option : BitVec 4)
  /-- Instruction Synchronization Barrier (R133). -/
  | isb (option : BitVec 4)
  /-- Store word exclusive `STREX Rd, Rt, [Rn, #imm8 * 4]` (R145). -/
  | strex (rd rt rn : Reg) (imm8 : BitVec 8)
  /-- Load word exclusive `LDREX Rt, [Rn, #imm8 * 4]` (R142). -/
  | ldrex (rt rn : Reg) (imm8 : BitVec 8)
  /-- Store byte exclusive `STREXB Rd, Rt, [Rn]` (R147). -/
  | strexb (rd rt rn : Reg)
  /-- Store halfword exclusive `STREXH Rd, Rt, [Rn]` (R146). -/
  | strexh (rd rt rn : Reg)
  /-- Load byte exclusive `LDREXB Rt, [Rn]` (R144). -/
  | ldrexb (rt rn : Reg)
  /-- Load halfword exclusive `LDREXH Rt, [Rn]` (R143). -/
  | ldrexh (rt rn : Reg)
deriving DecidableEq, Repr

end Sys2Proof
end

