-- ==== Sys2Proof/Decode.lean ====
section
/-! DEFINITION. The decoder of 30_encoding.md (R111 to R120) and, after it, the encoder written from the same formats.
Every form here is INFERRED, as the spec asks: the bit patterns are flagged general knowledge (GK3, GK4), in no source.
An instruction is written `I = hw1 : hw2`, so `I[31:16]` is the halfword at the lower address (R111).
The decoder selects a row of R119 and reads its fields; the operand restrictions of R121 and R123 are checked after it
(WellFormed.lean, Machine/Operands.lean). -/

namespace Sys2Proof

/-- Why bytes are no instruction of this spec (R122). -/
inductive DecodeError where
  /-- Fewer bytes are left than the instruction has (no rule: the decoder of a byte list is total). -/
  | truncated
  /-- A one-halfword instruction: none is in scope (R112, R122). -/
  | oneHalfword (hw1 : Half)
  /-- A two-halfword word that selects no row of R119 (R122). -/
  | noRow (word : Word)
deriving DecidableEq, Repr

/-- R112: whether a halfword at an instruction boundary opens a two-halfword instruction. -/
def opensTwoHalfwords (hw1 : Half) : Bool :=
  let top := hw1.extractLsb' 11 5
  top == 0b11101#5 || top == 0b11110#5 || top == 0b11111#5

/-- A 4-bit register field read as unsigned (R118). -/
def regField (field : BitVec 4) : Reg := field.toFin

/-- `I[19:16]` (R114 to R117). -/
def fieldRn (I : Word) : Reg := regField (I.extractLsb' 16 4)

/-- `I[15:12]` (R114 to R117). -/
def fieldRt (I : Word) : Reg := regField (I.extractLsb' 12 4)

/-- `Rd` of format STX: `I[11:8]` (R115). -/
def fieldRdWord (I : Word) : Reg := regField (I.extractLsb' 8 4)

/-- `Rd` of format STXS: `I[3:0]` (R117). -/
def fieldRdNarrow (I : Word) : Reg := regField (I.extractLsb' 0 4)

/-- `imm8` of formats LDX and STX: `I[7:0]` (R114, R115). -/
def fieldImm8 (I : Word) : BitVec 8 := I.extractLsb' 0 8

/-- `option` of format BAR: `I[3:0]` (R113). -/
def fieldOption (I : Word) : BitVec 4 := I.extractLsb' 0 4

/-- The nine rows of R119, in the table's order: `I and mask = match` selects the row. -/
def decodeWord (I : Word) : Option Instr :=
  if I &&& 0xFFFFFFF0#32 = 0xF3BF8F40#32 then some (.dsb (fieldOption I))
  else if I &&& 0xFFFFFFF0#32 = 0xF3BF8F50#32 then some (.dmb (fieldOption I))
  else if I &&& 0xFFFFFFF0#32 = 0xF3BF8F60#32 then some (.isb (fieldOption I))
  else if I &&& 0xFFF00000#32 = 0xE8400000#32 then some (.strex (fieldRdWord I) (fieldRt I) (fieldRn I) (fieldImm8 I))
  else if I &&& 0xFFF00F00#32 = 0xE8500F00#32 then some (.ldrex (fieldRt I) (fieldRn I) (fieldImm8 I))
  else if I &&& 0xFFF00FF0#32 = 0xE8C00F40#32 then some (.strexb (fieldRdNarrow I) (fieldRt I) (fieldRn I))
  else if I &&& 0xFFF00FF0#32 = 0xE8C00F50#32 then some (.strexh (fieldRdNarrow I) (fieldRt I) (fieldRn I))
  else if I &&& 0xFFF00FFF#32 = 0xE8D00F4F#32 then some (.ldrexb (fieldRt I) (fieldRn I))
  else if I &&& 0xFFF00FFF#32 = 0xE8D00F5F#32 then some (.ldrexh (fieldRt I) (fieldRn I))
  else none

/-- A halfword from its two bytes, the lower address first (R56, R111). -/
def halfOfBytes (low high : Byte) : Half := high ++ low

/-- The decoder: bytes from the lowest address up, to an instruction and the bytes after it, or the reason there is
none. Total on any bytes. -/
def decode : List Byte → Except DecodeError (Instr × List Byte)
  | b0 :: b1 :: rest =>
    let hw1 := halfOfBytes b0 b1
    if opensTwoHalfwords hw1 then
      match rest with
      | b2 :: b3 :: rest' =>
        let word : Word := hw1 ++ halfOfBytes b2 b3
        match decodeWord word with
        | some i => .ok (i, rest')
        | none => .error (.noRow word)
      | _ => .error .truncated
    else .error (.oneHalfword hw1)
  | _ => .error .truncated

/-- The bytes of a halfword, the lower address first (R56). -/
def bytesOfHalf (h : Half) : List Byte := [h.extractLsb' 0 8, h.extractLsb' 8 8]

/-- The four bytes of `I = hw1 : hw2` as they lie in memory from the pc up (R111). -/
def bytesOfWord (I : Word) : List Byte := bytesOfHalf (I.extractLsb' 16 16) ++ bytesOfHalf (I.extractLsb' 0 16)

/-- A register number as its 4-bit field (R118). -/
def regBits (r : Reg) : BitVec 4 := BitVec.ofFin r

/-- The encoder: the word `I` of an instruction, format by format (R113 to R117). -/
def encodeWord : Instr → Word
  | .dsb option => 0xF3BF8F4#28 ++ option
  | .dmb option => 0xF3BF8F5#28 ++ option
  | .isb option => 0xF3BF8F6#28 ++ option
  | .strex rd rt rn imm8 => 0xE84#12 ++ regBits rn ++ regBits rt ++ regBits rd ++ imm8
  | .ldrex rt rn imm8 => 0xE85#12 ++ regBits rn ++ regBits rt ++ 0xF#4 ++ imm8
  | .strexb rd rt rn => 0xE8C#12 ++ regBits rn ++ regBits rt ++ 0xF4#8 ++ regBits rd
  | .strexh rd rt rn => 0xE8C#12 ++ regBits rn ++ regBits rt ++ 0xF5#8 ++ regBits rd
  | .ldrexb rt rn => 0xE8D#12 ++ regBits rn ++ regBits rt ++ 0xF4F#12
  | .ldrexh rt rn => 0xE8D#12 ++ regBits rn ++ regBits rt ++ 0xF5F#12

/-- An instruction's bytes as they lie in memory. -/
def encode (i : Instr) : List Byte := bytesOfWord (encodeWord i)

/-- The word that spec/opcode_table.json numbers `w`, as `I`: the table's layout puts the first halfword in the upper
sixteen bits (R111). A row of at most 16 bits, of which the table has none, would be one halfword followed by zeros. -/
def tableWord (nbits w : Nat) : Word := if nbits ≤ 16 then BitVec.ofNat 32 (w % 65536 * 65536) else BitVec.ofNat 32 w

/-- The instruction this decoder reads from an instruction whose bits, numbered as the opcode table numbers them,
are `w`. -/
def decodeTableWord (nbits w : Nat) : Option Instr :=
  match decode (bytesOfWord (tableWord nbits w)) with
  | .ok (i, _) => some i
  | .error _ => none

end Sys2Proof
end

