-- ==== Sys2Proof/Config.lean ====
section
/-! DEFINITION. What an implementation fixes (the open parameters of 00_scope.md R6, as plain data) and the free
values, which no rule of the spec fixes (R9 `draw`, 93_implementation_defined.md U3, U5, U8). A free value is an
opaque constant: nothing in Lean can evaluate it, so a claim holds for every choice of it. -/

namespace Sys2Proof

/-- The memory types of Table 12 (20_memory.md R50). -/
inductive MemType where
  | normal
  | device
  | stronglyOrdered
deriving DecidableEq, Repr

/-- What the platform puts behind an address (R6 `Populated`, R59): plain storage, or a device. -/
inductive BankKind where
  | storage
  | device
deriving DecidableEq, Repr

/-- One populated range of addresses: `base` up to `base + size - 1` (R6 `Populated`, 92_eei_decisions.md D11). Its bytes
lie in storage from `store` up, so that two maps, or two ranges of one map, can show the same storage (R30). -/
structure Bank where
  base : Nat
  size : Nat
  kind : BankKind
  store : Nat
deriving DecidableEq, Repr

/-- The memory map configuration (10_state.md R30): the ranges that are populated. -/
abbrev MemoryMap := List Bank

/-- One rule of the parameter `MapSwitch` (R6, R30, R88): a write of `size` bytes at `addr` whose value has `value` in the
bits of `mask` switches to `map`. -/
structure MapRule where
  addr : Word
  size : Size
  mask : Word
  value : Word
  map : MemoryMap
deriving DecidableEq, Repr

/-- The open parameters of R6 that are fixed for a machine. -/
structure Platform where
  /-- `MapSwitch`: the memory map switching mechanism, its first rule that fits; empty where the system has none, the
  default (R6, R30, R88). That the mechanism is such a list is DESIGN CHOICE (log 27). -/
  mapSwitch : List MapRule
  /-- `BB_RMW_WIDTH`: width of the accesses a peripheral alias access makes (20_memory.md R69). -/
  bbRmwWidth : Size
  /-- `ORDER_TABLE`: pairs (earlier type, later type) the memory system keeps in program order (R83). -/
  orderTable : List (MemType × MemType)
deriving DecidableEq, Repr

/-- One access that a device has seen: a read, or a write of a value (R77, R92). -/
structure DeviceAccess where
  addr : Word
  size : Size
  written : Option Word
deriving DecidableEq, Repr

/-- FREE VALUE. `DeviceRead` of the `DeviceModel` parameter (R59, D26): what a device answers to a read, given every
access made to devices before it (newest first), the address and the size. -/
opaque Config.deviceRead : List DeviceAccess → Word → Size → Word

/-- FREE VALUE. The `draw {0, 1}` of 41_exclusive.md R153: whether the n-th draw of a run answers 1 (no write is
performed) to a Store-Exclusive whose `intact` still holds. -/
opaque Config.storeExclusiveFails : Nat → Bool

/-- FREE VALUE. Which of the values that 20_memory.md R93 admits for a fetched byte the n-th draw of a run takes. -/
opaque Config.fetchPick : Nat → Nat

/-- FREE VALUE. Which of the memory maps that 20_memory.md R88 lets an access use the n-th draw of a run takes. -/
opaque Config.mapPick : Nat → Nat

/-- DESIGN CHOICE (log 3). `Populated` at reset: the three Normal regions of Table 12 hold plain storage, each byte at its
own address, and no device model is supplied (so nothing is populated elsewhere: R24, D26). -/
def Config.memoryMap : MemoryMap :=
  [⟨0x00000000, 0x20000000, .storage, 0x00000000⟩, ⟨0x20000000, 0x20000000, .storage, 0x20000000⟩,
    ⟨0x60000000, 0x40000000, .storage, 0x60000000⟩]

/-- DESIGN CHOICE (log 3). The other parameters at reset: no `MapSwitch` (R6, R30), `BB_RMW_WIDTH` a word, `ORDER_TABLE`
empty (R83, D9). -/
def Config.platform : Platform where
  mapSwitch := []
  bbRmwWidth := .word
  orderTable := []

end Sys2Proof
end

