-- ==== Sys2Proof/Machine/State.lean ====
section
/-! DEFINITION. The machine's state as plain data (10_state.md), the reasons a step can stop (60_exceptions.md R166), and
the state after reset. The machine is that of 20_memory.md R91 and R96: one or more processors and any other bus
masters, each with its own pool of outstanding transactions, over one shared memory. -/

namespace Sys2Proof.Machine

/-- Memory: byte cells with strictly rising addresses, none equal to what an unlisted address reads as (R25). -/
abbrev Memory := List Host.Cell

/-- What an outstanding transaction does when it completes (R26 `kind`, `value`, `excl`). -/
inductive TxnOp where
  /-- A read; `dest` is the register its value goes to, none for a read that no register waits for (R57 `RD`). -/
  | read (dest : Option Reg)
  /-- The read of a Load-Exclusive, for the register `dest` (R142 to R144; R26 `excl`). -/
  | loadExcl (dest : Reg)
  /-- A plain write (R57 `WR`). -/
  | write (value : Word)
  /-- The second half of an alias write (R69): the location was read as `old`, and the write back is outstanding. -/
  | writeBack (old value : Word)
  /-- The write of a Store-Exclusive, with its status register and the `intact` flag copied from the tag (R151). -/
  | storeExcl (value : Word) (status : Reg) (intact : Bool)
deriving DecidableEq, Repr

/-- One outstanding transaction (R26): started and not complete. -/
structure Txn where
  /-- Position of the issuing instruction in program order. -/
  seq : Nat
  op : TxnOp
  addr : Word
  size : Size
deriving DecidableEq, Repr

/-- The exclusive-access tag `Set(addr, n, intact)` (R27); `None` is `Option.none`. -/
structure Tag where
  addr : Word
  size : Size
  intact : Bool
deriving DecidableEq, Repr

/-- One processor (R96, R174): its own registers, pc, pool, tag and instruction-side view. -/
structure Proc where
  /-- Which agent this is: the name `exclObserved` uses. -/
  id : Nat
  /-- The parameter `ExclObserved(p)` (R6, R152): the agents whose writes the exclusive mechanism of `p` sees. -/
  exclObserved : List Nat
  /-- The parameter `end(p)` (R184): the address just past the program; none if the program has no end. -/
  finish : Option Word
  /-- The general registers `x[0]` to `x[15]` (R21). -/
  regs : Vector Word 16
  /-- Address of the first halfword of the instruction being executed (R22). -/
  pc : Word
  /-- The exclusive-access tag (R27). -/
  tag : Option Tag
  /-- The program-order counter (R91): the position of the next instruction. -/
  seq : Nat
  /-- The outstanding transactions, oldest first (R26). -/
  pool : List Txn
  /-- Positions of the DMBs executed while a transaction older than them is outstanding (R131). -/
  dmbs : List Nat
  /-- `ifetch_epoch` (R28, R93): how many byte writes of `history` had completed when the latest ISB executed. -/
  ifetchEpoch : Nat
  /-- Position of the latest ISB: later fetches wait for overlapping own writes before it (R93, R133). -/
  isbSeq : Nat
  /-- Where a write of its own that is earlier than its latest ISB has completed since: the storage cell, and how many
  byte writes of `history` had completed then. A fetch sees nothing older there (R87, R93, R133). -/
  seen : List (Nat × Nat)
  /-- How many maps of `mapHistory` had been replaced when the latest DSB executed: no access goes by one of those (R88). -/
  mapEpoch : Nat
deriving DecidableEq, Repr

/-- A plain access `RD(n, a)` or `WR(n, a, v)` (R57, R188). -/
structure PlainAccess where
  addr : Word
  size : Size
  /-- The value of a write; none for a read. -/
  written : Option Word
deriving DecidableEq, Repr

/-- The result of a completed read of a bus master. -/
structure ReadResult where
  addr : Word
  size : Size
  value : Word
deriving DecidableEq, Repr

/-- A bus master that is no processor of this kind (R6 `OtherMasters`, R96, R188). -/
structure Master where
  id : Nat
  /-- Its finitely many plain accesses not yet issued, in the order listed. -/
  todo : List PlainAccess
  /-- How many it has issued. -/
  seq : Nat
  /-- Its outstanding transactions, oldest first. -/
  pool : List Txn
  /-- What its reads returned, newest first: how a bus master observes the order of transactions (R92). -/
  got : List ReadResult
deriving DecidableEq, Repr

/-- The MODEL's own: one choice of what moves next, where R91 leaves the order open ("completion steps of all agents
interleave freely"). -/
inductive Move where
  /-- The processor in focus executes its next instruction; no transaction completes. -/
  | issue
  /-- The `k`-th outstanding transaction of the processor in focus completes, if R91 lets it. -/
  | complete (k : Nat)
  /-- The `k`-th of the other processors comes into focus. -/
  | focus (k : Nat)
  /-- The processor in focus issues a plain access, for an instruction that no source names (R57); `dest` is the
  register a read's value goes to. -/
  | plain (access : PlainAccess) (dest : Option Reg)
  /-- The `m`-th bus master issues its next listed access. -/
  | masterIssue (m : Nat)
  /-- The `k`-th outstanding transaction of the `m`-th bus master completes. -/
  | masterComplete (m k : Nat)
deriving DecidableEq, Repr

/-- The whole machine. -/
structure State where
  /-- The processor in focus: the one whose instruction `exec` runs. -/
  cpu : Proc
  /-- The other processors (R174); `NPROC` is one more than how many they are. -/
  others : List Proc
  /-- The other bus masters (R96). -/
  masters : List Master
  /-- The one shared memory `Mem` (R25, R96), by storage cell. -/
  mem : Memory
  /-- The memory map in force (R30). -/
  map : MemoryMap
  /-- The maps it has replaced, newest first: until its next DSB an access may use one of them (R88). -/
  mapHistory : List MemoryMap
  /-- The completed byte writes, newest first: the storage cell and the byte overwritten (R93 "at some moment"). -/
  history : List Host.Cell
  /-- The accesses devices have seen, newest first (R77, R92). -/
  devices : List DeviceAccess
  /-- The open parameters fixed for the machine (R6). -/
  plat : Platform
  /-- The MODEL's own: the choices still to be played; when it is empty the machine takes the run of a simulator that
  completes every transaction at once (92_eei_decisions.md, Notes). -/
  agenda : List Move
  /-- The MODEL's own: how many free values have been drawn. -/
  draws : Nat
deriving DecidableEq, Repr

/-- Errors the hardware reports, as far as the spec can tell (R10 `raise`, R166). Terminal: no handler runs (R165). -/
inductive Fault where
  /-- Raised by an instruction fetch whose address is in an XN region (R49, R61, R72). Safe: the run stops. -/
  | xnFetch (addr : Word)
  /-- Raised by LDREX, STREX, LDREXH, STREXH at an address that is no multiple of the size (R148). Safe: the run stops. -/
  | unalignedExclusive (addr : Word)
deriving DecidableEq, Repr

/-- Situations the spec gives no meaning (R10 `refuse`, R166). Every one is safe: the run stops. -/
inductive Refusal where
  /-- Answered by exec's arm of an instruction that has no meaning yet. -/
  | notModelled (mnemonic : String)
  /-- Instruction fetch at an odd address (R58, R61). -/
  | oddFetchAddress (pc : Word)
  /-- Sequential advance with `pc + 4 > 0xFFFFFFFC` (R22, R166). -/
  | pcOverflow (pc : Word)
  /-- Any access with no memory or device behind an address it touches (R59 to R61). -/
  | unpopulated (addr : Word)
  /-- Decode: the halfwords select no row of the opcode table (R122). -/
  | unknownInstruction (pc : Word) (halfwords : List Half)
  /-- A register restriction of R121 is broken. -/
  | badOperand (pc word : Word)
  /-- A barrier whose option is not SY (R123). -/
  | barrierOption (pc word : Word)
  /-- Exclusive instructions: `x[Rn] + offset > 0xFFFFFFFF` (R141). -/
  | addressOverflow (pc : Word)
  /-- Exclusive instructions: the location is not plain storage in a Normal region outside the aliases (R149). -/
  | exclusiveNotAllowed (addr : Word)
  /-- STREX, STREXH, STREXB with no matching Load-Exclusive before it (R151). -/
  | unpairedStoreExclusive (pc : Word)
  /-- A byte or halfword plain access to a bit-band alias region (R73). -/
  | nonWordAlias (addr : Word)
  /-- A plain access whose address is no multiple of its size (R58). -/
  | misalignedPlainAccess (addr : Word)
deriving DecidableEq, Repr

/-- A processor as it is launched at address 0, every register zero (R31: all unspecified; DESIGN CHOICE, log 1). -/
def Proc.launch (id : Nat) : Proc where
  id := id
  exclObserved := []
  finish := none
  regs := Vector.replicate 16 0#32
  pc := 0#32
  tag := none
  seq := 0
  pool := []
  dmbs := []
  ifetchEpoch := 0
  isbSeq := 0
  seen := []
  mapEpoch := 0

/-- The machine right after reset. R31 gives no value but the premises `NothingInFlight` (empty pools) and
`FetchSeesLaunchMemory` (an epoch of 0 over no history) and the tag `None`; the rest is DESIGN CHOICE (logs 1 to 4, 6). -/
def State.reset : State where
  cpu := Proc.launch 0
  others := []
  masters := []
  mem := []
  map := Config.memoryMap
  mapHistory := []
  history := []
  devices := []
  plat := Config.platform
  agenda := []
  draws := 0

end Sys2Proof.Machine
end

