-- ==== Sys2Proof/Machine/Flags.lean ====
section
/-! DEFINITION. The spec gives the machine no flag, condition code or status register (10_state.md R23): there is no
flag to compute. What the source calls a status bit is a value a Store-Exclusive writes to a general register; it is
computed here. -/

namespace Sys2Proof.Machine

/-- `zext_32(s)`: the status a Store-Exclusive returns to `Rd`, 1 where no write is performed (R153). -/
def statusWord (fails : Bool) : Word := if fails then 1#32 else 0#32

end Sys2Proof.Machine
end

