-- ==== Sys2Proof/Machine/Map.lean ====
section
/-! DEFINITION. The address map (20_memory.md R40 to R50), what is populated (R59), and the bit-banding map
(R62 to R66, R73). Addresses are natural numbers here (R8). -/

namespace Sys2Proof.Machine

/-- The seven regions of Table 12 (R41). -/
inductive Region where
  | code
  | sram
  | peripheral
  | externalRam
  | externalDevice
  | privatePeripheralBus
  | mappedPeripherals
deriving DecidableEq, Repr

/-- `region(a)`: the row of Table 12 whose range holds `a` (R41). -/
def regionOf (a : Nat) : Region :=
  if a < 0x20000000 then .code
  else if a < 0x40000000 then .sram
  else if a < 0x60000000 then .peripheral
  else if a < 0xA0000000 then .externalRam
  else if a < 0xE0000000 then .externalDevice
  else if a < 0xE0100000 then .privatePeripheralBus
  else .mappedPeripherals

/-- The memory type column of Table 12 (R41, R50). -/
def memTypeOf : Region → MemType
  | .code => .normal
  | .sram => .normal
  | .peripheral => .device
  | .externalRam => .normal
  | .externalDevice => .device
  | .privatePeripheralBus => .stronglyOrdered
  | .mappedPeripherals => .device

/-- The XN column of Table 12 (R41, R49). -/
def isXN : Region → Bool
  | .code => false
  | .sram => false
  | .peripheral => true
  | .externalRam => false
  | .externalDevice => true
  | .privatePeripheralBus => true
  | .mappedPeripherals => true

/-- The SRAM bit-band region (R62). -/
def inSramBitBand (a : Nat) : Bool := decide (0x20000000 ≤ a ∧ a ≤ 0x200FFFFF)

/-- The peripheral bit-band region (R63). -/
def inPeripheralBitBand (a : Nat) : Bool := decide (0x40000000 ≤ a ∧ a ≤ 0x400FFFFF)

/-- The SRAM bit-band alias region (R62). -/
def inSramAlias (a : Nat) : Bool := decide (0x22000000 ≤ a ∧ a ≤ 0x23FFFFFF)

/-- The peripheral bit-band alias region (R63). -/
def inPeripheralAlias (a : Nat) : Bool := decide (0x42000000 ≤ a ∧ a ≤ 0x43FFFFFF)

/-- Either bit-band alias region. -/
def inAlias (a : Nat) : Bool := inSramAlias a || inPeripheralAlias a

/-- `bit_word_addr` (R64), from the starting address of the alias region, the number of the byte in the bit-band
region and the bit position. -/
def bitWordAddr (bitBandBase byteOffset bitNumber : Nat) : Nat := bitBandBase + (byteOffset * 32 + bitNumber * 4)

/-- The alias word of bit `k` of the byte at `b`, an address in a bit-band region (R64). -/
def aliasWordOf (b k : Nat) : Nat :=
  if inSramBitBand b then bitWordAddr 0x22000000 (b - 0x20000000) k
  else bitWordAddr 0x42000000 (b - 0x40000000) k

/-- `target(a)` (R65): the byte and the bit that an alias word stands for. -/
def target (a : Nat) : Nat × Nat :=
  if inSramAlias a then (0x20000000 + (a - 0x22000000) / 32, (a - 0x22000000) / 4 % 8)
  else (0x40000000 + (a - 0x42000000) / 32, (a - 0x42000000) / 4 % 8)

/-- The location an alias access reads and writes back (R69): one byte in the SRAM bit-band region, `BB_RMW_WIDTH`
bytes in the peripheral one, at the target byte rounded down to a multiple of that width. -/
def aliasLocation (plat : Platform) (a : Nat) : Nat × Size :=
  let b := (target a).1
  if inSramAlias a then (b, .byte) else (b - b % plat.bbRmwWidth.bytes, plat.bbRmwWidth)

/-- The position of the target bit in the value of `aliasLocation`, little-endian (R53, R65). -/
def aliasBit (plat : Platform) (a : Nat) : Nat :=
  8 * ((target a).1 - (aliasLocation plat a).1) + (target a).2

/-- `old` with its `k`-th bit replaced by bit 0 of `v`: bits 31 to 1 of `v` have no effect (R68). -/
def replaceBit (old : Word) (k : Nat) (v : Word) : Word :=
  if v.getLsbD 0 then old ||| (1#32 <<< k) else old &&& ~~~(1#32 <<< k)

/-- The location a data access reaches: that of the target bit for an alias word, which is no storage of its own (R66),
and its own otherwise. -/
def location (plat : Platform) (a : Nat) (size : Size) : Nat × Size :=
  if inAlias a then aliasLocation plat a else (a, size)

/-- The bytes an access touches, as first address and count. -/
def footprint (plat : Platform) (a : Nat) (size : Size) : Nat × Nat :=
  ((location plat a size).1, (location plat a size).2.bytes)

/-- Whether two runs of bytes, each a first address and a count, share a byte. -/
def overlaps (f g : Nat × Nat) : Bool := decide (f.1 < g.1 + g.2 ∧ g.1 < f.1 + f.2)

/-- The bank of a memory map that a byte address lies in; none where nothing is populated. -/
def bankOf (map : MemoryMap) (a : Nat) : Option Bank := map.find? (fun b => decide (b.base ≤ a ∧ a < b.base + b.size))

/-- What a memory map puts at a byte address; none where nothing is populated (R6 `Populated`). -/
def bankAt (map : MemoryMap) (a : Nat) : Option BankKind := (bankOf map a).map Bank.kind

/-- The storage cell a memory map shows at a byte address (R30); the address itself where nothing is populated. -/
def place (map : MemoryMap) (a : Nat) : Nat :=
  match bankOf map a with
  | none => a
  | some b => b.store + (a - b.base)

/-- The `n` bytes from `a` up lie in `n` different storage cells. -/
abbrev DistinctPlaces (map : MemoryMap) (a n : Nat) : Prop :=
  ∀ i, i < n → ∀ j, j < n → place map (a + i) = place map (a + j) → i = j

/-- `Populated(a .. a+n-1)` (R59 to R61). -/
def populated (map : MemoryMap) (a n : Nat) : Bool := (List.range n).all (fun k => (bankAt map (a + k)).isSome)

/-- Every byte of `a .. a+n-1` is plain storage (R77). -/
def plainStorage (map : MemoryMap) (a n : Nat) : Bool :=
  (List.range n).all (fun k => bankAt map (a + k) == some .storage)

/-- Whether an access goes to the `DeviceModel` (R59, R60): its region is Device or Strongly-ordered, and the platform
does not say that the location behaves as plain storage. -/
def servedByDevice (map : MemoryMap) (a n : Nat) : Bool :=
  memTypeOf (regionOf a) != .normal && !plainStorage map a n

/-- `ExclusiveAllowed(a, n)` (R149): plain storage in a Normal region, not in a bit-band alias region. -/
def exclusiveAllowed (map : MemoryMap) (a n : Nat) : Bool :=
  (List.range n).all (fun k =>
    bankAt map (a + k) == some .storage && memTypeOf (regionOf (a + k)) == .normal && !inAlias (a + k))

end Sys2Proof.Machine
end

