-- ==== Sys2Proof/Machine/Memory.lean ====
section
/-! DEFINITION. The bytes of memory in their one canonical form, and the little-endian byte order (20_memory.md R52 to
R56), decided here once. -/

namespace Sys2Proof

/-- The low bits of a value that an access of this size carries, extended with zeros (R9 `zext_32`). -/
def Size.keep : Size → Word → Word
  | .byte, v => (v.setWidth 8).setWidth 32
  | .half, v => (v.setWidth 16).setWidth 32
  | .word, v => v

end Sys2Proof

namespace Sys2Proof.Machine

/-- What an address that memory does not list reads as (R31: unspecified; DESIGN CHOICE, log 2). -/
def unlistedByte : Byte := 0x00#8

/-- `Mem[a]`. -/
def Memory.read : Memory → Nat → Byte
  | [], _ => unlistedByte
  | (k, v) :: m, a => if a = k then v else Memory.read m a

/-- `Mem[a] <- b`, keeping the canonical form. -/
def Memory.write : Memory → Nat → Byte → Memory
  | [], a, b => if b = unlistedByte then [] else [(a, b)]
  | (k, v) :: m, a, b =>
    if a < k then (if b = unlistedByte then (k, v) :: m else (a, b) :: (k, v) :: m)
    else if a = k then (if b = unlistedByte then m else (a, b) :: m)
    else (k, v) :: Memory.write m a b

/-- The canonical form: addresses strictly rising, no cell equal to what an unlisted address reads as. -/
abbrev Memory.wf (m : Memory) : Prop :=
  m.Pairwise (fun c d => c.1 < d.1) ∧ ∀ c ∈ m, c.2 ≠ unlistedByte

/-- The value of the bytes at `a`, least significant byte at the lowest address (R53, R55), extended with zeros; `byte`
says which byte an address holds. -/
def valueAt (byte : Nat → Byte) (a : Nat) : Size → Word
  | .byte => (byte a).setWidth 32
  | .half => (byte (a + 1) ++ byte a).setWidth 32
  | .word => byte (a + 3) ++ byte (a + 2) ++ byte (a + 1) ++ byte a

/-- The bytes of a value, least significant first (R53, R55). -/
def bytesOf (size : Size) (v : Word) : List Byte :=
  match size with
  | .byte => [v.extractLsb' 0 8]
  | .half => [v.extractLsb' 0 8, v.extractLsb' 8 8]
  | .word => [v.extractLsb' 0 8, v.extractLsb' 8 8, v.extractLsb' 16 8, v.extractLsb' 24 8]

end Sys2Proof.Machine
end

