-- ==== Sys2Proof/Machine/MapSwitch.lean ====
section
/-! DEFINITION. The memory map switching mechanism, where a system has one (10_state.md R30, 20_memory.md R88): the write
that switches, which maps an access may use, and the choice among them (93_implementation_defined.md U1, U7). -/

namespace Sys2Proof.Machine

/-- Whether a write of the value `v` at `a` is one that the rule switches on. -/
def hitsRule (a : Nat) (size : Size) (v : Word) (r : MapRule) : Bool :=
  a == r.addr.toNat && size == r.size && (size.keep v &&& r.mask) == r.value

/-- A completed write switches the memory map where the mechanism says so (R88); the map it replaces goes on record. -/
def State.switchMap (a : Nat) (size : Size) (v : Word) (s : State) : State :=
  match s.plat.mapSwitch.find? (hitsRule a size v) with
  | none => s
  | some r => { s with map := r.map, mapHistory := s.map :: s.mapHistory }

/-- Whether a write of the value `v` at `a` switches by the rule: it is the first that the write hits. -/
def switchesBy (plat : Platform) (a : Nat) (size : Size) (v : Word) (r : MapRule) : Bool :=
  plat.mapSwitch.find? (hitsRule a size v) == some r

/-- Whether completing an outstanding transaction may switch the map by the rule. DESIGN CHOICE (log 27), where the write
is not settled when it is issued: a Store-Exclusive that still has `intact` counts as one that writes, though its status
may be drawn 1; and as what an alias write writes is not known before its location is read, every rule at that location
counts until then. A Store-Exclusive that has lost `intact` writes nothing (R153) and does not count. -/
def Txn.maySwitch (plat : Platform) (r : MapRule) (t : Txn) : Bool :=
  match t.op with
  | .read _ => false
  | .loadExcl _ => false
  | .write v =>
    if inAlias t.addr.toNat then aliasLocation plat t.addr.toNat == (r.addr.toNat, r.size)
    else switchesBy plat t.addr.toNat t.size v r
  | .writeBack old v =>
    switchesBy plat (aliasLocation plat t.addr.toNat).1 (aliasLocation plat t.addr.toNat).2
      (replaceBit old (aliasBit plat t.addr.toNat) v) r
  | .storeExcl v _ intact => intact && switchesBy plat t.addr.toNat t.size v r

/-- Every processor: the one in focus and the others. -/
def State.procs (s : State) : List Proc := s.cpu :: s.others

/-- Every outstanding transaction, of whatever agent. -/
def State.outstanding (s : State) : List Txn := s.procs.flatMap Proc.pool ++ s.masters.flatMap Master.pool

/-- The maps that outstanding writes may switch to: a switch may take effect as soon as its write is issued (U7). Which
writes count, `Txn.maySwitch` says (log 27). -/
def State.comingMaps (s : State) : List MemoryMap :=
  (s.plat.mapSwitch.filter (fun r => s.outstanding.any (Txn.maySwitch s.plat r))).map MapRule.map

/-- The map in force and those replaced since the agent's latest DSB, of which `epoch` is the moment (R88 "may use the
old map"). Until its next DSB the agent may use each of them. -/
def State.lastingMaps (s : State) (epoch : Nat) : List MemoryMap :=
  s.map :: s.mapHistory.take (s.mapHistory.length - epoch)

/-- Every map an access may use, the one in force first: those, and the ones on their way (R88, U7). -/
def State.mapsAdmitted (s : State) (epoch : Nat) : List MemoryMap := s.lastingMaps epoch ++ s.comingMaps

/-- The map an access uses: a free choice among the maps admitted that are `ok` for it, where there is more than one. With
none there is the map in force, by which the access is then refused. -/
def chooseMap (ok : MemoryMap → Bool) (epoch : Nat) (s : State) : MemoryMap × State :=
  match (s.mapsAdmitted epoch).filter ok with
  | [] => (s.map, s)
  | [map] => (map, s)
  | maps => (maps.getD (Config.mapPick s.draws % maps.length) s.map, { s with draws := s.draws + 1 })

end Sys2Proof.Machine
end

