-- ==== Sys2Proof/Machine/Ops.lean ====
section
/-! DEFINITION. The named operations over registers and memory: `MemRead` and `MemWrite` (20_memory.md R59, R60), the
write that other processors observe (R91, R152), and how an instruction retires (10_state.md R22).

Taking an exception and returning from one: the spec gives neither an entry nor a return sequence (60_exceptions.md
R165, R168, R169: "no step that takes an exception"; its faults are terminal), so there is no such operation here. -/

namespace Sys2Proof.Machine

/-- What an operation answers: a value, or the fault or refusal that ends the step (R10). -/
abbrev Result (α : Type) := Host.Outcome α Fault Refusal

/-- Goes on with the value of a result; a fault or a refusal is passed on. -/
def andThen {α β : Type} (o : Result α) (k : α → Result β) : Result β :=
  match o with
  | .next a => k a
  | .fault f => .fault f
  | .refused r => .refused r

/-- `x[i]`: read of a general register (R9, R21). -/
def Proc.reg (p : Proc) (r : Reg) : Word := p.regs[r.val]'r.isLt

/-- `x[i] <- v` (R9, R21). No register is hardwired. -/
def Proc.setReg (p : Proc) (r : Reg) (v : Word) : Proc := { p with regs := p.regs.set r.val v r.isLt }

/-- The processor has finished: its pc stands at `end(p)` (R184). -/
def Proc.finished (p : Proc) : Bool := p.finish == some p.pc

/-- The register a transaction's completion writes, if any (R91, R153). R91 and R82(b) speak of the destination register
of a read alone; that the status register of a Store-Exclusive counts too is DEDUCED (log 34). -/
def Txn.dest (t : Txn) : Option Reg :=
  match t.op with
  | .read dest => dest
  | .loadExcl dest => some dest
  | .write _ => none
  | .writeBack _ _ => none
  | .storeExcl _ status _ => some status

/-- R91: a register is pending from the issue of the transaction that writes it until that completes; so is the status
register of an outstanding Store-Exclusive (DEDUCED, log 34). -/
def Proc.pending (p : Proc) (r : Reg) : Bool := p.pool.any (fun t => t.dest == some r)

/-- Whether some register of the list is pending. -/
def Proc.anyPending (p : Proc) (rs : List Reg) : Bool := rs.any p.pending

/-- Retires the instruction of the processor in focus: `update` is its effect, then `pc <- pc + 4` and the
program-order counter advances (R22, R111). Refused as `PcOverflow` where `pc + 4 > 0xFFFFFFFC` (R22, R166). -/
def retire (update : Proc → Proc) (s : State) : Result State :=
  if s.cpu.pc.toNat + 4 > 0xFFFFFFFC then .refused (.pcOverflow s.cpu.pc)
  else .next { s with cpu := { update s.cpu with pc := s.cpu.pc + 4#32, seq := s.cpu.seq + 1 } }

/-- One byte of a completed write: memory takes it, and the byte it overwrites goes on record for later fetches (R93). -/
def State.poke (s : State) (a : Nat) (b : Byte) : State :=
  { s with mem := s.mem.write a b, history := (a, s.mem.read a) :: s.history }

/-- The bytes of a completed write, from the lowest address up, each to the cell the map shows there. -/
def State.pokes (s : State) (map : MemoryMap) (a : Nat) : List Byte → State
  | [] => s
  | b :: bs => (s.poke (place map a) b).pokes map (a + 1) bs

/-- `Mem[a]` as an access by this map sees it. -/
def State.byteAt (s : State) (map : MemoryMap) (a : Nat) : Byte := s.mem.read (place map a)

/-- R152 for one transaction: a Store-Exclusive loses `intact` when an observed write overlaps its bytes. -/
def Txn.observe (written : Nat × Nat) (t : Txn) : Txn :=
  match t.op with
  | .storeExcl v status intact =>
    { t with op := .storeExcl v status (intact && !overlaps written (t.addr.toNat, t.size.bytes)) }
  | .read _ => t
  | .loadExcl _ => t
  | .write _ => t
  | .writeBack _ _ => t

/-- R152 for the tag. -/
def Tag.observe (written : Nat × Nat) (g : Tag) : Tag :=
  { g with intact := g.intact && !overlaps written (g.addr.toNat, g.size.bytes) }

/-- R152 for a processor `p`: a write of agent `who` is seen when `who` is another agent and in `ExclObserved(p)`. -/
def Proc.observe (who : Nat) (written : Nat × Nat) (p : Proc) : Proc :=
  if who != p.id && p.exclObserved.contains who then
    { p with tag := p.tag.map (Tag.observe written), pool := p.pool.map (Txn.observe written) }
  else p

/-- R91: when a write of agent `who` completes, every processor that observes it loses `intact` where it overlaps. -/
def State.observeWrite (s : State) (who : Nat) (written : Nat × Nat) : State :=
  { s with cpu := s.cpu.observe who written, others := s.others.map (Proc.observe who written) }

/-- The read of an ordinary location by the map given (the last three lines of R59). -/
def directRead (map : MemoryMap) (a : Nat) (size : Size) (s : State) : Result (Word × State) :=
  if populated map a size.bytes then
    if servedByDevice map a size.bytes then
      .next (size.keep (Config.deviceRead s.devices (BitVec.ofNat 32 a) size),
        { s with devices := ⟨BitVec.ofNat 32 a, size, none⟩ :: s.devices })
    else .next (valueAt (s.byteAt map) a size, s)
  else .refused (.unpopulated (BitVec.ofNat 32 a))

/-- The write of an ordinary location by agent `who` by the map given (the last three lines of R60): to a device or to
memory, observed (R91), and a switch of the map where it is one (R88). -/
def directWrite (map : MemoryMap) (who a : Nat) (size : Size) (v : Word) (s : State) : Result State :=
  if populated map a size.bytes then
    let written :=
      if servedByDevice map a size.bytes then
        { s with devices := ⟨BitVec.ofNat 32 a, size, some (size.keep v)⟩ :: s.devices }
      else s.pokes map a (bytesOf size v)
    .next ((written.observeWrite who (a, size.bytes)).switchMap a size v)
  else .refused (.unpopulated (BitVec.ofNat 32 a))

/-- What refuses a data access before it reaches a location: an address that is no multiple of the size (R58), then
an alias access that is no word access (R73). -/
def checkAccess (a : Word) (size : Size) : Result Unit :=
  if a.toNat % size.bytes ≠ 0 then .refused (.misalignedPlainAccess a)
  else if inAlias a.toNat && size != .word then .refused (.nonWordAlias a)
  else .next ()

/-- The first half of an alias access: the read of the location that holds the target bit (R67, R69). -/
def aliasRead (map : MemoryMap) (a : Word) (s : State) : Result (Word × State) :=
  directRead map (aliasLocation s.plat a.toNat).1 (aliasLocation s.plat a.toNat).2 s

/-- The second half of an alias write: the write back of the location with the one bit changed (R68, R69). -/
def aliasWriteBack (map : MemoryMap) (who : Nat) (a old v : Word) (s : State) : Result State :=
  directWrite map who (aliasLocation s.plat a.toNat).1 (aliasLocation s.plat a.toNat).2
    (replaceBit old (aliasBit s.plat a.toNat) v) s

/-- `MemRead(a, n)`, the effect of a data read at the moment it completes (R59); the value is extended with zeros. -/
def memRead (map : MemoryMap) (a : Word) (size : Size) (s : State) : Result (Word × State) :=
  andThen (checkAccess a size) fun _ =>
    if inAlias a.toNat then
      andThen (aliasRead map a s) fun r => .next (if r.1.getLsbD (aliasBit s.plat a.toNat) then 1#32 else 0#32, r.2)
    else directRead map a.toNat size s

/-- `MemWrite(a, n, v)` by agent `who`, the effect of a data write at the moment it completes (R60). For an alias word
this is both halves with nothing between them. -/
def memWrite (map : MemoryMap) (who : Nat) (a : Word) (size : Size) (v : Word) (s : State) : Result State :=
  andThen (checkAccess a size) fun _ =>
    if inAlias a.toNat then andThen (aliasRead map a s) fun r => aliasWriteBack map who a r.1 v r.2
    else directWrite map who a.toNat size v s

/-- The check of the location of an access before anything changes (R168), with `r` the refusal: by a map that the access
may use, and by one of those that it may still use when it completes, so that it cannot be refused any more then (R167).
Only while a switch is under way are there two maps (log 27). -/
def admitAccess (epoch : Nat) (ok : MemoryMap → Bool) (r : Refusal) (s : State) : Result State :=
  let choice := chooseMap (fun _ => true) epoch s
  if ok choice.1 && (s.lastingMaps epoch).any ok then .next choice.2 else .refused r

/-- A map has something at the location a plain access reaches (R59, R60). -/
def reachable (plat : Platform) (a : Nat) (size : Size) (map : MemoryMap) : Bool :=
  populated map (location plat a size).1 (location plat a size).2.bytes

/-- Every check of a plain access, before it joins a pool (R168): its address (R58, R73) and its location (R59, R60). -/
def admitPlain (epoch : Nat) (a : Word) (size : Size) (s : State) : Result State :=
  andThen (checkAccess a size) fun _ =>
    admitAccess epoch (reachable s.plat a.toNat size)
      (.unpopulated (BitVec.ofNat 32 (location s.plat a.toNat size).1)) s

end Sys2Proof.Machine
end

