-- ==== Sys2Proof/WellFormed.lean ====
section
/-! DEFINITION. Which instructions the spec gives a meaning: the barrier option of 30_encoding.md R123 and the register
restrictions of R121. A word that breaks one selects a row all the same (R119) and is then refused (R166). -/

namespace Sys2Proof

/-- R123: `0b1111`, written SY, is the only barrier option accepted. -/
def optionSY : BitVec 4 := 0b1111#4

/-- R21, R121: an operand register is neither R13 nor R15. -/
def usableReg (r : Reg) : Bool := r != 13 && r != 15

/-- R121 for a Load-Exclusive. -/
def loadOperandsOk (rt rn : Reg) : Bool := usableReg rt && usableReg rn

/-- R121 for a Store-Exclusive: `Rd` also differs from `Rn` and from `Rt`. -/
def storeOperandsOk (rd rt rn : Reg) : Bool :=
  usableReg rd && usableReg rt && usableReg rn && rd != rn && rd != rt

/-- The instructions the spec does not refuse for their operands. -/
def Instr.wellFormed : Instr → Bool
  | .dsb option => option == optionSY
  | .dmb option => option == optionSY
  | .isb option => option == optionSY
  | .strex rd rt rn _ => storeOperandsOk rd rt rn
  | .ldrex rt rn _ => loadOperandsOk rt rn
  | .strexb rd rt rn => storeOperandsOk rd rt rn
  | .strexh rd rt rn => storeOperandsOk rd rt rn
  | .ldrexb rt rn => loadOperandsOk rt rn
  | .ldrexh rt rn => loadOperandsOk rt rn

end Sys2Proof
end

