-- ==== Sys2Proof/Machine/Operands.lean ====
section
/-! DEFINITION. The operand forms and the checks on them, in the order of 60_exceptions.md R167: the operand
restrictions (30_encoding.md R121, R123), pending registers (20_memory.md R91), the effective address, its alignment and
its location (41_exclusive.md R141, R148, R149). Every check comes before the first change of state (R168). -/

namespace Sys2Proof.Machine

/-- The refusal of an instruction whose operands the spec does not accept: its barrier option (R123) or a register
restriction (R121), with the pc and the word (R166). -/
def operandRefusal (pc : Word) (i : Instr) : Refusal :=
  match i with
  | .dsb _ => .barrierOption pc (encodeWord i)
  | .dmb _ => .barrierOption pc (encodeWord i)
  | .isb _ => .barrierOption pc (encodeWord i)
  | .strex _ _ _ _ => .badOperand pc (encodeWord i)
  | .ldrex _ _ _ => .badOperand pc (encodeWord i)
  | .strexb _ _ _ => .badOperand pc (encodeWord i)
  | .strexh _ _ _ => .badOperand pc (encodeWord i)
  | .ldrexb _ _ => .badOperand pc (encodeWord i)
  | .ldrexh _ _ => .badOperand pc (encodeWord i)

/-- Whether the spec accepts the instruction's operands (R121, R123). -/
def operandsOk (i : Instr) : Bool := i.wellFormed

/-- Runs a meaning only where the operands are accepted. -/
def guarded (i : Instr) (s : State) (meaning : Result State) : Result State :=
  if operandsOk i then meaning else .refused (operandRefusal s.cpu.pc i)

/-- The instruction holds, changing nothing, while a register it names is pending (R91). -/
def whenReady (named : List Reg) (s : State) (meaning : Result State) : Result State :=
  if s.cpu.anyPending named then .next s else meaning

/-- `offset = zext_32(imm8 : 0b00)` of the word forms (R118, R141). -/
def wordOffset (imm8 : BitVec 8) : Nat := (imm8 ++ 0b00#2).toNat

/-- The offset of the halfword and byte forms (R141). -/
def noOffset : Nat := 0

/-- `a = x[Rn] + offset` on natural numbers (R8, R141). -/
def effectiveAddress (p : Proc) (rn : Reg) (offset : Nat) : Nat := (p.reg rn).toNat + offset

/-- The address of an exclusive access: the effective address, refused above 0xFFFFFFFF (R141), a fault where it is no
multiple of the size (R148), refused where an exclusive access has no meaning (R149). The state that comes with it counts
the draw of a map where there is more than one to check by (R88). -/
def exclusiveAddress (rn : Reg) (offset : Nat) (size : Size) (s : State) : Result (Word × State) :=
  let a := effectiveAddress s.cpu rn offset
  if a > 0xFFFFFFFF then .refused (.addressOverflow s.cpu.pc)
  else if a % size.bytes ≠ 0 then .fault (.unalignedExclusive (BitVec.ofNat 32 a))
  else andThen (admitAccess s.cpu.mapEpoch (fun map => exclusiveAllowed map a size.bytes)
      (.exclusiveNotAllowed (BitVec.ofNat 32 a)) s) fun s' => .next (BitVec.ofNat 32 a, s')

end Sys2Proof.Machine
end

