-- ==== Sys2Proof/Machine/Barriers.lean ====
section
/-! DEFINITION. The memory barrier instructions DSB, DMB, ISB (40_barriers.md R130 to R133). -/

namespace Sys2Proof.Machine

/-- DSB (R132): holds while a transaction of the processor is outstanding, and only then goes on; no later access of the
processor uses a memory map that has been replaced (R88). -/
def execDsb (option : BitVec 4) (s : State) : Result State :=
  guarded (.dsb option) s
    (if s.cpu.pool.isEmpty then retire (fun p => { p with mapEpoch := s.mapHistory.length }) s else .next s)

/-- R131: the DMB's position goes on record while a transaction older than it is outstanding; with an empty pool it has
no effect. -/
def Proc.recordDmb (p : Proc) : Proc := if p.pool.isEmpty then p else { p with dmbs := p.dmbs ++ [p.seq] }

/-- DMB (R131): does not wait; later transactions will not complete before those now outstanding. -/
def execDmb (option : BitVec 4) (s : State) : Result State := guarded (.dmb option) s (retire Proc.recordDmb s)

/-- ISB (R133): `ifetch_epoch <- now`, everywhere, and later fetches wait for overlapping own writes before it (R93). -/
def execIsb (option : BitVec 4) (s : State) : Result State :=
  guarded (.isb option) s
    (retire (fun p => { p with ifetchEpoch := s.history.length, isbSeq := p.seq, seen := [] }) s)

end Sys2Proof.Machine
end

