-- ==== Sys2Proof/Machine/Exclusive.lean ====
section
/-! DEFINITION. The synchronization primitives LDREX, LDREXH, LDREXB, STREX, STREXH, STREXB (41_exclusive.md R140 to
R156): one shared Load-Exclusive and one shared Store-Exclusive, and a meaning of its own for each instruction. -/

namespace Sys2Proof.Machine

/-- R150 and the issue of a Load-Exclusive: the tag is set and a read for `Rt` joins the pool (R91, R154). -/
def Proc.issueLoad (p : Proc) (rt : Reg) (a : Word) (size : Size) : Proc :=
  { p with tag := some ⟨a, size, true⟩, pool := p.pool ++ [⟨p.seq, .loadExcl rt, a, size⟩] }

/-- R151 and the issue of a Store-Exclusive: the write joins the pool with the tag's `intact`, and the tag is spent. -/
def Proc.issueStore (p : Proc) (rd rt : Reg) (a : Word) (size : Size) (intact : Bool) : Proc :=
  { p with tag := none, pool := p.pool ++ [⟨p.seq, .storeExcl (size.keep (p.reg rt)) rd intact, a, size⟩] }

/-- A Load-Exclusive of `size` bytes (R142 to R144). -/
def loadExclusive (rt rn : Reg) (offset : Nat) (size : Size) (s : State) : Result State :=
  whenReady [rt, rn] s
    (andThen (exclusiveAddress rn offset size s) fun r => retire (fun p => p.issueLoad rt r.1 size) r.2)

/-- R151: the `intact` flag of the tag that a Store-Exclusive of this size at this address is paired with. -/
def pairedIntact (tag : Option Tag) (a : Word) (size : Size) : Option Bool :=
  match tag with
  | none => none
  | some g => if g.addr = a ∧ g.size = size then some g.intact else none

/-- A Store-Exclusive of `size` bytes (R145 to R147). -/
def storeExclusive (rd rt rn : Reg) (offset : Nat) (size : Size) (s : State) : Result State :=
  whenReady [rd, rt, rn] s
    (andThen (exclusiveAddress rn offset size s) fun r =>
      match pairedIntact s.cpu.tag r.1 size with
      | none => .refused (.unpairedStoreExclusive s.cpu.pc)
      | some intact => retire (fun p => p.issueStore rd rt r.1 size intact) r.2)

/-- STREX (R145). -/
def execStrex (rd rt rn : Reg) (imm8 : BitVec 8) (s : State) : Result State :=
  guarded (.strex rd rt rn imm8) s (storeExclusive rd rt rn (wordOffset imm8) .word s)

/-- LDREX (R142). -/
def execLdrex (rt rn : Reg) (imm8 : BitVec 8) (s : State) : Result State :=
  guarded (.ldrex rt rn imm8) s (loadExclusive rt rn (wordOffset imm8) .word s)

/-- STREXB (R147). -/
def execStrexb (rd rt rn : Reg) (s : State) : Result State :=
  guarded (.strexb rd rt rn) s (storeExclusive rd rt rn noOffset .byte s)

/-- STREXH (R146). -/
def execStrexh (rd rt rn : Reg) (s : State) : Result State :=
  guarded (.strexh rd rt rn) s (storeExclusive rd rt rn noOffset .half s)

/-- LDREXB (R144). -/
def execLdrexb (rt rn : Reg) (s : State) : Result State :=
  guarded (.ldrexb rt rn) s (loadExclusive rt rn noOffset .byte s)

/-- LDREXH (R143). -/
def execLdrexh (rt rn : Reg) (s : State) : Result State :=
  guarded (.ldrexh rt rn) s (loadExclusive rt rn noOffset .half s)

end Sys2Proof.Machine
end

