-- ==== Sys2Proof/Machine/Dispatch.lean ====
section
/-! DEFINITION. One arm per instruction. -/

namespace Sys2Proof.Machine

def exec (i : Instr) (s : State) : Host.Outcome State Fault Refusal :=
  match i with
  | .dsb option => Sys2Proof.Machine.execDsb option s
  | .dmb option => Sys2Proof.Machine.execDmb option s
  | .isb option => Sys2Proof.Machine.execIsb option s
  | .strex rd rt rn imm8 => Sys2Proof.Machine.execStrex rd rt rn imm8 s
  | .ldrex rt rn imm8 => Sys2Proof.Machine.execLdrex rt rn imm8 s
  | .strexb rd rt rn => Sys2Proof.Machine.execStrexb rd rt rn s
  | .strexh rd rt rn => Sys2Proof.Machine.execStrexh rd rt rn s
  | .ldrexb rt rn => Sys2Proof.Machine.execLdrexb rt rn s
  | .ldrexh rt rn => Sys2Proof.Machine.execLdrexh rt rn s

end Sys2Proof.Machine
end

