-- ==== Sys2Proof/Machine/Pool.lean ====
section
/-! DEFINITION. Outstanding transactions: which may complete next, and what completing one does (20_memory.md R91,
41_exclusive.md R153), for the processors and for the other bus masters. -/

namespace Sys2Proof.Machine

/-- Whether a transaction is the outstanding second half of an alias write (R69). -/
def Txn.isWriteBack (t : Txn) : Bool :=
  match t.op with
  | .writeBack _ _ => true
  | .read _ => false
  | .loadExcl _ => false
  | .write _ => false
  | .storeExcl _ _ _ => false

/-- Whether a transaction writes memory: a Store-Exclusive's counts, though its write may not be performed. -/
def Txn.isWrite (t : Txn) : Bool :=
  match t.op with
  | .read _ => false
  | .loadExcl _ => false
  | .write _ => true
  | .writeBack _ _ => true
  | .storeExcl _ _ _ => true

/-- Whether an agent is between the halves of an alias write: its write back is outstanding (R69). -/
def betweenHalves (pool : List Txn) : Bool := pool.any Txn.isWriteBack

/-- The bytes a transaction touches (R66, R69). -/
def Txn.footprint (plat : Platform) (t : Txn) : Nat × Nat := Machine.footprint plat t.addr.toNat t.size

/-- The memory type of the location a transaction touches (R41). -/
def Txn.memType (plat : Platform) (t : Txn) : MemType := memTypeOf (regionOf (t.footprint plat).1)

/-- R91: whether `t'`, earlier in program order, must complete before `t`: (i) their bytes overlap (R82), (ii) a DMB
lies between them (R131), (iii) both address a Strongly-ordered region (R84), (iv) `ORDER_TABLE` says so (R83). -/
def mustPrecede (plat : Platform) (dmbs : List Nat) (t' t : Txn) : Bool :=
  decide (t'.seq < t.seq) &&
    (overlaps (t'.footprint plat) (t.footprint plat) ||
      dmbs.any (fun d => decide (t'.seq < d ∧ d < t.seq)) ||
      (t'.memType plat == .stronglyOrdered && t.memType plat == .stronglyOrdered) ||
      plat.orderTable.contains (t'.memType plat, t.memType plat))

/-- Whether nothing comes between the halves of an alias write: while a write back is outstanding, no other transaction
of the same agent completes (R69). -/
def keepsPair (pool : List Txn) (t : Txn) : Bool := t.isWriteBack || !betweenHalves pool

/-- Whether a transaction of a processor may complete: no other outstanding one must precede it (R91). -/
def mayComplete (plat : Platform) (p : Proc) (t : Txn) : Bool :=
  keepsPair p.pool t && p.pool.all (fun t' => !mustPrecede plat p.dmbs t' t)

/-- Whether a transaction of a bus master may complete: its must-precede relation is empty (R96). -/
def mayCompleteMaster (pool : List Txn) (t : Txn) : Bool := keepsPair pool t

/-- What completing a transaction leaves of it. -/
inductive Completion where
  /-- The first half of an alias write is done: this record takes its place (R69). -/
  | halfway (t : Txn)
  /-- It is complete, with the value for its register: the value read, or the status. -/
  | done (value : Option Word)
deriving DecidableEq, Repr

/-- Whether a map gives a transaction a meaning: an exclusive access as R149 says, a plain one where the map has something
at its location (R59, R60). -/
def Txn.permitted (plat : Platform) (t : Txn) (map : MemoryMap) : Bool :=
  match t.op with
  | .read _ => reachable plat t.addr.toNat t.size map
  | .write _ => reachable plat t.addr.toNat t.size map
  | .writeBack _ _ => reachable plat t.addr.toNat t.size map
  | .loadExcl _ => exclusiveAllowed map t.addr.toNat t.size.bytes
  | .storeExcl _ _ _ => exclusiveAllowed map t.addr.toNat t.size.bytes

/-- Runs the access of an exclusive instruction where the map it uses lets it have one. R149 was checked when it was
issued (R167), so in a state that meets the invariant this refuses nothing. -/
def exclusiveAccess (map : MemoryMap) (t : Txn) (access : Result (Completion × State)) : Result (Completion × State) :=
  if exclusiveAllowed map t.addr.toNat t.size.bytes then access else .refused (.exclusiveNotAllowed t.addr)

/-- The write of a Store-Exclusive at the moment it completes (R153): status 1 and no write where `intact` is lost;
where it holds the status is drawn. -/
def completeStoreExcl (map : MemoryMap) (who : Nat) (t : Txn) (v : Word) (intact : Bool) (s : State) :
    Result (Completion × State) :=
  let fails := !intact || Config.storeExclusiveFails s.draws
  let s := if intact then { s with draws := s.draws + 1 } else s
  if fails then .next (.done (some (statusWord true)), s)
  else exclusiveAccess map t
    (andThen (memWrite map who t.addr t.size v s) fun s' => .next (.done (some (statusWord false)), s'))

/-- The completion of a transaction of agent `who` by the map given (R91), before its pool takes note. -/
def completeTxn (map : MemoryMap) (who : Nat) (t : Txn) (s : State) : Result (Completion × State) :=
  match t.op with
  | .read _ => andThen (memRead map t.addr t.size s) fun r => .next (.done (some r.1), r.2)
  | .loadExcl _ =>
    exclusiveAccess map t (andThen (memRead map t.addr t.size s) fun r => .next (.done (some r.1), r.2))
  | .write v =>
    if inAlias t.addr.toNat then
      andThen (checkAccess t.addr t.size) fun _ =>
        andThen (aliasRead map t.addr s) fun r => .next (.halfway { t with op := .writeBack r.1 v }, r.2)
    else andThen (memWrite map who t.addr t.size v s) fun s' => .next (.done none, s')
  | .writeBack old v => andThen (aliasWriteBack map who t.addr old v s) fun s' => .next (.done none, s')
  | .storeExcl v _ intact => completeStoreExcl map who t v intact s

/-- R87, R93, R133: when a write of the processor that is earlier than its latest ISB completes, no fetch of it returns
anything older at the cells written; `now` is how many byte writes have completed. -/
def Proc.seeOwnWrite (p : Proc) (t : Txn) (written : List Host.Cell) (now : Nat) : Proc :=
  if t.seq < p.isbSeq then { p with seen := written.map (fun c => (c.1, now)) ++ p.seen } else p

/-- The byte writes that completed between two states, newest first. -/
def writtenSince (s s' : State) : List Host.Cell := s'.history.take (s'.history.length - s.history.length)

/-- The processor after its `k`-th transaction completed as said: a register takes the value, the record leaves the
pool, and a DMB with no older transaction outstanding is forgotten (R131). -/
def Proc.settleTxn (p : Proc) (k : Nat) (t : Txn) (c : Completion) : Proc :=
  match c with
  | .halfway t' => { p with pool := p.pool.set k t' }
  | .done value =>
    let pool := p.pool.eraseIdx k
    let p := { p with pool := pool, dmbs := p.dmbs.filter (fun d => pool.any (fun u => decide (u.seq < d))) }
    match t.dest, value with
    | some r, some v => p.setReg r v
    | _, _ => p

/-- The `k`-th outstanding transaction of the processor in focus completes, if R91 lets it, by a map that R88 lets it
use and that gives it a meaning: it was checked when it was issued, and is not refused any more (R167, R168; log 27). -/
def completeAt (k : Nat) (s : State) : Result State :=
  match s.cpu.pool[k]? with
  | none => .next s
  | some t =>
    if mayComplete s.plat s.cpu t then
      let choice := chooseMap (t.permitted s.plat) s.cpu.mapEpoch s
      andThen (completeTxn choice.1 s.cpu.id t choice.2) fun r =>
        .next { r.2 with
          cpu := (r.2.cpu.settleTxn k t r.1).seeOwnWrite t (writtenSince s r.2) r.2.history.length }
    else .next s

/-- Completes the first transaction that may complete, at most `fuel` times, until the pool is empty. -/
def settleFor : Nat → State → Result State
  | 0, s => .next s
  | fuel + 1, s =>
    match s.cpu.pool.findIdx? (mayComplete s.plat s.cpu) with
    | none => .next s
    | some k => andThen (completeAt k s) (settleFor fuel)

/-- Completes every outstanding transaction of the processor in focus, the oldest that may first: the simulator's run of
92_eei_decisions.md, Notes (i). An alias write takes two completions. -/
def settle (s : State) : Result State := settleFor (2 * s.cpu.pool.length) s

/-- The transaction of a plain access made at position `seq`; a read's value goes to `dest` (R57, R91). -/
def PlainAccess.txn (access : PlainAccess) (seq : Nat) (dest : Option Reg) : Txn :=
  match access.written with
  | none => ⟨seq, .read dest, access.addr, access.size⟩
  | some v => ⟨seq, .write v, access.addr, access.size⟩

/-- The processor in focus issues a plain access, for an instruction no source names (R57): its transaction joins the
pool in program order, after every check of it (R168). It holds while the register of a read is pending (R91) and between
the halves of an alias write (R69), and issues nothing once finished (R184). The pc stays: the instruction is not of this
spec (log 7). -/
def issuePlain (access : PlainAccess) (dest : Option Reg) (s : State) : Result State :=
  if s.cpu.finished || betweenHalves s.cpu.pool || (access.txn s.cpu.seq dest).dest.any s.cpu.pending then .next s
  else andThen (admitPlain s.cpu.mapEpoch access.addr access.size s) fun s' =>
    .next { s' with cpu := { s'.cpu with
      seq := s'.cpu.seq + 1, pool := s'.cpu.pool ++ [access.txn s'.cpu.seq dest] } }

/-- A bus master's next listed access joins its pool (R96, R188). -/
def Master.issueNext (m : Master) : Master :=
  match m.todo with
  | [] => m
  | access :: rest => { m with todo := rest, seq := m.seq + 1, pool := m.pool ++ [access.txn m.seq none] }

/-- The bus master after its `k`-th transaction completed as said; the value of a read goes on its record. -/
def Master.settleTxn (m : Master) (k : Nat) (t : Txn) (c : Completion) : Master :=
  match c with
  | .halfway t' => { m with pool := m.pool.set k t' }
  | .done (some v) => { m with pool := m.pool.eraseIdx k, got := ⟨t.addr, t.size, v⟩ :: m.got }
  | .done none => { m with pool := m.pool.eraseIdx k }

/-- The `m`-th bus master issues its next listed access, after every check of it (R168), but not between the halves of an
alias write of its own (log 14). -/
def masterIssue (m : Nat) (s : State) : Result State :=
  match s.masters[m]? with
  | none => .next s
  | some master =>
    match master.todo with
    | [] => .next s
    | access :: _ =>
      if betweenHalves master.pool then .next s
      else andThen (admitPlain 0 access.addr access.size s) fun s' =>
        .next { s' with masters := s'.masters.set m master.issueNext }

/-- The `k`-th outstanding transaction of the `m`-th bus master completes, if it may (R91, R96). A bus master has no DSB,
so any map that has been in force since launch is admitted (log 27). -/
def masterComplete (m k : Nat) (s : State) : Result State :=
  match s.masters[m]? with
  | none => .next s
  | some master =>
    match master.pool[k]? with
    | none => .next s
    | some t =>
      if mayCompleteMaster master.pool t then
        let choice := chooseMap (t.permitted s.plat) 0 s
        andThen (completeTxn choice.1 master.id t choice.2) fun r =>
          .next { r.2 with masters := r.2.masters.set m (master.settleTxn k t r.1) }
      else .next s

end Sys2Proof.Machine
end

