-- ==== Sys2Proof/Machine/Fetch.lean ====
section
/-! DEFINITION. Instruction fetch: `Fetch(a)` (20_memory.md R61), the bytes it may return (R93), and the fetch of a whole
instruction in the order of checks of 60_exceptions.md R167. -/

namespace Sys2Proof.Machine

/-- The moment from which a fetch of the processor sees a storage cell: `ifetch_epoch`, or the completion of a write of
its own from before that ISB, if it was still outstanding then (R87, R93, R133). -/
def Proc.epochOf (p : Proc) (cell : Nat) : Nat :=
  match p.seen.find? (fun c => c.1 == cell) with
  | none => p.ifetchEpoch
  | some c => max p.ifetchEpoch c.2

/-- The bytes that stood in the cell `a` at some moment from `epochOf` on and have been overwritten since (R93). -/
def staleBytes (s : State) (a : Nat) : List Byte :=
  ((s.history.take (s.history.length - s.cpu.epochOf a)).filter (fun c => c.1 == a)).map Prod.snd

/-- One fetched byte, from its storage cell: the byte in memory where nothing else is admitted, else a free choice among the bytes R93 admits. -/
def fetchByte (a : Nat) (s : State) : Byte × State :=
  match staleBytes s a with
  | [] => (s.mem.read a, s)
  | old =>
    let admitted := s.mem.read a :: old
    (admitted.getD (Config.fetchPick s.draws % admitted.length) (s.mem.read a), { s with draws := s.draws + 1 })

/-- R93: a fetch after an ISB waits for the processor's own outstanding writes, earlier than that ISB, that overlap the
fetched bytes. -/
def fetchWaits (s : State) (a : Nat) : Bool :=
  s.cpu.pool.any (fun t => t.isWrite && decide (t.seq < s.cpu.isbSeq) && overlaps (t.footprint s.plat) (a, 2))

/-- `Fetch(a)` (R61): one halfword, by a map that R88 lets it use, or none while the fetch waits. No alias address is
remapped (R71). -/
def fetchHalf (a : Word) (s : State) : Result (Option (Half × State)) :=
  if a.toNat % 2 ≠ 0 then .refused (.oddFetchAddress a)
  else if isXN (regionOf a.toNat) then .fault (.xnFetch a)
  else
    let choice := chooseMap (fun _ => true) s.cpu.mapEpoch s
    if populated choice.1 a.toNat 2 then
      if fetchWaits s a.toNat then .next none
      else
        let low := fetchByte (place choice.1 a.toNat) choice.2
        let high := fetchByte (place choice.1 (a.toNat + 1)) low.2
        .next (some (halfOfBytes low.1 high.1, high.2))
    else .refused (.unpopulated a)

/-- The fetch of an instruction's first halfword. R167 puts the XN check of the second before the refusal of an unpopulated
first. -/
def fetchFirst (s : State) : Result (Option (Half × State)) :=
  match fetchHalf s.cpu.pc s with
  | .next r => .next r
  | .fault f => .fault f
  | .refused r =>
    if r = .unpopulated s.cpu.pc ∧ isXN (regionOf (s.cpu.pc + 2#32).toNat) = true then .fault (.xnFetch (s.cpu.pc + 2#32))
    else .refused r

/-- The fetch and decode of the instruction at the pc (R111, R112, R119, R122), or none while a fetch waits. The decoder is
given the bytes as fetched. -/
def fetchInstr (s : State) : Result (Option (Instr × State)) :=
  andThen (fetchFirst s) fun first =>
    match first with
    | none => .next none
    | some (hw1, s1) =>
      if opensTwoHalfwords hw1 then
        andThen (fetchHalf (s.cpu.pc + 2#32) s1) fun second =>
          match second with
          | none => .next none
          | some (hw2, s2) =>
            match decode (bytesOfHalf hw1 ++ bytesOfHalf hw2) with
            | .ok (i, _) => .next (some (i, s2))
            | .error _ => .refused (.unknownInstruction s.cpu.pc [hw1, hw2])
      else .refused (.unknownInstruction s.cpu.pc [hw1])

end Sys2Proof.Machine
end

