-- ==== Sys2Proof/Machine/Schedule.lean ====
section
/-! DEFINITION. What moves next (20_memory.md R91): the processor in focus executes an instruction, a transaction
completes, another processor comes into focus, a bus master moves. -/

namespace Sys2Proof.Machine

/-- The processor in focus executes its next instruction (R91 "Issue"). A processor that has finished fetches nothing
more (R184); one that is between the halves of an alias write holds, for nothing of its own comes between (R69); and so
does one whose fetch waits (R93). -/
def issue (s : State) : Result State :=
  if s.cpu.finished || betweenHalves s.cpu.pool then .next s
  else andThen (fetchInstr s) fun fetched =>
    match fetched with
    | none => .next s
    | some (i, s') => exec i s'

/-- The `k`-th other processor and the one in focus change places. No machine state changes. -/
def focusOn (k : Nat) (s : State) : State :=
  match s.others[k]? with
  | none => s
  | some p => { s with cpu := p, others := s.others.set k s.cpu }

/-- One move. A move that is not possible changes nothing. -/
def play (m : Move) (s : State) : Result State :=
  match m with
  | .issue => issue s
  | .complete k => completeAt k s
  | .focus k => .next (focusOn k s)
  | .plain access dest => issuePlain access dest s
  | .masterIssue m => masterIssue m s
  | .masterComplete m k => masterComplete m k s

/-- The run of a simulator: one instruction, and then every outstanding transaction of the processor completes, in
program order (92_eei_decisions.md, Notes (i)). -/
def issueAndSettle (s : State) : Result State := andThen (issue s) settle

end Sys2Proof.Machine
end

