-- ==== Sys2Proof/Machine/Step.lean ====
section
/-! DEFINITION. One step: the next move of the agenda, or, with an empty agenda, one instruction with all its
transactions. -/

namespace Sys2Proof.Machine

def step (s : State) : Host.Outcome State Fault Refusal :=
  match s.agenda with
  | [] => issueAndSettle s
  | m :: rest => play m { s with agenda := rest }

/-- `s` with the instruction whose bits are `w` (numbered as the opcode table numbers them) in memory at the pc of the
processor in focus, as a loader outside the machine leaves it (R188): fetch sees it, nothing of this processor is
outstanding that could change it or hold it back, and the next step executes this processor's instruction. -/
def State.withFetchWord (s : State) (nbits w : Nat) : State :=
  let I := tableWord nbits w
  let cell := fun k => place s.map (s.cpu.pc.toNat + k)
  { s with
    mem := (((s.mem.write (cell 0) ((bytesOfWord I).getD 0 0)).write (cell 1) ((bytesOfWord I).getD 1 0)).write (cell 2)
      ((bytesOfWord I).getD 2 0)).write (cell 3) ((bytesOfWord I).getD 3 0)
    cpu := { s.cpu with
      ifetchEpoch := s.history.length, mapEpoch := s.mapHistory.length, pool := [], finish := none }
    agenda := [] }

end Sys2Proof.Machine
end

