-- ==== Sys2Proof/Safety.lean ====
section
/-! DEFINITION. The terms claims are stated in: the forms of the instructions, a final state
(70_reset_and_hazards.md R184), the launch premises that are properties of a state (R182), a step that stops nowhere,
and the machine's invariant. -/

namespace Sys2Proof.Machine

/-- The Load-Exclusives with their operands: destination, base, offset, size (R141 to R144). -/
def loadForm : Instr → Option (Reg × Reg × Nat × Size)
  | .ldrex rt rn imm8 => some (rt, rn, 4 * imm8.toNat, .word)
  | .ldrexh rt rn => some (rt, rn, 0, .half)
  | .ldrexb rt rn => some (rt, rn, 0, .byte)
  | .dsb _ => none
  | .dmb _ => none
  | .isb _ => none
  | .strex _ _ _ _ => none
  | .strexb _ _ _ => none
  | .strexh _ _ _ => none

/-- The Store-Exclusives with their operands: status, value, base, offset, size (R141, R145 to R147). -/
def storeForm : Instr → Option (Reg × Reg × Reg × Nat × Size)
  | .strex rd rt rn imm8 => some (rd, rt, rn, 4 * imm8.toNat, .word)
  | .strexh rd rt rn => some (rd, rt, rn, 0, .half)
  | .strexb rd rt rn => some (rd, rt, rn, 0, .byte)
  | .dsb _ => none
  | .dmb _ => none
  | .isb _ => none
  | .ldrex _ _ _ => none
  | .ldrexb _ _ => none
  | .ldrexh _ _ => none

/-- The three barriers (R130). -/
def isBarrier : Instr → Bool
  | .dsb _ => true
  | .dmb _ => true
  | .isb _ => true
  | .strex _ _ _ _ => false
  | .ldrex _ _ _ => false
  | .strexb _ _ _ => false
  | .strexh _ _ _ => false
  | .ldrexb _ _ => false
  | .ldrexh _ _ => false

/-- The registers an exclusive instruction names, its offset and its size: what its checks depend on. -/
def exclusiveForm (i : Instr) : Option (List Reg × Reg × Nat × Size) :=
  match loadForm i, storeForm i with
  | some (rt, rn, offset, size), _ => some ([rt, rn], rn, offset, size)
  | none, some (rd, rt, rn, offset, size) => some ([rd, rt, rn], rn, offset, size)
  | none, none => none

/-- The premise `NothingInFlight`: every agent's pool is empty (R31, R182). -/
def State.nothingInFlight (s : State) : Bool :=
  s.procs.all (fun p => p.pool.isEmpty) && s.masters.all (fun m => m.pool.isEmpty)

/-- The premise `FetchSeesLaunchMemory`: no fetch of any processor may return a byte that has been overwritten (R31, R182). -/
def State.fetchSeesMemory (s : State) : Bool := s.procs.all (fun p => decide (s.history.length ≤ p.ifetchEpoch))

/-- R184: every processor has finished and every pool is empty. A state reached by a fault or a refusal does not exist
here: such a step answers no state. -/
def State.final (s : State) : Bool := s.procs.all Proc.finished && s.nothingInFlight

/-- A step that neither faults nor is refused. -/
def stepsOn (s : State) : Prop := ∃ t, step s = .next t

/-- The memory map is fixed for the run: the system has no switching mechanism and no map has been replaced (R30, R31). -/
def State.fixedMap (s : State) : Prop := s.plat.mapSwitch = [] ∧ s.mapHistory = []

/-- Every memory map the machine has had or can switch to. -/
def State.maps (s : State) : List MemoryMap := s.map :: (s.mapHistory ++ s.plat.mapSwitch.map MapRule.map)

/-- The map shows no storage cell outside the 2^32 of R25. -/
def MapInRange (map : MemoryMap) : Prop := ∀ b ∈ map, b.store + b.size ≤ 2 ^ 32

/-- What an outstanding transaction owes to the checks when it was issued (R168): it is aligned (R58, R148), in an alias
region it is a word access (R73), which a write back always is (R69), and a map that its agent may still use gives it a
meaning (R59, R60, R149). -/
structure Txn.sound (s : State) (epoch : Nat) (t : Txn) : Prop where
  aligned : t.addr.toNat % t.size.bytes = 0
  aliasWord : inAlias t.addr.toNat = true → t.size = .word
  aliasPair : t.isWriteBack = true → inAlias t.addr.toNat = true
  permitted : ∃ map ∈ s.lastingMaps epoch, t.permitted s.plat map = true

/-- A processor's own invariant: its pc is even (R22); its pool stands in program order, older than its next instruction
(R26, R91); so stand the DMBs and the ISB it keeps (R131, R133); its epochs are moments that have been (R28, R88, R93);
its transactions are sound; and a write back, whose read has completed, waits for nothing (R69, R91). -/
structure Proc.Inv (s : State) (p : Proc) : Prop where
  pcEven : p.pc.toNat % 2 = 0
  poolOrdered : p.pool.Pairwise (fun t u => t.seq < u.seq)
  poolOlder : ∀ t ∈ p.pool, t.seq < p.seq
  dmbsOlder : ∀ d ∈ p.dmbs, d < p.seq
  isbOlder : p.isbSeq ≤ p.seq
  epochPast : p.ifetchEpoch ≤ s.history.length
  seenPast : ∀ c ∈ p.seen, c.2 ≤ s.history.length
  mapEpochPast : p.mapEpoch ≤ s.mapHistory.length
  poolSound : ∀ t ∈ p.pool, t.sound s p.mapEpoch
  writeBackReady : ∀ t ∈ p.pool, t.isWriteBack = true → ∀ t' ∈ p.pool, mustPrecede s.plat p.dmbs t' t = false

/-- The machine's invariant: memory is canonical, and it and the maps are within the 2^32 cells (R25); every processor
keeps its own; and what the bus masters have outstanding is sound. -/
structure State.Inv (s : State) : Prop where
  memWf : s.mem.wf
  memInRange : ∀ c ∈ s.mem, c.1 < 2 ^ 32
  mapsInRange : ∀ map ∈ s.maps, MapInRange map
  procs : ∀ p ∈ s.procs, p.Inv s
  masters : ∀ m ∈ s.masters, ∀ t ∈ m.pool, t.sound s 0

end Sys2Proof.Machine
end

