-- ==== Sys2Proof/Certificates/Slice0/Obligations.lean ====
section
/-! DEFINITION. The statements for the provers, family by family. A word such as `loadForm` names the instructions a
statement is about; every number in a statement is the spec's, written out again beside the model's own definition. -/

namespace Sys2Proof.Statements

open Sys2Proof.Machine

/-- With nothing on the agenda, the processor in focus fetches `i` next; `s'` counts the bytes that were a free choice. -/
def Fetches (s : State) (i : Instr) (s' : State) : Prop :=
  s.agenda = [] ∧ s.cpu.finished = false ∧ fetchInstr s = .next (some (i, s'))

/-- The memory maps an access of the processor in focus may use: the one in force, and others only while a switch is under
way (R88). -/
abbrev admitted (s : State) : List MemoryMap := s.mapsAdmitted s.cpu.mapEpoch

/-- A draw of a map leaves the count at `n`: as it was where only one map is admitted. -/
def Drawn (s : State) (epoch n : Nat) : Prop := s.draws ≤ n ∧ (s.mapsAdmitted epoch = [s.map] → n = s.draws)

/-- Some map an exclusive access of the processor in focus may use gives it no meaning (R149). -/
def SomeMapForbids (s : State) (a : Nat) (size : Size) : Prop :=
  ∃ map ∈ admitted s, exclusiveAllowed map a size.bytes = false

/-- `s` with a Load-Exclusive issued: its tag, its read, the next pc (R91, R142 to R144, R150). -/
def AfterLoad (s : State) (n : Nat) (rt : Reg) (a : Nat) (size : Size) : State :=
  { s with draws := n, cpu := { s.cpu with
    pc := s.cpu.pc + 4#32, seq := s.cpu.seq + 1, tag := some ⟨BitVec.ofNat 32 a, size, true⟩,
    pool := s.cpu.pool ++ [⟨s.cpu.seq, .loadExcl rt, BitVec.ofNat 32 a, size⟩] } }

/-- `s` with a Store-Exclusive issued: no tag any more, its write with the tag's `intact`, the next pc (R91, R145 to R147,
R151). -/
def AfterStore (s : State) (n : Nat) (rd rt : Reg) (a : Nat) (size : Size) (intact : Bool) : State :=
  { s with draws := n, cpu := { s.cpu with
    pc := s.cpu.pc + 4#32, seq := s.cpu.seq + 1, tag := none,
    pool := s.cpu.pool ++ [⟨s.cpu.seq,
      .storeExcl (BitVec.ofNat 32 ((s.cpu.reg rt).toNat % 2 ^ (8 * size.bytes))) rd intact,
      BitVec.ofNat 32 a, size⟩] } }

/-- `s` with a plain access of the processor in focus issued; a read's value goes to `dest` (R57, R91). -/
def AfterPlain (s : State) (n : Nat) (access : PlainAccess) (dest : Option Reg) : State :=
  { s with draws := n, cpu := { s.cpu with
    seq := s.cpu.seq + 1,
    pool := s.cpu.pool ++ [match access.written with
      | none => ⟨s.cpu.seq, .read dest, access.addr, access.size⟩
      | some v => ⟨s.cpu.seq, .write v, access.addr, access.size⟩] } }

/-- What the check of a plain access says before it joins a pool (R168): misaligned (R58), narrow in an alias region
(R73), with nothing at its location (R59, R60), or, by every map admitted, none of these; `r` is what the issue answers and
`after n` the state with the access in the pool. -/
def PlainChecks (s : State) (epoch : Nat) (access : PlainAccess) (r : Result State) (after : Nat → State) : Prop :=
  if access.addr.toNat % access.size.bytes ≠ 0 then r = .refused (.misalignedPlainAccess access.addr)
  else if inAlias access.addr.toNat = true ∧ access.size ≠ .word then r = .refused (.nonWordAlias access.addr)
  else ∀ lo n, footprint s.plat access.addr.toNat access.size = (lo, n) →
    ((∀ map ∈ s.mapsAdmitted epoch, populated map lo n = true) → ∃ d, Drawn s epoch d ∧ r = .next (after d)) ∧
    ((∀ map ∈ s.mapsAdmitted epoch, populated map lo n = false) → r = .refused (.unpopulated (BitVec.ofNat 32 lo))) ∧
    ((∃ d, Drawn s epoch d ∧ r = .next (after d)) ∨ r = .refused (.unpopulated (BitVec.ofNat 32 lo)))

/-- A write of the low bytes of `v` at `a` is one that the rule switches on. -/
def Fits (r : MapRule) (a : Nat) (size : Size) (v : Word) : Prop :=
  r.addr.toNat = a ∧ r.size = size ∧ BitVec.ofNat 32 (v.toNat % 2 ^ (8 * size.bytes)) &&& r.mask = r.value

/-- `map` is one that a write of the low bytes of `v` at `a` may switch to. -/
def Switches (s : State) (a : Nat) (size : Size) (v : Word) (map : MemoryMap) : Prop :=
  ∃ r ∈ s.plat.mapSwitch, Fits r a size v ∧ r.map = map

/-- Every register but `r` reads in `t` as in `s`. -/
def RegsKeptBut (r : Reg) (s t : State) : Prop := ∀ q, q ≠ r → t.cpu.reg q = s.cpu.reg q

/-- Every byte of memory but those the map shows at `a .. a+n-1` reads in `t` as in `s`. -/
def BytesKeptBut (map : MemoryMap) (a n : Nat) (s t : State) : Prop :=
  ∀ c, (∀ j, j < n → c ≠ place map (a + j)) → t.mem.read c = s.mem.read c

/-- The map shows the low `n` bytes of `v` at `a`, least significant first (R53, R55). Where it shows one storage cell at
two of those addresses this says nothing. -/
def BytesWritten (map : MemoryMap) (a n : Nat) (v : Word) (t : State) : Prop :=
  DistinctPlaces map a n → ∀ j, j < n → t.mem.read (place map (a + j)) = v.extractLsb' (8 * j) 8

/-- `v` is the `n` bytes the map shows at `a`, least significant byte first, extended with zeros (R53, R55, R9 `zext_32`). -/
def IsValueAt (v : Word) (s : State) (map : MemoryMap) (a n : Nat) : Prop :=
  (∀ j, j < n → v.extractLsb' (8 * j) 8 = s.mem.read (place map (a + j))) ∧ v.toNat < 2 ^ (8 * n)

/-- The parameters and the identity of the processor in focus, which no instruction changes. -/
def SameIdentity (s t : State) : Prop :=
  t.cpu.id = s.cpu.id ∧ t.cpu.exclObserved = s.cpu.exclObserved ∧ t.cpu.finish = s.cpu.finish

end Sys2Proof.Statements

open Sys2Proof Sys2Proof.Machine Sys2Proof.Statements

/-! ### Encoding -/

/-- R111, R113 to R119: the decoder reads every instruction back from its bytes, with every operand, whatever follows.
That these are the encodings is general knowledge (92_eei_decisions.md D18; log 19, PRESUMED). -/
def Obligations.DecodeOfEncode : Prop :=
  ∀ (i : Instr) (rest : List Byte), decode (encode i ++ rest) = .ok (i, rest)

/-- R113 to R120: bytes that decode are the encoding of what they decode to, so every fixed bit is matched exactly. That
these are the encodings is general knowledge (92_eei_decisions.md D18; log 19, PRESUMED). -/
def Obligations.EncodeOfDecode : Prop :=
  ∀ (bytes : List Byte) (i : Instr) (rest : List Byte), decode bytes = .ok (i, rest) → bytes = encode i ++ rest

/-- R119 with its nine patterns, which the spec takes from general knowledge (92_eei_decisions.md D18; log 19, PRESUMED):
an instruction word selects a row exactly when `I and mask = match`, and reads the row's fields. -/
def Obligations.WordSelectsTableRow : Prop :=
  ∀ I : Word,
    (I &&& 0xFFFFFFF0#32 = 0xF3BF8F40#32 ↔ decodeWord I = some (.dsb (I.extractLsb' 0 4))) ∧
    (I &&& 0xFFFFFFF0#32 = 0xF3BF8F50#32 ↔ decodeWord I = some (.dmb (I.extractLsb' 0 4))) ∧
    (I &&& 0xFFFFFFF0#32 = 0xF3BF8F60#32 ↔ decodeWord I = some (.isb (I.extractLsb' 0 4))) ∧
    (I &&& 0xFFF00000#32 = 0xE8400000#32 ↔
      decodeWord I = some (.strex (I.extractLsb' 8 4).toFin (I.extractLsb' 12 4).toFin (I.extractLsb' 16 4).toFin
        (I.extractLsb' 0 8))) ∧
    (I &&& 0xFFF00F00#32 = 0xE8500F00#32 ↔
      decodeWord I = some (.ldrex (I.extractLsb' 12 4).toFin (I.extractLsb' 16 4).toFin (I.extractLsb' 0 8))) ∧
    (I &&& 0xFFF00FF0#32 = 0xE8C00F40#32 ↔
      decodeWord I = some (.strexb (I.extractLsb' 0 4).toFin (I.extractLsb' 12 4).toFin (I.extractLsb' 16 4).toFin)) ∧
    (I &&& 0xFFF00FF0#32 = 0xE8C00F50#32 ↔
      decodeWord I = some (.strexh (I.extractLsb' 0 4).toFin (I.extractLsb' 12 4).toFin (I.extractLsb' 16 4).toFin)) ∧
    (I &&& 0xFFF00FFF#32 = 0xE8D00F4F#32 ↔
      decodeWord I = some (.ldrexb (I.extractLsb' 12 4).toFin (I.extractLsb' 16 4).toFin)) ∧
    (I &&& 0xFFF00FFF#32 = 0xE8D00F5F#32 ↔
      decodeWord I = some (.ldrexh (I.extractLsb' 12 4).toFin (I.extractLsb' 16 4).toFin))

/-- 95_test_vectors.md section 5.2: the bytes at the pc of one instruction of each row. That these are the encodings is
general knowledge (92_eei_decisions.md D18; log 19, PRESUMED). -/
def Obligations.SampleBytesDecode : Prop :=
  decode [0xBF#8, 0xF3#8, 0x5F#8, 0x8F#8] = .ok (.dmb 0b1111#4, []) ∧
  decode [0xBF#8, 0xF3#8, 0x4F#8, 0x8F#8] = .ok (.dsb 0b1111#4, []) ∧
  decode [0xBF#8, 0xF3#8, 0x6F#8, 0x8F#8] = .ok (.isb 0b1111#4, []) ∧
  decode [0x54#8, 0xE8#8, 0xFF#8, 0x3F#8] = .ok (.ldrex 3 4 255#8, []) ∧
  decode [0x46#8, 0xE8#8, 0x02#8, 0x87#8] = .ok (.strex 7 8 6 2#8, []) ∧
  decode [0xD1#8, 0xE8#8, 0x4F#8, 0x2F#8] = .ok (.ldrexb 2 1, []) ∧
  decode [0xD6#8, 0xE8#8, 0x5F#8, 0x5F#8] = .ok (.ldrexh 5 6, []) ∧
  decode [0xC1#8, 0xE8#8, 0x43#8, 0x4F#8] = .ok (.strexb 3 4 1, []) ∧
  decode [0xC6#8, 0xE8#8, 0x57#8, 0x5F#8] = .ok (.strexh 7 5 6, [])

/-- R112, R122 (decision D18): a halfword that opens no two-halfword instruction, and two halfwords that select no row,
are refused with the pc and the halfwords; they are neither trapped on nor executed as a no-op. -/
def Obligations.UnselectedWordsRefused : Prop :=
  ∀ (s s₁ : State) (hw1 : Half), s.agenda = [] → s.cpu.finished = false → betweenHalves s.cpu.pool = false →
    fetchHalf s.cpu.pc s = .next (some (hw1, s₁)) →
    (opensTwoHalfwords hw1 = false → step s = .refused (.unknownInstruction s.cpu.pc [hw1])) ∧
    ∀ (hw2 : Half) (s₂ : State), opensTwoHalfwords hw1 = true →
      fetchHalf (s.cpu.pc + 2#32) s₁ = .next (some (hw2, s₂)) → decodeWord (hw1 ++ hw2) = none →
      step s = .refused (.unknownInstruction s.cpu.pc [hw1, hw2])

/-- R123 (decision D23): a barrier whose option is not SY is refused, with the pc and the word. That this comes before a
DSB's hold is the model's choice (log 13, DEDUCED), and the words are those of log 19 (PRESUMED). -/
def Obligations.BarrierOptionRefused : Prop :=
  ∀ (s : State) (option : BitVec 4), option ≠ 0b1111#4 →
    exec (.dsb option) s = .refused (.barrierOption s.cpu.pc (0xF3BF8F4#28 ++ option)) ∧
    exec (.dmb option) s = .refused (.barrierOption s.cpu.pc (0xF3BF8F5#28 ++ option)) ∧
    exec (.isb option) s = .refused (.barrierOption s.cpu.pc (0xF3BF8F6#28 ++ option))

/-- R121 (decision D1): an exclusive instruction is refused, with the pc and the word, exactly for the operands the rule
names: R13 or R15 anywhere, and for a Store-Exclusive `Rd = Rn` or `Rd = Rt`. R167 puts this before the other checks;
that it comes before the hold on a pending register too is the model's choice (log 13, DEDUCED). -/
def Obligations.BadOperandRefused : Prop :=
  (∀ (i : Instr) (rt rn : Reg) (offset : Nat) (size : Size) (s : State),
    loadForm i = some (rt, rn, offset, size) →
      ((rt = 13 ∨ rt = 15 ∨ rn = 13 ∨ rn = 15) ↔ exec i s = .refused (.badOperand s.cpu.pc (encodeWord i)))) ∧
  (∀ (i : Instr) (rd rt rn : Reg) (offset : Nat) (size : Size) (s : State),
    storeForm i = some (rd, rt, rn, offset, size) →
      ((rd = 13 ∨ rd = 15 ∨ rt = 13 ∨ rt = 15 ∨ rn = 13 ∨ rn = 15 ∨ rd = rn ∨ rd = rt) ↔
        exec i s = .refused (.badOperand s.cpu.pc (encodeWord i))))

/-! ### Barriers -/

/-- R131: a DMB goes on at once, whatever is outstanding, with its position on record where something is; no move of
the processor or of a bus master drops it from the record while an older transaction is outstanding; and while it
stands no younger transaction completes before an older one. So every transaction before a DMB completes before any
after it. That a DMB is put on a record when something is outstanding, and dropped with the last transaction older than
it, is how the model keeps R131 (log 29, DEDUCED). -/
def Obligations.DmbOrdersTransactions : Prop :=
  (∀ s : State, s.cpu.pc.toNat + 4 ≤ 0xFFFFFFFC →
    exec (.dmb 0b1111#4) s = .next { s with cpu := { s.cpu with
      pc := s.cpu.pc + 4#32, seq := s.cpu.seq + 1,
      dmbs := if s.cpu.pool = [] then s.cpu.dmbs else s.cpu.dmbs ++ [s.cpu.seq] } }) ∧
  (∀ (m : Move) (s t : State) (d : Nat) (old : Txn), play m s = .next t → (∀ k, m ≠ .focus k) → d ∈ s.cpu.dmbs →
    old ∈ t.cpu.pool → old.seq < d → d ∈ t.cpu.dmbs) ∧
  (∀ (s : State) (k d : Nat) (old young : Txn), s.cpu.pool[k]? = some young → old ∈ s.cpu.pool → d ∈ s.cpu.dmbs →
    old.seq < d → d < young.seq → completeAt k s = .next s)

/-- R132: a DSB holds while the processor's pool is not empty, and only then goes on; the one thing it may change besides
is from when on the memory maps replaced are out of use (R88). -/
def Obligations.DsbWaitsForPool : Prop :=
  ∀ s : State,
    (s.cpu.pool ≠ [] → exec (.dsb 0b1111#4) s = .next s) ∧
    (s.cpu.pool = [] → s.cpu.pc.toNat + 4 ≤ 0xFFFFFFFC → ∃ t, exec (.dsb 0b1111#4) s = .next t ∧
      t = { s with cpu := { s.cpu with
        pc := s.cpu.pc + 4#32, seq := s.cpu.seq + 1, mapEpoch := t.cpu.mapEpoch } })

/-- R133 (conflict C2 and decision D21: the wait for own writes, log 22; the epoch as a length of the history: log 9,
DESIGN CHOICE): an ISB moves `ifetch_epoch` to now, so that no overwritten byte is fetched any more, and later fetches
wait exactly for the processor's own outstanding writes that overlap them. -/
def Obligations.IsbRenewsFetch : Prop :=
  ∀ s : State, s.cpu.pc.toNat + 4 ≤ 0xFFFFFFFC → (∀ u ∈ s.cpu.pool, u.seq < s.cpu.seq) →
    ∃ t, exec (.isb 0b1111#4) s = .next t ∧
      t = { s with cpu := { s.cpu with
        pc := s.cpu.pc + 4#32, seq := s.cpu.seq + 1, ifetchEpoch := s.history.length, isbSeq := s.cpu.seq,
        seen := [] } } ∧
      (∀ a, staleBytes t a = []) ∧
      ∀ a, fetchWaits t a = s.cpu.pool.any (fun u => u.isWrite && overlaps (u.footprint s.plat) (a, 2))

/-- R130: no barrier writes a general register or memory, none depends on what they hold, none faults, none touches
another processor, and each either holds, changing nothing, or ends with `pc <- pc + 4`. -/
def Obligations.BarrierFrame : Prop :=
  ∀ (i : Instr) (s : State), isBarrier i = true →
    (∀ f, exec i s ≠ .fault f) ∧
    ∀ t, exec i s = .next t →
      t.cpu.regs = s.cpu.regs ∧ t.cpu.tag = s.cpu.tag ∧ t.cpu.pool = s.cpu.pool ∧ SameIdentity s t ∧
      (∀ a, t.mem.read a = s.mem.read a) ∧ t.history = s.history ∧ t.map = s.map ∧ t.mapHistory = s.mapHistory ∧
      t.devices = s.devices ∧ t.others = s.others ∧ t.masters = s.masters ∧ t.plat = s.plat ∧ t.agenda = s.agenda ∧
      t.draws = s.draws ∧ (t = s ∨ t.cpu.pc = s.cpu.pc + 4#32) ∧
      ∀ (regs : Vector Word 16) (m : Memory), exec i { s with cpu := { s.cpu with regs := regs }, mem := m } =
        .next { t with cpu := { t.cpu with regs := regs }, mem := m }

/-! ### Exclusive instructions: what executing one does -/

/-- R142 to R144, R150 (decisions D10, D15: pool and tag): a Load-Exclusive sets the tag, issues its read and ends with
`pc <- pc + 4`. While a switch of the memory map is under way the map its location is checked by is a free choice, and
where one of them forbids the access it may be refused instead, which is the model's choice (log 27). -/
def Obligations.LoadExclusiveIssues : Prop :=
  ∀ (i : Instr) (rt rn : Reg) (offset : Nat) (size : Size) (s : State) (a : Nat),
    loadForm i = some (rt, rn, offset, size) → i.wellFormed = true →
    s.cpu.pending rt = false → s.cpu.pending rn = false →
    a = (s.cpu.reg rn).toNat + offset → a ≤ 0xFFFFFFFF → a % size.bytes = 0 → s.cpu.pc.toNat + 4 ≤ 0xFFFFFFFC →
    ((∀ map ∈ admitted s, exclusiveAllowed map a size.bytes = true) →
      ∃ n, Drawn s s.cpu.mapEpoch n ∧ exec i s = .next (AfterLoad s n rt a size)) ∧
    ((∃ n, Drawn s s.cpu.mapEpoch n ∧ exec i s = .next (AfterLoad s n rt a size)) ∨
      exec i s = .refused (.exclusiveNotAllowed (BitVec.ofNat 32 a)) ∧ SomeMapForbids s a size)

/-- R145 to R147, R151 (decisions D10, D15: pool and tag): a Store-Exclusive paired with its tag issues the low bits of
`Rt` with the tag's `intact`, spends the tag and ends with `pc <- pc + 4`. While a switch of the memory map is under way
it may be refused instead, as a Load-Exclusive may, which is the model's choice (log 27). That a narrow form carries the
low bits is D17 (log 19, PRESUMED). -/
def Obligations.StoreExclusiveIssues : Prop :=
  ∀ (i : Instr) (rd rt rn : Reg) (offset : Nat) (size : Size) (intact : Bool) (s : State) (a : Nat),
    storeForm i = some (rd, rt, rn, offset, size) → i.wellFormed = true →
    s.cpu.pending rd = false → s.cpu.pending rt = false → s.cpu.pending rn = false →
    a = (s.cpu.reg rn).toNat + offset → a ≤ 0xFFFFFFFF → a % size.bytes = 0 →
    s.cpu.tag = some ⟨BitVec.ofNat 32 a, size, intact⟩ → s.cpu.pc.toNat + 4 ≤ 0xFFFFFFFC →
    ((∀ map ∈ admitted s, exclusiveAllowed map a size.bytes = true) →
      ∃ n, Drawn s s.cpu.mapEpoch n ∧ exec i s = .next (AfterStore s n rd rt a size intact)) ∧
    ((∃ n, Drawn s s.cpu.mapEpoch n ∧ exec i s = .next (AfterStore s n rd rt a size intact)) ∨
      exec i s = .refused (.exclusiveNotAllowed (BitVec.ofNat 32 a)) ∧ SomeMapForbids s a size)

/-- R91 "Issue": an exclusive instruction that names a pending register, as a source or as a destination, holds. R91
speaks of the destination of a read; that the status register of an outstanding Store-Exclusive is pending too is the
model's choice (log 34, DEDUCED). So is that it holds before its address is checked (log 13, DEDUCED). -/
def Obligations.ExclusiveHoldsOnPendingRegister : Prop :=
  ∀ (i : Instr) (named : List Reg) (rn r : Reg) (offset : Nat) (size : Size) (s : State),
    exclusiveForm i = some (named, rn, offset, size) → i.wellFormed = true →
    r ∈ named → s.cpu.pending r = true → exec i s = .next s

/-- R141 (the spec's "no source says that addresses wrap"): an effective address above 0xFFFFFFFF is refused. -/
def Obligations.AddressOverflowRefused : Prop :=
  ∀ (i : Instr) (named : List Reg) (rn : Reg) (offset : Nat) (size : Size) (s : State),
    exclusiveForm i = some (named, rn, offset, size) → i.wellFormed = true →
    (∀ r ∈ named, s.cpu.pending r = false) → (s.cpu.reg rn).toNat + offset > 0xFFFFFFFF →
    exec i s = .refused (.addressOverflow s.cpu.pc)

/-- R148 (decision D6): an exclusive access whose address is no multiple of its size faults, with the address. -/
def Obligations.UnalignedExclusiveFaults : Prop :=
  ∀ (i : Instr) (named : List Reg) (rn : Reg) (offset : Nat) (size : Size) (s : State),
    exclusiveForm i = some (named, rn, offset, size) → i.wellFormed = true →
    (∀ r ∈ named, s.cpu.pending r = false) → (s.cpu.reg rn).toNat + offset ≤ 0xFFFFFFFF →
    ((s.cpu.reg rn).toNat + offset) % size.bytes ≠ 0 →
    exec i s = .fault (.unalignedExclusive (BitVec.ofNat 32 ((s.cpu.reg rn).toNat + offset)))

/-- R149 (decision D14): an aligned exclusive access is refused where, by every memory map it may use, a byte of it is
no plain storage, lies outside the Normal regions, or lies in a bit-band alias region. Which maps it may use, where a
switch is under way, is the model's choice (log 27). -/
def Obligations.ExclusiveOutsidePlainStorageRefused : Prop :=
  ∀ (i : Instr) (named : List Reg) (rn : Reg) (offset : Nat) (size : Size) (s : State) (a : Nat),
    exclusiveForm i = some (named, rn, offset, size) → i.wellFormed = true →
    (∀ r ∈ named, s.cpu.pending r = false) → a = (s.cpu.reg rn).toNat + offset → a ≤ 0xFFFFFFFF →
    a % size.bytes = 0 →
    (∀ map ∈ admitted s, ∃ k, k < size.bytes ∧
      (bankAt map (a + k) ≠ some .storage ∨ memTypeOf (regionOf (a + k)) ≠ .normal ∨
        (0x22000000 ≤ a + k ∧ a + k ≤ 0x23FFFFFF) ∨ (0x42000000 ≤ a + k ∧ a + k ≤ 0x43FFFFFF))) →
    exec i s = .refused (.exclusiveNotAllowed (BitVec.ofNat 32 a))

/-- R151 (decision D15): a Store-Exclusive with no tag, or with a tag of another address or another size, is refused,
unless it is already refused for its location (R149, R167). That under a switch the location is checked by a map freely
chosen is the model's choice (log 27). -/
def Obligations.UnpairedStoreExclusiveRefused : Prop :=
  ∀ (i : Instr) (rd rt rn : Reg) (offset : Nat) (size : Size) (s : State) (a : Nat),
    storeForm i = some (rd, rt, rn, offset, size) → i.wellFormed = true →
    s.cpu.pending rd = false → s.cpu.pending rt = false → s.cpu.pending rn = false →
    a = (s.cpu.reg rn).toNat + offset → a ≤ 0xFFFFFFFF → a % size.bytes = 0 →
    (∀ g, s.cpu.tag = some g → g.addr ≠ BitVec.ofNat 32 a ∨ g.size ≠ size) →
    exec i s = .refused (.unpairedStoreExclusive s.cpu.pc) ∨
      exec i s = .refused (.exclusiveNotAllowed (BitVec.ofNat 32 a)) ∧ SomeMapForbids s a size

/-! ### Exclusive instructions: a whole step -/

/-- R142 to R144 (decisions D6, D14, D15 on what stops and on the tag, D17 on the extension; that one step completes the
access too: 92_eei_decisions.md Notes (i), log 6): with nothing outstanding, a step that fetches a Load-Exclusive
refuses an address above 0xFFFFFFFF, faults on an unaligned one, refuses a location where no memory map gives it a
meaning, and otherwise leaves the value at the address in `Rt`, extended with zeros, the tag set, the pc at the next
instruction, the program-order counter one on, no DMB on record and every other field as it was (a free choice of a
fetched byte or of a memory map counts as a draw). Where a switch is under way, the access may be checked by a map that
forbids it, and is then refused; once issued it is not (the model's choice: log 27). The extension is general knowledge
(log 19, PRESUMED), and that no DMB stays on record once nothing older is outstanding is log 29 (DEDUCED). -/
def Obligations.LoadExclusiveStep : Prop :=
  ∀ (i : Instr) (rt rn : Reg) (offset : Nat) (size : Size) (s s' : State) (a : Nat),
    loadForm i = some (rt, rn, offset, size) → i.wellFormed = true → Fetches s i s' → s.cpu.pool = [] →
    a = (s.cpu.reg rn).toNat + offset →
    if a > 0xFFFFFFFF then step s = .refused (.addressOverflow s.cpu.pc)
    else if a % size.bytes ≠ 0 then step s = .fault (.unalignedExclusive (BitVec.ofNat 32 a))
    else if ∀ map ∈ admitted s, exclusiveAllowed map a size.bytes = false then
      step s = .refused (.exclusiveNotAllowed (BitVec.ofNat 32 a))
    else
      (step s = .refused (.exclusiveNotAllowed (BitVec.ofNat 32 a)) ∧ SomeMapForbids s a size) ∨
      ∃ t, step s = .next t ∧ (∃ map ∈ admitted s, exclusiveAllowed map a size.bytes = true ∧
          IsValueAt (t.cpu.reg rt) s map a size.bytes) ∧ RegsKeptBut rt s t ∧
        s'.draws ≤ t.draws ∧ (admitted s = [s.map] → t.draws = s'.draws) ∧
        t = { s with draws := t.draws, cpu := { s.cpu with
          regs := t.cpu.regs, tag := some ⟨BitVec.ofNat 32 a, size, true⟩, pc := s.cpu.pc + 4#32,
          seq := s.cpu.seq + 1, dmbs := [] } }

/-- R145 to R147, R153 (decisions D6, D14, D15 on what stops and on the tag, D16 on the draw; that one step completes
the access too: 92_eei_decisions.md Notes (i), log 6): with nothing outstanding, a step that fetches a Store-Exclusive
is refused or faults as a Load-Exclusive is, is refused without its tag, and otherwise spends the tag and either returns
1 and writes nothing, or returns 0 and writes the low bits of `Rt` at the address and nothing else. It returns 1
whenever the tag has lost `intact`; else the answer is the free value of the draw, whatever that is. The memory map
stays unless a rule of `MapSwitch` fits the write (R88). These are the model's choices: the maps (log 27), the draw as a
function of a count (log 8, DEDUCED), which writes the others observe (log 32, DEDUCED), and that no DMB stays on record
(log 29, DEDUCED); the low bits and the status words are general knowledge (log 19, PRESUMED). -/
def Obligations.StoreExclusiveStep : Prop :=
  ∀ (i : Instr) (rd rt rn : Reg) (offset : Nat) (size : Size) (s s' : State) (a : Nat),
    storeForm i = some (rd, rt, rn, offset, size) → i.wellFormed = true → Fetches s i s' → s.cpu.pool = [] → s.mem.wf →
    a = (s.cpu.reg rn).toNat + offset →
    if a > 0xFFFFFFFF then step s = .refused (.addressOverflow s.cpu.pc)
    else if a % size.bytes ≠ 0 then step s = .fault (.unalignedExclusive (BitVec.ofNat 32 a))
    else if ∀ map ∈ admitted s, exclusiveAllowed map a size.bytes = false then
      step s = .refused (.exclusiveNotAllowed (BitVec.ofNat 32 a))
    else if ¬ ∃ intact, s.cpu.tag = some ⟨BitVec.ofNat 32 a, size, intact⟩ then
      step s = .refused (.unpairedStoreExclusive s.cpu.pc) ∨
        step s = .refused (.exclusiveNotAllowed (BitVec.ofNat 32 a)) ∧ SomeMapForbids s a size
    else
      (step s = .refused (.exclusiveNotAllowed (BitVec.ofNat 32 a)) ∧ SomeMapForbids s a size) ∨
      ∃ t n, step s = .next t ∧ t.cpu.tag = none ∧ t.cpu.pc = s.cpu.pc + 4#32 ∧ t.cpu.pool = [] ∧
        t.cpu.seq = s.cpu.seq + 1 ∧ t.cpu.dmbs = [] ∧ t.cpu.ifetchEpoch = s.cpu.ifetchEpoch ∧
        t.cpu.isbSeq = s.cpu.isbSeq ∧ t.cpu.mapEpoch = s.cpu.mapEpoch ∧
        (s.cpu.isbSeq ≤ s.cpu.seq → t.cpu.seen = s.cpu.seen) ∧
        RegsKeptBut rd s t ∧ SameIdentity s t ∧ t.masters = s.masters ∧ t.devices = s.devices ∧ t.plat = s.plat ∧
        t.agenda = [] ∧ s'.draws ≤ n ∧
        (admitted s = [s.map] → (∀ map, ¬ Switches s a size (s.cpu.reg rt) map) → n = s'.draws) ∧
        if s.cpu.tag = some ⟨BitVec.ofNat 32 a, size, false⟩ ∨ Config.storeExclusiveFails n = true then
          t.cpu.reg rd = 1#32 ∧ t.mem = s.mem ∧ t.history = s.history ∧ t.others = s.others ∧ t.map = s.map ∧
            t.mapHistory = s.mapHistory
        else
          t.cpu.reg rd = 0#32 ∧ t.others = s.others.map (Proc.observe s.cpu.id (a, size.bytes)) ∧
          (∃ map, (map ∈ admitted s ∨ Switches s a size (s.cpu.reg rt) map) ∧
            exclusiveAllowed map a size.bytes = true ∧ BytesKeptBut map a size.bytes s t ∧
            BytesWritten map a size.bytes (s.cpu.reg rt) t) ∧
          ((t.map = s.map ∧ t.mapHistory = s.mapHistory ∧ ∀ map, ¬ Switches s a size (s.cpu.reg rt) map) ∨
            (Switches s a size (s.cpu.reg rt) t.map ∧ t.mapHistory = s.map :: s.mapHistory))

/-! ### Frames -/

/-- R22, R111, R154, R168: executing any of the nine instructions writes no general register and no byte of memory (an
exclusive access does so when its transaction completes), makes no device access and draws nothing but, for an exclusive
one and with more than one memory map admitted, the map it is checked by (log 27); and it either holds, changing
nothing, or ends with `pc <- pc + 4` at most 0xFFFFFFFC. That the pc does not pass 0xFFFFFFFC, because the instruction
itself is refused at the top, is the model's choice (log 18, DEDUCED): R22 says that the next fetch is refused. -/
def Obligations.ExecFrame : Prop :=
  ∀ (i : Instr) (s t : State), exec i s = .next t →
    t.cpu.regs = s.cpu.regs ∧ SameIdentity s t ∧ (∀ a, t.mem.read a = s.mem.read a) ∧ t.others = s.others ∧
    t.masters = s.masters ∧ t.history = s.history ∧ t.map = s.map ∧ t.mapHistory = s.mapHistory ∧
    t.devices = s.devices ∧ t.plat = s.plat ∧ t.agenda = s.agenda ∧
    Drawn s s.cpu.mapEpoch t.draws ∧ (exclusiveForm i = none → t.draws = s.draws) ∧
    (t = s ∨ (t.cpu.pc.toNat = s.cpu.pc.toNat + 4 ∧ t.cpu.pc.toNat ≤ 0xFFFFFFFC ∧ t.cpu.seq = s.cpu.seq + 1))

/-- R88, R131, R133, R150, R151: of the processor's own hidden state, only the exclusives change the tag and the pool,
only a DMB the record of DMBs, only an ISB the instruction-side view, only a DSB from when on replaced memory maps are
out of use. The record of DMBs, the form of the instruction-side view and the moment from which a map is out of use are
the model's choices (logs 29, 9, 27). -/
def Obligations.HiddenStateFrame : Prop :=
  ∀ (i : Instr) (s t : State), exec i s = .next t →
    (exclusiveForm i = none → t.cpu.tag = s.cpu.tag ∧ t.cpu.pool = s.cpu.pool) ∧
    ((∀ option, i ≠ .dmb option) → t.cpu.dmbs = s.cpu.dmbs) ∧
    ((∀ option, i ≠ .isb option) →
      t.cpu.ifetchEpoch = s.cpu.ifetchEpoch ∧ t.cpu.isbSeq = s.cpu.isbSeq ∧ t.cpu.seen = s.cpu.seen) ∧
    ((∀ option, i ≠ .dsb option) → t.cpu.mapEpoch = s.cpu.mapEpoch)

/-- R91 "Complete": completing the `k`-th transaction of the processor in focus changes no register but its destination
and no byte but those it touches by a map it may use (none, if it is a read), and leaves the pc, the tag, the
parameters, the epochs and the bus masters alone. Which map it may use is the model's choice (log 27), and so is the
alias write as one record completed in two halves (log 14). -/
def Obligations.CompletionFrame : Prop :=
  ∀ (s t : State) (k : Nat) (u : Txn), s.Inv → s.cpu.pool[k]? = some u → completeAt k s = .next t →
    (∀ r, u.dest ≠ some r → t.cpu.reg r = s.cpu.reg r) ∧
    (∃ map ∈ admitted s, BytesKeptBut map (u.footprint s.plat).1 (u.footprint s.plat).2 s t) ∧
    (u.isWrite = false →
      t.mem = s.mem ∧ t.others = s.others ∧ t.history = s.history ∧ t.map = s.map ∧ t.mapHistory = s.mapHistory) ∧
    t.cpu.pc = s.cpu.pc ∧ t.cpu.tag = s.cpu.tag ∧ t.cpu.seq = s.cpu.seq ∧ t.cpu.isbSeq = s.cpu.isbSeq ∧
    t.cpu.ifetchEpoch = s.cpu.ifetchEpoch ∧ t.cpu.mapEpoch = s.cpu.mapEpoch ∧ SameIdentity s t ∧
    t.masters = s.masters ∧ t.plat = s.plat ∧ t.agenda = s.agenda

/-! ### Completing a transaction -/

/-- R59, R91, R142 to R144: when a read of plain storage outside the aliases completes, that of a Load-Exclusive among
them, its register takes the value at the address and its record leaves the pool. That a byte or a halfword is extended with
zeros in the register is D17 for a Load-Exclusive (general knowledge; log 19, PRESUMED), and for a plain narrow read the
model's choice (logs 7, 19). -/
def Obligations.ReadCompletionWritesRegister : Prop :=
  ∀ (s : State) (k : Nat) (u : Txn) (r : Reg), s.cpu.pool[k]? = some u →
    (u.op = .read (some r) ∧ (∀ map ∈ admitted s, plainStorage map u.addr.toNat u.size.bytes = true) ∨
      u.op = .loadExcl r ∧ ∀ map ∈ admitted s, exclusiveAllowed map u.addr.toNat u.size.bytes = true) →
    mayComplete s.plat s.cpu u = true → u.addr.toNat % u.size.bytes = 0 → inAlias u.addr.toNat = false →
    ∃ t, ∃ map ∈ admitted s, completeAt k s = .next t ∧
      IsValueAt (t.cpu.reg r) s map u.addr.toNat u.size.bytes ∧
      t.cpu.pool = s.cpu.pool.eraseIdx k ∧ t.mem = s.mem

/-- R57, R91 "Issue", R168: a plain access of the processor in focus passes its checks or is refused before anything
changes, and then joins its pool, youngest last, at the position of the next instruction; it waits while the register its
value goes to is pending, and between the halves of an alias write (R69), and a finished processor issues nothing (R184).
The next listed access of a bus master (R96) passes the same checks and joins the master's pool; between the halves of an
alias write of its own it waits (log 14). These are the model's choices: that the instruction of a
processor's access, which no source names, is a move of its own that leaves the pc (log 7); that an access both misaligned
and narrow in an alias region is reported as misaligned, and both before Unpopulated (log 16, DEDUCED); that for an alias
word the whole location must be populated (log 15, DEDUCED); that the checks are made at issue (log 35, DEDUCED), a bus
master's too (log 28, DEDUCED); and that a map switch under way may make an access be refused where one map has nothing for
it (log 27). -/
def Obligations.PlainAccessIssues : Prop :=
  (∀ (s : State) (access : PlainAccess) (dest : Option Reg),
    (s.cpu.finished = false → betweenHalves s.cpu.pool = false →
      (access.written = none → ∀ r, dest = some r → s.cpu.pending r = false) →
      PlainChecks s s.cpu.mapEpoch access (play (.plain access dest) s) (fun n => AfterPlain s n access dest)) ∧
    (∀ r, s.cpu.pending r = true → access.written = none → dest = some r → play (.plain access dest) s = .next s) ∧
    (s.cpu.finished = true ∨ betweenHalves s.cpu.pool = true → play (.plain access dest) s = .next s)) ∧
  ∀ (s : State) (m : Nat) (master : Master) (access : PlainAccess) (rest : List PlainAccess),
    s.masters[m]? = some master → master.todo = access :: rest →
    (betweenHalves master.pool = true → play (.masterIssue m) s = .next s) ∧
    (betweenHalves master.pool = false →
      PlainChecks s 0 access (play (.masterIssue m) s) (fun n => { s with
        draws := n, masters := s.masters.set m { master with
          todo := rest, seq := master.seq + 1,
          pool := master.pool ++ [match access.written with
            | none => ⟨master.seq, .read none, access.addr, access.size⟩
            | some v => ⟨master.seq, .write v, access.addr, access.size⟩] } }))

/-- R60, R91: when a plain write of the processor in focus to plain storage outside the aliases completes, its bytes are
in memory, no other byte has changed, and its record has left the pool. Which maps it may use is the model's choice (log
27). -/
def Obligations.PlainWriteCompletes : Prop :=
  ∀ (s : State) (k : Nat) (u : Txn) (v : Word), s.mem.wf → s.cpu.pool[k]? = some u → u.op = .write v →
    mayComplete s.plat s.cpu u = true → u.addr.toNat % u.size.bytes = 0 → inAlias u.addr.toNat = false →
    (∀ map ∈ admitted s, plainStorage map u.addr.toNat u.size.bytes = true) →
    ∃ t, ∃ map ∈ admitted s, completeAt k s = .next t ∧ t.cpu.pool = s.cpu.pool.eraseIdx k ∧
      t.cpu.regs = s.cpu.regs ∧ BytesKeptBut map u.addr.toNat u.size.bytes s t ∧
      BytesWritten map u.addr.toNat u.size.bytes v t

/-- R153: the outcome of a Store-Exclusive when its transaction completes. That it does not stop is R167, and how the
model keeps it under a map switch is log 27; with `intact` lost it returns 1 and writes nothing; with `intact` it
returns 0 exactly when the write is performed, as the draw says. The draw as a function of a count is the model's choice
(decision D16; log 8, DEDUCED), and the status words are general knowledge (log 19, PRESUMED). -/
def Obligations.StoreExclusiveOutcome : Prop :=
  ∀ (s : State) (k : Nat) (u : Txn) (v : Word) (rd : Reg) (intact : Bool), s.Inv → s.cpu.pool[k]? = some u →
    u.op = .storeExcl v rd intact → mayComplete s.plat s.cpu u = true →
    ∃ t n, completeAt k s = .next t ∧ t.cpu.pool = s.cpu.pool.eraseIdx k ∧ s.draws ≤ n ∧
      (admitted s = [s.map] → n = s.draws) ∧
      if intact = false then t.cpu.reg rd = 1#32 ∧ t.mem = s.mem ∧ t.draws = n
      else t.draws = n + 1 ∧
        if Config.storeExclusiveFails n = true then t.cpu.reg rd = 1#32 ∧ t.mem = s.mem
        else t.cpu.reg rd = 0#32 ∧ ∃ map ∈ admitted s,
          exclusiveAllowed map u.addr.toNat u.size.bytes = true ∧ BytesKeptBut map u.addr.toNat u.size.bytes s t ∧
          BytesWritten map u.addr.toNat u.size.bytes v t

/-- R91, R152 (decision D16): a completed write of another agent in `ExclObserved(p)`, the write back of an alias write
among them, takes `intact` from an overlapping tag of `p` and from an overlapping outstanding Store-Exclusive of `p`,
and changes nothing else of `p`; where it does not overlap, and where the agent is `p` itself or is not observed, it
leaves them as they were. So for every processor. That a write is observed on the bytes it writes, an alias write on the
location it writes back, is the model's choice (log 32, DEDUCED). -/
def Obligations.ObservedWriteEndsExclusive : Prop :=
  ∀ (s t : State) (map : MemoryMap) (who : Nat) (a : Word) (size : Size) (v : Word) (f : Nat × Nat),
    (memWrite map who a size v s = .next t ∧ f = footprint s.plat a.toNat size ∨
      ∃ old, aliasWriteBack map who a old v s = .next t ∧
        f = ((aliasLocation s.plat a.toNat).1, (aliasLocation s.plat a.toNat).2.bytes)) →
    t.procs.length = s.procs.length ∧
    ∀ (j : Nat) (p q : Proc), s.procs[j]? = some p → t.procs[j]? = some q →
      if who ≠ p.id ∧ who ∈ p.exclObserved then
        q = { p with tag := q.tag, pool := q.pool } ∧ q.pool.length = p.pool.length ∧
        (p.tag = none → q.tag = none) ∧
        (∀ g, p.tag = some g →
          q.tag = some (if overlaps f (g.addr.toNat, g.size.bytes) then { g with intact := false } else g)) ∧
        ∀ (k : Nat) (u : Txn), p.pool[k]? = some u →
          (∀ w rd intact, u.op = .storeExcl w rd intact → overlaps f (u.addr.toNat, u.size.bytes) = true →
            q.pool[k]? = some { u with op := .storeExcl w rd false }) ∧
          ((overlaps f (u.addr.toNat, u.size.bytes) = false ∨ ∀ w rd intact, u.op ≠ .storeExcl w rd intact) →
            q.pool[k]? = some u)
      else q = p

/-! ### Ordering -/

/-- R82(a) (decision D9): a transaction does not complete while an older one of the same processor that shares a byte
with it is outstanding. That two transactions share a byte is told by their addresses, which is the model's choice (log
27). -/
def Obligations.OverlappingCompleteInProgramOrder : Prop :=
  ∀ (s : State) (k : Nat) (old young : Txn), s.cpu.pool[k]? = some young → old ∈ s.cpu.pool → old.seq < young.seq →
    overlaps (old.footprint s.plat) (young.footprint s.plat) = true → completeAt k s = .next s

/-- R84 (decision D9): a transaction does not complete while an older one of the same processor is outstanding and both
go to the Private Peripheral Bus. -/
def Obligations.StronglyOrderedCompleteInProgramOrder : Prop :=
  ∀ (s : State) (k : Nat) (old young : Txn), s.cpu.pool[k]? = some young → old ∈ s.cpu.pool → old.seq < young.seq →
    (0xE0000000 ≤ old.addr.toNat ∧ old.addr.toNat ≤ 0xE00FFFFF) →
    (0xE0000000 ≤ young.addr.toNat ∧ young.addr.toNat ≤ 0xE00FFFFF) → completeAt k s = .next s

/-- R83, R91: two transactions that share no byte, with no DMB between them, not both Strongly-ordered and with an empty
`ORDER_TABLE`, are not ordered by the must-precede relation. That nothing else orders two transactions is the spec's
weakest reading (decision D9; log 33, DEDUCED). -/
def Obligations.OtherwiseNoOrder : Prop :=
  ∀ (plat : Platform) (dmbs : List Nat) (old young : Txn), plat.orderTable = [] →
    overlaps (old.footprint plat) (young.footprint plat) = false →
    (∀ d ∈ dmbs, ¬ (old.seq < d ∧ d < young.seq)) →
    ¬ (old.memType plat = .stronglyOrdered ∧ young.memType plat = .stronglyOrdered) →
    mustPrecede plat dmbs old young = false

/-- R132 "always enabled for at least one pool member" (the spec's own derivation): while something is outstanding, some
transaction may complete. A write back goes before everything else of its processor (R69, decision D13; how the model
keeps that: log 14). -/
def Obligations.SomeTransactionMayComplete : Prop :=
  ∀ s : State, s.Inv → s.cpu.pool ≠ [] →
    ∃ (k : Nat) (u : Txn), s.cpu.pool[k]? = some u ∧ mayComplete s.plat s.cpu u = true

/-- R168 with R167 (decision D20): every fault and refusal of an access is decided when it is issued, so that completing
a transaction, of the processor in focus or of a bus master, answers a next state. These are the model's choices: that
this holds of a plain access, whose refusals R59 and R60 put at its completion (log 35, DEDUCED), and of a bus master's,
where R168 speaks of instructions (log 28, DEDUCED); and that under a map switch a completing access uses a map that
gives it a meaning (log 27, DESIGN CHOICE). R132: and completing what may complete, the oldest first
(92_eei_decisions.md Notes (i); log 6, DESIGN CHOICE), empties the pool, so that a DSB then goes on; the pc and the tag
stay. -/
def Obligations.SettleEmptiesPool : Prop :=
  ∀ s : State, s.Inv →
    (∀ k, ∃ t, completeAt k s = .next t) ∧ (∀ m k, ∃ t, masterComplete m k s = .next t) ∧
    ∃ t, settle s = .next t ∧ t.cpu.pool = [] ∧ t.cpu.pc = s.cpu.pc ∧ t.cpu.tag = s.cpu.tag

/-! ### Memory, byte order, devices -/

/-- R53: the bytes of a word. A word write puts its least significant byte at the lowest address, and a word read puts
them together again. -/
def Obligations.LittleEndianWord : Prop :=
  ∀ (s : State) (map : MemoryMap) (who : Nat) (a v : Word), s.mem.wf → a.toNat % 4 = 0 → inAlias a.toNat = false →
    plainStorage map a.toNat 4 = true → DistinctPlaces map a.toNat 4 →
    memRead map a .word s = .next (s.mem.read (place map (a.toNat + 3)) ++ s.mem.read (place map (a.toNat + 2)) ++
      s.mem.read (place map (a.toNat + 1)) ++ s.mem.read (place map a.toNat), s) ∧
    ∃ t, memWrite map who a .word v s = .next t ∧
      t.mem.read (place map a.toNat) = v.extractLsb' 0 8 ∧
      t.mem.read (place map (a.toNat + 1)) = v.extractLsb' 8 8 ∧
      t.mem.read (place map (a.toNat + 2)) = v.extractLsb' 16 8 ∧
      t.mem.read (place map (a.toNat + 3)) = v.extractLsb' 24 8 ∧ BytesKeptBut map a.toNat 4 s t

/-- R55, R56, R77 (decisions D4, D5): on plain storage a read returns what the latest write of the same bytes wrote, and
a narrower read inside a written word returns that part of it, extended with zeros. -/
def Obligations.ReadAfterWrite : Prop :=
  ∀ (s t : State) (map : MemoryMap) (who : Nat) (a v : Word) (size : Size), s.mem.wf → inAlias a.toNat = false →
    plainStorage map a.toNat size.bytes = true → DistinctPlaces map a.toNat size.bytes →
    memWrite map who a size v s = .next t →
    memRead map a size t = .next (BitVec.ofNat 32 (v.toNat % 2 ^ (8 * size.bytes)), t) ∧
    (size = .word → ∀ j, j < 4 →
      memRead map (a + BitVec.ofNat 32 j) .byte t = .next (BitVec.ofNat 32 (v.toNat / 2 ^ (8 * j) % 2 ^ 8), t) ∧
      (j % 2 = 0 →
        memRead map (a + BitVec.ofNat 32 j) .half t = .next (BitVec.ofNat 32 (v.toNat / 2 ^ (8 * j) % 2 ^ 16), t)))

/-- R25: memory is kept in one form: two canonical memories that read the same everywhere are the same data. The form is
the model's own, and so is what an unlisted byte reads as (log 2). -/
def Obligations.CanonicalMemoryDetermined : Prop :=
  ∀ m m' : Memory, m.wf → m'.wf → (∀ a, m.read a = m'.read a) → m = m'

/-- R59, R60 (decision D26): an access the `DeviceModel` serves goes to the device, a read is answered by it, a write
reaches it, and no byte of memory changes. These are the model's choices: that the answer is a free function of every access
to devices so far and that each access goes on that record once (log 10, DESIGN CHOICE: `DeviceRead` of R59 takes only the
address and the size), and that an access of which some byte is not said to be plain storage is the device's (log 31,
DEDUCED). -/
def Obligations.DeviceAccessReachesDevice : Prop :=
  ∀ (s : State) (map : MemoryMap) (who : Nat) (a v : Word) (size : Size), a.toNat % size.bytes = 0 →
    inAlias a.toNat = false → populated map a.toNat size.bytes = true → memTypeOf (regionOf a.toNat) ≠ .normal →
    plainStorage map a.toNat size.bytes = false →
    memRead map a size s = .next (BitVec.ofNat 32 ((Config.deviceRead s.devices a size).toNat % 2 ^ (8 * size.bytes)),
      { s with devices := ⟨a, size, none⟩ :: s.devices }) ∧
    ∃ t, memWrite map who a size v s = .next t ∧
      t.devices = ⟨a, size, some (BitVec.ofNat 32 (v.toNat % 2 ^ (8 * size.bytes)))⟩ :: s.devices ∧ t.mem = s.mem

/-- R58, R73, R59, R60 (decisions D6, D11, D12): a plain access is refused at an address that is no multiple of its
size, then in an alias region when it is no word access, then where nothing is populated: at its own address, or, for an
alias word, at the location that holds its bit. That an access both misaligned and narrow in an alias region is reported
as misaligned is the model's choice (log 16, DEDUCED). So is, for a peripheral alias word, that any unpopulated byte of the
location of `BB_RMW_WIDTH` bytes refuses it and that the refusal names that location (log 15, DEDUCED): R59 and R60 ask for
the byte of the bit alone. -/
def Obligations.PlainAccessRefusals : Prop :=
  ∀ (s : State) (map : MemoryMap) (who : Nat) (a v : Word) (size : Size),
    (a.toNat % size.bytes ≠ 0 →
      memRead map a size s = .refused (.misalignedPlainAccess a) ∧
      memWrite map who a size v s = .refused (.misalignedPlainAccess a)) ∧
    (a.toNat % size.bytes = 0 → inAlias a.toNat = true → size ≠ .word →
      memRead map a size s = .refused (.nonWordAlias a) ∧
      memWrite map who a size v s = .refused (.nonWordAlias a)) ∧
    (a.toNat % size.bytes = 0 → inAlias a.toNat = false → populated map a.toNat size.bytes = false →
      memRead map a size s = .refused (.unpopulated a) ∧
      memWrite map who a size v s = .refused (.unpopulated a)) ∧
    ∀ (b k lo n : Nat), a.toNat % 4 = 0 → inAlias a.toNat = true → target a.toNat = (b, k) →
      (inSramAlias a.toNat = true → lo = b ∧ n = 1) →
      (inPeripheralAlias a.toNat = true →
        lo = b - b % s.plat.bbRmwWidth.bytes ∧ n = s.plat.bbRmwWidth.bytes) →
      populated map lo n = false →
      memRead map a .word s = .refused (.unpopulated (BitVec.ofNat 32 lo)) ∧
      memWrite map who a .word v s = .refused (.unpopulated (BitVec.ofNat 32 lo)) ∧
      ∀ old, aliasWriteBack map who a old v s = .refused (.unpopulated (BitVec.ofNat 32 lo))

/-- R41: `region(a)` is the row of the table whose range holds `a`, for each of the seven rows, with the row's memory
type and XN attribute. -/
def Obligations.RegionTable : Prop :=
  ∀ a : Nat,
    (a ≤ 0x1FFFFFFF → regionOf a = .code) ∧
    (0x20000000 ≤ a ∧ a ≤ 0x3FFFFFFF → regionOf a = .sram) ∧
    (0x40000000 ≤ a ∧ a ≤ 0x5FFFFFFF → regionOf a = .peripheral) ∧
    (0x60000000 ≤ a ∧ a ≤ 0x9FFFFFFF → regionOf a = .externalRam) ∧
    (0xA0000000 ≤ a ∧ a ≤ 0xDFFFFFFF → regionOf a = .externalDevice) ∧
    (0xE0000000 ≤ a ∧ a ≤ 0xE00FFFFF → regionOf a = .privatePeripheralBus) ∧
    (0xE0100000 ≤ a ∧ a ≤ 0xFFFFFFFF → regionOf a = .mappedPeripherals) ∧
    (memTypeOf (regionOf a) = .normal ↔ regionOf a = .code ∨ regionOf a = .sram ∨ regionOf a = .externalRam) ∧
    (memTypeOf (regionOf a) = .stronglyOrdered ↔ regionOf a = .privatePeripheralBus) ∧
    (isXN (regionOf a) = false ↔ memTypeOf (regionOf a) = .normal)

/-- R88 (93_implementation_defined.md U1, U7; the mechanism as a list of rules, and which maps an access may use, are the
model's choice: log 27): a completed write that a rule of `MapSwitch` fits switches to that rule's map and puts the old one
on record, and any other write leaves both; until its next DSB an agent's access may use the old map; after that DSB, the
map in force is the only one but for those that writes still outstanding may switch to; and the map of an outstanding
write, or of a Store-Exclusive that still has `intact`, may be in use already. A map that is never switched is the only one
admitted. -/
def Obligations.MemoryMapSwitch : Prop :=
  (∀ (s t : State) (map : MemoryMap) (who : Nat) (a v : Word) (size : Size), inAlias a.toNat = false →
    memWrite map who a size v s = .next t →
    ((∀ r ∈ s.plat.mapSwitch, ¬ Fits r a.toNat size v) → t.map = s.map ∧ t.mapHistory = s.mapHistory) ∧
    ∀ before r after, s.plat.mapSwitch = before ++ r :: after → (∀ r' ∈ before, ¬ Fits r' a.toNat size v) →
      Fits r a.toNat size v → t.map = r.map ∧ t.mapHistory = s.map :: s.mapHistory ∧
        ∀ epoch, epoch ≤ s.mapHistory.length → s.map ∈ t.mapsAdmitted epoch) ∧
  (∀ s t : State, s.cpu.pool = [] → exec (.dsb 0b1111#4) s = .next t → ∀ map ∈ admitted t, map = t.map ∨
    ∃ r ∈ t.plat.mapSwitch, r.map = map ∧ ∃ u ∈ t.outstanding, u.maySwitch t.plat r = true) ∧
  (∀ (s : State) (u : Txn) (v : Word) (before after : List MapRule) (r : MapRule) (epoch : Nat), u ∈ s.outstanding →
    (u.op = .write v ∧ inAlias u.addr.toNat = false ∨ ∃ rd, u.op = .storeExcl v rd true) →
    s.plat.mapSwitch = before ++ r :: after → (∀ r' ∈ before, ¬ Fits r' u.addr.toNat u.size v) →
    Fits r u.addr.toNat u.size v → r.map ∈ s.mapsAdmitted epoch) ∧
  ∀ (s : State) (epoch : Nat), s.fixedMap → s.mapsAdmitted epoch = [s.map]

/-! ### Bit-banding -/

/-- R64: the alias word of bit `k` of byte `j` of either bit-band region; and, by the spec's own derivation, it stays
inside the alias region. -/
def Obligations.AliasWordFormula : Prop :=
  ∀ j k : Nat, j ≤ 0xFFFFF → k ≤ 7 →
    aliasWordOf (0x20000000 + j) k = 0x22000000 + (j * 32 + k * 4) ∧
    0x22000000 ≤ aliasWordOf (0x20000000 + j) k ∧ aliasWordOf (0x20000000 + j) k + 3 ≤ 0x23FFFFFF ∧
    aliasWordOf (0x40000000 + j) k = 0x42000000 + (j * 32 + k * 4) ∧
    0x42000000 ≤ aliasWordOf (0x40000000 + j) k ∧ aliasWordOf (0x40000000 + j) k + 3 ≤ 0x43FFFFFF

/-- R65 (the spec's own derivation): every alias word stands for exactly one bit of its bit-band region and every bit
has exactly one alias word. -/
def Obligations.AliasTargetInverse : Prop :=
  (∀ b k : Nat, (inSramBitBand b = true ∨ inPeripheralBitBand b = true) → k < 8 → target (aliasWordOf b k) = (b, k)) ∧
  (∀ a : Nat, inAlias a = true → a % 4 = 0 →
    (inSramBitBand (target a).1 = true ∨ inPeripheralBitBand (target a).1 = true) ∧ (target a).2 < 8 ∧
    aliasWordOf (target a).1 (target a).2 = a)

/-- R67: reading an alias word returns 1 where the targeted bit is set and 0 where it is not, and no other value: of
plain storage it is the bit of the byte in memory, and nothing changes; of a location a device serves it is the bit of
the device's answer to one read of the location of `BB_RMW_WIDTH` bytes that holds it. The form of that answer, a free
function of a record of accesses, is the model's choice (log 10, DESIGN CHOICE; which locations are a device's: log 31). -/
def Obligations.AliasReadReturnsBit : Prop :=
  (∀ (s : State) (map : MemoryMap) (a : Word), inAlias a.toNat = true → a.toNat % 4 = 0 →
    plainStorage map (aliasLocation s.plat a.toNat).1 (aliasLocation s.plat a.toNat).2.bytes = true →
    memRead map a .word s =
      .next (if (s.mem.read (place map (target a.toNat).1)).getLsbD (target a.toNat).2 then 1#32 else 0#32, s)) ∧
  ∀ (s : State) (map : MemoryMap) (a : Word) (b k lo : Nat), inPeripheralAlias a.toNat = true → a.toNat % 4 = 0 →
    target a.toNat = (b, k) → lo = b - b % s.plat.bbRmwWidth.bytes →
    populated map lo s.plat.bbRmwWidth.bytes = true → plainStorage map lo s.plat.bbRmwWidth.bytes = false →
    memRead map a .word s =
      .next (if (s.plat.bbRmwWidth.keep
            (Config.deviceRead s.devices (BitVec.ofNat 32 lo) s.plat.bbRmwWidth)).getLsbD (8 * (b - lo) + k)
          then 1#32 else 0#32,
        { s with devices := ⟨BitVec.ofNat 32 lo, s.plat.bbRmwWidth, none⟩ :: s.devices })

/-- R66, R68: writing an alias word of plain storage writes bit 0 of the value to the targeted bit, whatever its bits 31
to 1 are; the other seven bits of that byte and every other byte, those at the alias address among them, stay. The two
halves with nothing between them; how the machine plays them is `AliasWriteInTwoHalves`. -/
def Obligations.AliasWriteSetsOneBit : Prop :=
  ∀ (s : State) (map : MemoryMap) (who : Nat) (a v : Word), s.mem.wf → inAlias a.toNat = true → a.toNat % 4 = 0 →
    plainStorage map (aliasLocation s.plat a.toNat).1 (aliasLocation s.plat a.toNat).2.bytes = true →
    DistinctPlaces map (aliasLocation s.plat a.toNat).1 (aliasLocation s.plat a.toNat).2.bytes →
    ∃ t, memWrite map who a .word v s = .next t ∧
      (∀ j, j < 8 → (t.mem.read (place map (target a.toNat).1)).getLsbD j =
        if j = (target a.toNat).2 then v.getLsbD 0 else (s.mem.read (place map (target a.toNat).1)).getLsbD j) ∧
      ∀ c, c ≠ place map (target a.toNat).1 → t.mem.read c = s.mem.read c

/-- R69, R77 (decision D13): writing an alias word of a peripheral reads the device once and writes it once, both at the
location of `BB_RMW_WIDTH` bytes that holds the bit, with only that bit changed; memory stays. The two halves with nothing
between them; how the machine plays them is `AliasWriteInTwoHalves`. The record of accesses, on which the device's answer
depends, is the model's choice (log 10, DESIGN CHOICE; which locations are a device's: log 31). -/
def Obligations.PeripheralAliasWriteReadsThenWrites : Prop :=
  ∀ (s : State) (map : MemoryMap) (who : Nat) (a v : Word) (b k lo : Nat) (old : Word),
    inPeripheralAlias a.toNat = true → a.toNat % 4 = 0 → target a.toNat = (b, k) →
    lo = b - b % s.plat.bbRmwWidth.bytes → populated map lo s.plat.bbRmwWidth.bytes = true →
    plainStorage map lo s.plat.bbRmwWidth.bytes = false →
    old = s.plat.bbRmwWidth.keep (Config.deviceRead s.devices (BitVec.ofNat 32 lo) s.plat.bbRmwWidth) →
    ∃ t new, memWrite map who a .word v s = .next t ∧ t.mem = s.mem ∧
      t.devices = ⟨BitVec.ofNat 32 lo, s.plat.bbRmwWidth, some new⟩ ::
        ⟨BitVec.ofNat 32 lo, s.plat.bbRmwWidth, none⟩ :: s.devices ∧
      ∀ j, j < 32 → new.getLsbD j = if j = 8 * (b - lo) + k then v.getLsbD 0 else old.getLsbD j

/-- R69, R77 (decision D13): an alias write of a processor, in either region, completes in two halves. The first reads
the location, in plain storage or at a device, and changes no byte; then no other transaction of that processor
completes, and it issues no instruction and no plain access, until the write back has completed (that it waits is how
the model keeps R69: log 14); and the write back writes what was read with the one bit changed, to memory or to the
device, so that a write of another agent in between is lost. The record of a device's accesses, on which its answer
depends, is the model's choice (log 10, DESIGN CHOICE), and so is the map each half uses (log 27). -/
def Obligations.AliasWriteInTwoHalves : Prop :=
  (∀ (s : State) (k : Nat) (u : Txn) (v : Word) (lo : Nat) (width : Size), s.cpu.pool[k]? = some u → u.op = .write v →
    u.size = .word → mayComplete s.plat s.cpu u = true → inAlias u.addr.toNat = true → u.addr.toNat % 4 = 0 →
    aliasLocation s.plat u.addr.toNat = (lo, width) →
    ((∀ map ∈ admitted s, plainStorage map lo width.bytes = true) →
      ∃ old n, (∃ map ∈ admitted s, IsValueAt old s map lo width.bytes) ∧
        completeAt k s = .next { s with draws := n, cpu := { s.cpu with
          pool := s.cpu.pool.set k { u with op := .writeBack old v } } }) ∧
    ((∀ map ∈ admitted s, servedByDevice map lo width.bytes = true ∧ populated map lo width.bytes = true) →
      ∃ old n, old = width.keep (Config.deviceRead s.devices (BitVec.ofNat 32 lo) width) ∧
        completeAt k s = .next { s with
          draws := n, devices := ⟨BitVec.ofNat 32 lo, width, none⟩ :: s.devices, cpu := { s.cpu with
            pool := s.cpu.pool.set k { u with op := .writeBack old v } } })) ∧
  (∀ (s : State) (k : Nat) (u w : Txn), s.cpu.pool[k]? = some u → u.isWriteBack = false → w ∈ s.cpu.pool →
    w.isWriteBack = true → completeAt k s = .next s) ∧
  (∀ (s : State) (w : Txn), w ∈ s.cpu.pool → w.isWriteBack = true →
    play .issue s = .next s ∧ ∀ access dest, play (.plain access dest) s = .next s) ∧
  ∀ (s : State) (k : Nat) (u : Txn) (old v : Word) (lo : Nat) (width : Size), s.mem.wf → s.cpu.pool[k]? = some u →
    u.op = .writeBack old v → mayComplete s.plat s.cpu u = true → aliasLocation s.plat u.addr.toNat = (lo, width) →
    ((∀ map ∈ admitted s, plainStorage map lo width.bytes = true ∧ DistinctPlaces map lo width.bytes) →
      ∃ t, ∃ map ∈ admitted s, completeAt k s = .next t ∧ t.cpu.pool = s.cpu.pool.eraseIdx k ∧
        BytesKeptBut map lo width.bytes s t ∧ t.devices = s.devices ∧
        ∀ j, j < 8 * width.bytes → (t.mem.read (place map (lo + j / 8))).getLsbD (j % 8) =
          if j = 8 * ((target u.addr.toNat).1 - lo) + (target u.addr.toNat).2 then v.getLsbD 0 else old.getLsbD j) ∧
    ((∀ map ∈ admitted s, servedByDevice map lo width.bytes = true ∧ populated map lo width.bytes = true) →
      ∃ t new, completeAt k s = .next t ∧ t.cpu.pool = s.cpu.pool.eraseIdx k ∧ t.mem = s.mem ∧
        t.devices = ⟨BitVec.ofNat 32 lo, width, some new⟩ :: s.devices ∧
        ∀ j, j < 8 * width.bytes → new.getLsbD j =
          if j = 8 * ((target u.addr.toNat).1 - lo) + (target u.addr.toNat).2 then v.getLsbD 0 else old.getLsbD j)

/-! ### Instruction fetch -/

/-- R61, R49, R58, R167: a fetch at an odd address is refused, then one in an XN region faults, then one where a byte is
unpopulated is refused, each with the address. R167 puts the XN check of the second halfword before the refusal of an
unpopulated first one; as only the first tells whether a second follows, that one is taken to follow where the first is
unpopulated, so that an XN region there is what is reported, is the model's choice (log 17, DEDUCED). Which maps a fetch
may use is the model's choice too (log 27). -/
def Obligations.FetchChecks : Prop :=
  (∀ (s : State) (a : Word),
    if a.toNat % 2 ≠ 0 then fetchHalf a s = .refused (.oddFetchAddress a)
    else if isXN (regionOf a.toNat) = true then fetchHalf a s = .fault (.xnFetch a)
    else
      ((∀ map ∈ admitted s, populated map a.toNat 2 = false) → fetchHalf a s = .refused (.unpopulated a)) ∧
      ((∀ map ∈ admitted s, populated map a.toNat 2 = true) → ∃ r, fetchHalf a s = .next r) ∧
      (fetchHalf a s = .refused (.unpopulated a) ∨ ∃ r, fetchHalf a s = .next r)) ∧
  ∀ s : State,
    (∀ f, fetchHalf s.cpu.pc s = .fault f → fetchInstr s = .fault f) ∧
    (s.cpu.pc.toNat % 2 ≠ 0 → fetchInstr s = .refused (.oddFetchAddress s.cpu.pc)) ∧
    (fetchHalf s.cpu.pc s = .refused (.unpopulated s.cpu.pc) →
      fetchInstr s = if isXN (regionOf (s.cpu.pc + 2#32).toNat) = true then .fault (.xnFetch (s.cpu.pc + 2#32))
        else .refused (.unpopulated s.cpu.pc)) ∧
    ∀ (hw1 : Half) (s₁ : State), fetchHalf s.cpu.pc s = .next (some (hw1, s₁)) → opensTwoHalfwords hw1 = true →
      isXN (regionOf (s.cpu.pc + 2#32).toNat) = true → fetchInstr s = .fault (.xnFetch (s.cpu.pc + 2#32))

/-- R93: each byte a fetch returns is, at the place that a memory map it may use gives the address, the byte in memory,
or one that stood there and was overwritten since the processor's latest ISB, or since a write of its own from before
that ISB completed there; where none was, the fetch returns memory's own halfword and draws nothing. The epoch as a
count, and that an own write completed after the ISB moves it for its cells, are the model's choices (log 9, DESIGN
CHOICE and DEDUCED; decision D21, log 22), and so are the maps a fetch may use (log 27). -/
def Obligations.FetchReturnsAdmittedBytes : Prop :=
  ∀ (s t : State) (a : Word) (h : Half), fetchHalf a s = .next (some (h, t)) →
    t = { s with draws := t.draws } ∧
    (∃ map ∈ admitted s, ∀ k, k < 2 → h.extractLsb' (8 * k) 8 = s.mem.read (place map (a.toNat + k)) ∨
      ∃ j, j < s.history.length - s.cpu.epochOf (place map (a.toNat + k)) ∧
        s.history[j]? = some (place map (a.toNat + k), h.extractLsb' (8 * k) 8)) ∧
    (admitted s = [s.map] → staleBytes s (place s.map a.toNat) = [] → staleBytes s (place s.map (a.toNat + 1)) = [] →
      h = s.mem.read (place s.map (a.toNat + 1)) ++ s.mem.read (place s.map a.toNat) ∧ t = s)

/-- R71, and R61 with decision D11: an instruction fetch from the SRAM alias region is not remapped: it returns the bytes at
the alias address itself, whatever the bit-band region holds, and is refused where the platform has nothing at that
address. -/
def Obligations.SramAliasFetchNotRemapped : Prop :=
  ∀ (s : State) (a : Word), inSramAlias a.toNat = true → a.toNat % 2 = 0 →
    ((∀ map ∈ admitted s, populated map a.toNat 2 = true ∧ staleBytes s (place map a.toNat) = [] ∧
        staleBytes s (place map (a.toNat + 1)) = []) → fetchWaits s a.toNat = false →
      ∃ map ∈ admitted s, ∃ n, fetchHalf a s = .next (some (s.mem.read (place map (a.toNat + 1)) ++
        s.mem.read (place map a.toNat), { s with draws := n }))) ∧
    ((∀ map ∈ admitted s, populated map a.toNat 2 = false) → fetchHalf a s = .refused (.unpopulated a))

/-- R87, R93 (decision D21, log 22): a processor whose next halfword, or the second halfword of its next instruction,
overlaps an outstanding own write older than its latest ISB does not fetch it: it holds, changing nothing. -/
def Obligations.FetchWaitsForOwnCodeWrite : Prop :=
  ∀ (s : State) (u : Txn), u ∈ s.cpu.pool → u.isWrite = true → u.seq < s.cpu.isbSeq → s.cpu.pc.toNat % 2 = 0 →
    (overlaps (u.footprint s.plat) (s.cpu.pc.toNat, 2) = true → isXN (regionOf s.cpu.pc.toNat) = false →
      (∀ map ∈ admitted s, populated map s.cpu.pc.toNat 2 = true) → issue s = .next s) ∧
    ∀ (hw1 : Half) (s₁ : State), fetchHalf s.cpu.pc s = .next (some (hw1, s₁)) → opensTwoHalfwords hw1 = true →
      overlaps (u.footprint s.plat) ((s.cpu.pc + 2#32).toNat, 2) = true →
      isXN (regionOf (s.cpu.pc + 2#32).toNat) = false →
      (∀ map ∈ admitted s, populated map (s.cpu.pc + 2#32).toNat 2 = true) → issue s = .next s

/-- R87, R93, R133 "every earlier write of p itself" (decision D21; the record of the cells is the model's: log 9): once an
own write from before the latest ISB has completed, though after that ISB, a fetch of the bytes it wrote sees nothing
older, so that it returns the new byte; and no move of the processor moves back what a fetch of it sees. -/
def Obligations.OwnCodeWriteSeenAfterIsb : Prop :=
  (∀ (s t : State) (k : Nat) (u : Txn), s.cpu.pool[k]? = some u → u.seq < s.cpu.isbSeq → completeAt k s = .next t →
    (∀ c ∈ writtenSince s t, staleBytes t c.1 = []) ∧
    ∀ v, s.mem.wf → u.op = .write v → mayComplete s.plat s.cpu u = true → inAlias u.addr.toNat = false →
      (∀ map ∈ admitted s, plainStorage map u.addr.toNat u.size.bytes = true) →
      ∃ map ∈ admitted s, BytesWritten map u.addr.toNat u.size.bytes v t ∧
        ∀ j, j < u.size.bytes → staleBytes t (place map (u.addr.toNat + j)) = []) ∧
  ∀ (m : Move) (s t : State) (cell : Nat), s.Inv → play m s = .next t → (∀ k, m ≠ .focus k) →
    s.cpu.epochOf cell ≤ t.cpu.epochOf cell

/-- R93 "Nothing but an ISB moves `ifetch_epoch`": no other instruction and no move but another processor's coming into
focus changes the epoch of the processor in focus. -/
def Obligations.OnlyIsbMovesFetchEpoch : Prop :=
  (∀ (i : Instr) (s t : State), exec i s = .next t → (∀ option, i ≠ .isb option) →
    t.cpu.ifetchEpoch = s.cpu.ifetchEpoch) ∧
  (∀ (m : Move) (s t : State), play m s = .next t → m ≠ .issue → (∀ k, m ≠ .focus k) →
    t.cpu.ifetchEpoch = s.cpu.ifetchEpoch)

/-! ### The whole machine -/

/-- R91, R111: when the four bytes at the pc are those of an instruction and can be fetched, a step executes exactly it,
unless the processor is between the halves of an alias write (R69; that it waits then is log 14); with nothing on the
agenda its transactions then complete, the simulator's run (92_eei_decisions.md Notes (i)), which is the model's choice
(log 6). -/
def Obligations.StepRunsDecodedInstruction : Prop :=
  ∀ (s : State) (i : Instr), s.cpu.finished = false → betweenHalves s.cpu.pool = false → s.cpu.pc.toNat % 2 = 0 →
    (∀ k, k = 0 ∨ k = 2 → isXN (regionOf (s.cpu.pc.toNat + k)) = false ∧ fetchWaits s (s.cpu.pc.toNat + k) = false ∧
      ∀ map ∈ admitted s, populated map (s.cpu.pc.toNat + k) 2 = true) →
    (∀ map ∈ admitted s, (∀ k, k < 4 → staleBytes s (place map (s.cpu.pc.toNat + k)) = []) ∧
      [s.mem.read (place map s.cpu.pc.toNat), s.mem.read (place map (s.cpu.pc.toNat + 1)),
        s.mem.read (place map (s.cpu.pc.toNat + 2)), s.mem.read (place map (s.cpu.pc.toNat + 3))] = encode i) →
    ∃ n, (admitted s = [s.map] → n = s.draws) ∧
      (s.agenda = [] → step s = andThen (exec i { s with draws := n }) settle) ∧
      ∀ rest, step { s with agenda := .issue :: rest } = exec i { s with agenda := rest, draws := n }

/-- R22, R166 (decision D2): an instruction that would advance the pc past 0xFFFFFFFC is refused: a barrier that does
not hold, and an exclusive instruction that passes its other checks. That it is this instruction that is refused, when it
would retire and after its own checks, is the model's choice (log 18, DEDUCED): R22 says that the next fetch is. -/
def Obligations.PcOverflowRefused : Prop :=
  ∀ s : State, s.cpu.pc.toNat + 4 > 0xFFFFFFFC →
    (s.cpu.pool = [] → exec (.dsb 0b1111#4) s = .refused (.pcOverflow s.cpu.pc)) ∧
    exec (.dmb 0b1111#4) s = .refused (.pcOverflow s.cpu.pc) ∧
    exec (.isb 0b1111#4) s = .refused (.pcOverflow s.cpu.pc) ∧
    (∀ (i : Instr) (rt rn : Reg) (offset : Nat) (size : Size) (a : Nat),
      loadForm i = some (rt, rn, offset, size) → i.wellFormed = true → s.cpu.pending rt = false →
      s.cpu.pending rn = false → a = (s.cpu.reg rn).toNat + offset → a ≤ 0xFFFFFFFF → a % size.bytes = 0 →
      exec i s = .refused (.pcOverflow s.cpu.pc) ∨
        exec i s = .refused (.exclusiveNotAllowed (BitVec.ofNat 32 a)) ∧ SomeMapForbids s a size) ∧
    ∀ (i : Instr) (rd rt rn : Reg) (offset : Nat) (size : Size) (intact : Bool) (a : Nat),
      storeForm i = some (rd, rt, rn, offset, size) → i.wellFormed = true → s.cpu.pending rd = false →
      s.cpu.pending rt = false → s.cpu.pending rn = false → a = (s.cpu.reg rn).toNat + offset → a ≤ 0xFFFFFFFF →
      a % size.bytes = 0 → s.cpu.tag = some ⟨BitVec.ofNat 32 a, size, intact⟩ →
      exec i s = .refused (.pcOverflow s.cpu.pc) ∨
        exec i s = .refused (.exclusiveNotAllowed (BitVec.ofNat 32 a)) ∧ SomeMapForbids s a size

/-- R184 (decision D28): a processor that has finished fetches nothing more: a move that would issue its next instruction
changes nothing. That a step with nothing on the agenda then completes all it has outstanding is the simulator's run
(92_eei_decisions.md Notes (i)), the model's choice (log 6, DESIGN CHOICE). -/
def Obligations.FinishedProcessorFetchesNothing : Prop :=
  ∀ s : State, s.cpu.finish = some s.cpu.pc →
    play .issue s = .next s ∧
    (∀ rest, step { s with agenda := .issue :: rest } = .next { s with agenda := rest }) ∧
    (s.agenda = [] → step s = settle s)

/-- R96, R174: each processor has its own registers, pc, order of instructions and views of code and map: a step whose move
is no change of focus leaves those of the others alone, and how many transactions they have outstanding; a change of focus
changes no processor, only which is in focus (log 6). -/
def Obligations.OtherProcessorsKeepTheirState : Prop :=
  (∀ s t : State, step s = .next t → (∀ k rest, s.agenda ≠ .focus k :: rest) → t.others.length = s.others.length ∧
    ∀ (k : Nat) (p q : Proc), s.others[k]? = some p → t.others[k]? = some q →
      q.regs = p.regs ∧ q.pc = p.pc ∧ q.seq = p.seq ∧ q.pool.length = p.pool.length ∧ q.dmbs = p.dmbs ∧
      q.ifetchEpoch = p.ifetchEpoch ∧ q.isbSeq = p.isbSeq ∧ q.seen = p.seen ∧ q.mapEpoch = p.mapEpoch ∧ q.id = p.id ∧
      q.exclObserved = p.exclObserved ∧ q.finish = p.finish) ∧
  ∀ (s : State) (k : Nat) (p : Proc) (rest : List Move), s.agenda = .focus k :: rest → s.others[k]? = some p →
    step s = .next { s with agenda := rest, cpu := p, others := s.others.set k s.cpu }

/-- R57, R91, R96: a bus master's plain write to plain storage completes whatever else it has outstanding, for its
must-precede relation is empty; it writes the bytes and leaves every register and pc of every processor alone. The one
exception is the model's choice (log 14, DESIGN CHOICE): a write does not complete while the master is between the
halves of an alias write of its own. Which maps a bus master may use is the model's choice too (log 27). -/
def Obligations.MasterWriteCompletes : Prop :=
  ∀ (s : State) (m k : Nat) (master : Master) (u : Txn) (v : Word), s.mem.wf → s.masters[m]? = some master →
    master.pool[k]? = some u → u.op = .write v → (∀ w ∈ master.pool, w.isWriteBack = false) →
    u.addr.toNat % u.size.bytes = 0 → inAlias u.addr.toNat = false →
    (∀ map ∈ s.mapsAdmitted 0, plainStorage map u.addr.toNat u.size.bytes = true) →
    ∃ t, ∃ map ∈ s.mapsAdmitted 0, masterComplete m k s = .next t ∧
      t.masters = s.masters.set m { master with pool := master.pool.eraseIdx k } ∧
      t.procs.length = s.procs.length ∧
      (∀ (j : Nat) (p q : Proc), s.procs[j]? = some p → t.procs[j]? = some q → q.regs = p.regs ∧ q.pc = p.pc) ∧
      BytesKeptBut map u.addr.toNat u.size.bytes s t ∧ BytesWritten map u.addr.toNat u.size.bytes v t

/-- The machine's invariant holds after reset, which is the model's choice (logs 1 to 4): memory and the maps canonical and
in range, every processor's pc even, its pool in program order, its epochs moments that have been, and every outstanding
access one that passed its checks. -/
def Obligations.ResetMeetsInvariant : Prop := State.reset.Inv

/-- From every state that meets the invariant, every step that answers a next state answers one that meets it. What the
invariant asks beyond the spec's rules is the model's own: the canonical form of memory (log 2), the record of DMBs (log
29), the epochs (log 9), and that every outstanding access passed its checks (logs 27, 28, 35). -/
def Obligations.StepKeepsInvariant : Prop := ∀ s t : State, s.Inv → step s = .next t → t.Inv

/-- What reset leaves. R31 gives no value: the premises `NothingInFlight` and `FetchSeesLaunchMemory` and the tag `None`
are the spec's, and so is that no memory map switching mechanism is the default (R30); the zeros, the one processor and
the memory map are the model's choice (logs 1 to 4). -/
def Obligations.ResetState : Prop :=
  State.reset.nothingInFlight = true ∧ State.reset.fetchSeesMemory = true ∧ State.reset.cpu.tag = none ∧
  State.reset.fixedMap ∧ (∀ r, State.reset.cpu.reg r = 0#32) ∧ State.reset.cpu.pc = 0#32 ∧
  (∀ a, State.reset.mem.read a = 0#8) ∧ State.reset.others = [] ∧ State.reset.masters = [] ∧
  ∀ a, a < 2 ^ 32 → (bankAt State.reset.map a = some .storage ↔ memTypeOf (regionOf a) = .normal) ∧
    place State.reset.map a = a
end

