-- ==== Sys2Proof/Laws/State.lean ====
section
/-! SUPPORT. One lemma per field per update, so that no later proof unfolds a record update. -/

namespace Sys2Proof.Machine

section processor

variable (p : Proc) (r q : Reg) (v : Word) (a : Word) (size : Size) (rd rt : Reg) (intact : Bool)
variable (who : Nat) (written : Nat × Nat)

@[simp] theorem Proc.setReg_id : (p.setReg r v).id = p.id := rfl
@[simp] theorem Proc.setReg_exclObserved : (p.setReg r v).exclObserved = p.exclObserved := rfl
@[simp] theorem Proc.setReg_finish : (p.setReg r v).finish = p.finish := rfl
@[simp] theorem Proc.setReg_pc : (p.setReg r v).pc = p.pc := rfl
@[simp] theorem Proc.setReg_tag : (p.setReg r v).tag = p.tag := rfl
@[simp] theorem Proc.setReg_seq : (p.setReg r v).seq = p.seq := rfl
@[simp] theorem Proc.setReg_pool : (p.setReg r v).pool = p.pool := rfl
@[simp] theorem Proc.setReg_dmbs : (p.setReg r v).dmbs = p.dmbs := rfl
@[simp] theorem Proc.setReg_ifetchEpoch : (p.setReg r v).ifetchEpoch = p.ifetchEpoch := rfl
@[simp] theorem Proc.setReg_isbSeq : (p.setReg r v).isbSeq = p.isbSeq := rfl
@[simp] theorem Proc.setReg_seen : (p.setReg r v).seen = p.seen := rfl
@[simp] theorem Proc.setReg_mapEpoch : (p.setReg r v).mapEpoch = p.mapEpoch := rfl

@[simp] theorem Proc.setReg_reg_self : (p.setReg r v).reg r = v := by
  simp [Proc.setReg, Proc.reg]

/-- A register write leaves every other register alone (R21: none is hardwired, none is banked here). -/
theorem Proc.setReg_reg_of_ne (h : q ≠ r) : (p.setReg r v).reg q = p.reg q := by
  have h' : r.val ≠ q.val := fun e => h (Fin.ext e.symm)
  simp [Proc.setReg, Proc.reg, h']

@[simp] theorem Proc.issueLoad_id : (p.issueLoad rt a size).id = p.id := rfl
@[simp] theorem Proc.issueLoad_exclObserved : (p.issueLoad rt a size).exclObserved = p.exclObserved := rfl
@[simp] theorem Proc.issueLoad_finish : (p.issueLoad rt a size).finish = p.finish := rfl
@[simp] theorem Proc.issueLoad_regs : (p.issueLoad rt a size).regs = p.regs := rfl
@[simp] theorem Proc.issueLoad_pc : (p.issueLoad rt a size).pc = p.pc := rfl
@[simp] theorem Proc.issueLoad_tag : (p.issueLoad rt a size).tag = some ⟨a, size, true⟩ := rfl
@[simp] theorem Proc.issueLoad_seq : (p.issueLoad rt a size).seq = p.seq := rfl
@[simp] theorem Proc.issueLoad_pool : (p.issueLoad rt a size).pool = p.pool ++ [⟨p.seq, .loadExcl rt, a, size⟩] := rfl
@[simp] theorem Proc.issueLoad_dmbs : (p.issueLoad rt a size).dmbs = p.dmbs := rfl
@[simp] theorem Proc.issueLoad_ifetchEpoch : (p.issueLoad rt a size).ifetchEpoch = p.ifetchEpoch := rfl
@[simp] theorem Proc.issueLoad_isbSeq : (p.issueLoad rt a size).isbSeq = p.isbSeq := rfl
@[simp] theorem Proc.issueLoad_seen : (p.issueLoad rt a size).seen = p.seen := rfl
@[simp] theorem Proc.issueLoad_mapEpoch : (p.issueLoad rt a size).mapEpoch = p.mapEpoch := rfl

@[simp] theorem Proc.issueStore_id : (p.issueStore rd rt a size intact).id = p.id := rfl
@[simp] theorem Proc.issueStore_exclObserved : (p.issueStore rd rt a size intact).exclObserved = p.exclObserved := rfl
@[simp] theorem Proc.issueStore_finish : (p.issueStore rd rt a size intact).finish = p.finish := rfl
@[simp] theorem Proc.issueStore_regs : (p.issueStore rd rt a size intact).regs = p.regs := rfl
@[simp] theorem Proc.issueStore_pc : (p.issueStore rd rt a size intact).pc = p.pc := rfl
@[simp] theorem Proc.issueStore_tag : (p.issueStore rd rt a size intact).tag = none := rfl
@[simp] theorem Proc.issueStore_seq : (p.issueStore rd rt a size intact).seq = p.seq := rfl
@[simp] theorem Proc.issueStore_pool : (p.issueStore rd rt a size intact).pool = p.pool ++ [⟨p.seq, .storeExcl (size.keep (p.reg rt)) rd intact, a, size⟩] := rfl
@[simp] theorem Proc.issueStore_dmbs : (p.issueStore rd rt a size intact).dmbs = p.dmbs := rfl
@[simp] theorem Proc.issueStore_ifetchEpoch : (p.issueStore rd rt a size intact).ifetchEpoch = p.ifetchEpoch := rfl
@[simp] theorem Proc.issueStore_isbSeq : (p.issueStore rd rt a size intact).isbSeq = p.isbSeq := rfl
@[simp] theorem Proc.issueStore_seen : (p.issueStore rd rt a size intact).seen = p.seen := rfl
@[simp] theorem Proc.issueStore_mapEpoch : (p.issueStore rd rt a size intact).mapEpoch = p.mapEpoch := rfl

@[simp] theorem Proc.recordDmb_id : (p.recordDmb).id = p.id := by unfold Proc.recordDmb; split <;> rfl
@[simp] theorem Proc.recordDmb_exclObserved : (p.recordDmb).exclObserved = p.exclObserved := by unfold Proc.recordDmb; split <;> rfl
@[simp] theorem Proc.recordDmb_finish : (p.recordDmb).finish = p.finish := by unfold Proc.recordDmb; split <;> rfl
@[simp] theorem Proc.recordDmb_regs : (p.recordDmb).regs = p.regs := by unfold Proc.recordDmb; split <;> rfl
@[simp] theorem Proc.recordDmb_pc : (p.recordDmb).pc = p.pc := by unfold Proc.recordDmb; split <;> rfl
@[simp] theorem Proc.recordDmb_tag : (p.recordDmb).tag = p.tag := by unfold Proc.recordDmb; split <;> rfl
@[simp] theorem Proc.recordDmb_seq : (p.recordDmb).seq = p.seq := by unfold Proc.recordDmb; split <;> rfl
@[simp] theorem Proc.recordDmb_pool : (p.recordDmb).pool = p.pool := by unfold Proc.recordDmb; split <;> rfl
@[simp] theorem Proc.recordDmb_ifetchEpoch : (p.recordDmb).ifetchEpoch = p.ifetchEpoch := by unfold Proc.recordDmb; split <;> rfl
@[simp] theorem Proc.recordDmb_isbSeq : (p.recordDmb).isbSeq = p.isbSeq := by unfold Proc.recordDmb; split <;> rfl
@[simp] theorem Proc.recordDmb_seen : (p.recordDmb).seen = p.seen := by unfold Proc.recordDmb; split <;> rfl
@[simp] theorem Proc.recordDmb_mapEpoch : (p.recordDmb).mapEpoch = p.mapEpoch := by unfold Proc.recordDmb; split <;> rfl

@[simp] theorem Proc.observe_id : (p.observe who written).id = p.id := by unfold Proc.observe; split <;> rfl
@[simp] theorem Proc.observe_exclObserved : (p.observe who written).exclObserved = p.exclObserved := by unfold Proc.observe; split <;> rfl
@[simp] theorem Proc.observe_finish : (p.observe who written).finish = p.finish := by unfold Proc.observe; split <;> rfl
@[simp] theorem Proc.observe_regs : (p.observe who written).regs = p.regs := by unfold Proc.observe; split <;> rfl
@[simp] theorem Proc.observe_pc : (p.observe who written).pc = p.pc := by unfold Proc.observe; split <;> rfl
@[simp] theorem Proc.observe_seq : (p.observe who written).seq = p.seq := by unfold Proc.observe; split <;> rfl
@[simp] theorem Proc.observe_dmbs : (p.observe who written).dmbs = p.dmbs := by unfold Proc.observe; split <;> rfl
@[simp] theorem Proc.observe_ifetchEpoch : (p.observe who written).ifetchEpoch = p.ifetchEpoch := by unfold Proc.observe; split <;> rfl
@[simp] theorem Proc.observe_isbSeq : (p.observe who written).isbSeq = p.isbSeq := by unfold Proc.observe; split <;> rfl
@[simp] theorem Proc.observe_seen : (p.observe who written).seen = p.seen := by unfold Proc.observe; split <;> rfl
@[simp] theorem Proc.observe_mapEpoch : (p.observe who written).mapEpoch = p.mapEpoch := by unfold Proc.observe; split <;> rfl

@[simp] theorem Proc.observe_reg : (p.observe who written).reg q = p.reg q := by simp [Proc.reg]

@[simp] theorem Proc.observe_pool_length : (p.observe who written).pool.length = p.pool.length := by
  unfold Proc.observe; split <;> simp

/-- A processor never loses `intact` to its own write (R152 "another agent"). -/
@[simp] theorem Proc.observe_own : p.observe p.id written = p := by simp [Proc.observe]

/-- Nor to the write of an agent outside `ExclObserved(p)` (R152). -/
theorem Proc.observe_unobserved (h : who ∉ p.exclObserved) : p.observe who written = p := by
  simp [Proc.observe, h]

end processor

section transaction

variable (t : Txn) (written : Nat × Nat) (plat : Platform)

@[simp] theorem Txn.observe_seq : (t.observe written).seq = t.seq := by
  obtain ⟨_, op, _, _⟩ := t; cases op <;> rfl
@[simp] theorem Txn.observe_addr : (t.observe written).addr = t.addr := by
  obtain ⟨_, op, _, _⟩ := t; cases op <;> rfl
@[simp] theorem Txn.observe_size : (t.observe written).size = t.size := by
  obtain ⟨_, op, _, _⟩ := t; cases op <;> rfl
@[simp] theorem Txn.observe_dest : (t.observe written).dest = t.dest := by
  obtain ⟨_, op, _, _⟩ := t; cases op <;> rfl
@[simp] theorem Txn.observe_isWrite : (t.observe written).isWrite = t.isWrite := by
  obtain ⟨_, op, _, _⟩ := t; cases op <;> rfl
@[simp] theorem Txn.observe_isWriteBack : (t.observe written).isWriteBack = t.isWriteBack := by
  obtain ⟨_, op, _, _⟩ := t; cases op <;> rfl
@[simp] theorem Txn.observe_footprint : (t.observe written).footprint plat = t.footprint plat := by
  simp [Txn.footprint]
@[simp] theorem Txn.observe_memType : (t.observe written).memType plat = t.memType plat := by
  simp [Txn.memType]

end transaction

section machine

variable (s : State) (map : MemoryMap) (a : Nat) (b : Byte) (bs : List Byte) (who : Nat) (written : Nat × Nat)

@[simp] theorem State.poke_cpu : (s.poke a b).cpu = s.cpu := rfl
@[simp] theorem State.poke_others : (s.poke a b).others = s.others := rfl
@[simp] theorem State.poke_masters : (s.poke a b).masters = s.masters := rfl
@[simp] theorem State.poke_mem : (s.poke a b).mem = s.mem.write a b := rfl
@[simp] theorem State.poke_map : (s.poke a b).map = s.map := rfl
@[simp] theorem State.poke_mapHistory : (s.poke a b).mapHistory = s.mapHistory := rfl
@[simp] theorem State.poke_history : (s.poke a b).history = (a, s.mem.read a) :: s.history := rfl
@[simp] theorem State.poke_devices : (s.poke a b).devices = s.devices := rfl
@[simp] theorem State.poke_plat : (s.poke a b).plat = s.plat := rfl
@[simp] theorem State.poke_agenda : (s.poke a b).agenda = s.agenda := rfl
@[simp] theorem State.poke_draws : (s.poke a b).draws = s.draws := rfl

@[simp] theorem State.observeWrite_cpu : (s.observeWrite who written).cpu = s.cpu.observe who written := rfl
@[simp] theorem State.observeWrite_others : (s.observeWrite who written).others = s.others.map (Proc.observe who written) := rfl
@[simp] theorem State.observeWrite_masters : (s.observeWrite who written).masters = s.masters := rfl
@[simp] theorem State.observeWrite_mem : (s.observeWrite who written).mem = s.mem := rfl
@[simp] theorem State.observeWrite_map : (s.observeWrite who written).map = s.map := rfl
@[simp] theorem State.observeWrite_mapHistory : (s.observeWrite who written).mapHistory = s.mapHistory := rfl
@[simp] theorem State.observeWrite_history : (s.observeWrite who written).history = s.history := rfl
@[simp] theorem State.observeWrite_devices : (s.observeWrite who written).devices = s.devices := rfl
@[simp] theorem State.observeWrite_plat : (s.observeWrite who written).plat = s.plat := rfl
@[simp] theorem State.observeWrite_agenda : (s.observeWrite who written).agenda = s.agenda := rfl
@[simp] theorem State.observeWrite_draws : (s.observeWrite who written).draws = s.draws := rfl

@[simp] theorem State.pokes_cpu : (s.pokes map a bs).cpu = s.cpu := by
  induction bs generalizing s a with
  | nil => rfl
  | cons b bs ih => simp [State.pokes, ih]
@[simp] theorem State.pokes_others : (s.pokes map a bs).others = s.others := by
  induction bs generalizing s a with
  | nil => rfl
  | cons b bs ih => simp [State.pokes, ih]
@[simp] theorem State.pokes_masters : (s.pokes map a bs).masters = s.masters := by
  induction bs generalizing s a with
  | nil => rfl
  | cons b bs ih => simp [State.pokes, ih]
@[simp] theorem State.pokes_devices : (s.pokes map a bs).devices = s.devices := by
  induction bs generalizing s a with
  | nil => rfl
  | cons b bs ih => simp [State.pokes, ih]
@[simp] theorem State.pokes_plat : (s.pokes map a bs).plat = s.plat := by
  induction bs generalizing s a with
  | nil => rfl
  | cons b bs ih => simp [State.pokes, ih]
@[simp] theorem State.pokes_agenda : (s.pokes map a bs).agenda = s.agenda := by
  induction bs generalizing s a with
  | nil => rfl
  | cons b bs ih => simp [State.pokes, ih]
@[simp] theorem State.pokes_draws : (s.pokes map a bs).draws = s.draws := by
  induction bs generalizing s a with
  | nil => rfl
  | cons b bs ih => simp [State.pokes, ih]
@[simp] theorem State.pokes_map : (s.pokes map a bs).map = s.map := by
  induction bs generalizing s a with
  | nil => rfl
  | cons b bs ih => simp [State.pokes, ih]
@[simp] theorem State.pokes_mapHistory : (s.pokes map a bs).mapHistory = s.mapHistory := by
  induction bs generalizing s a with
  | nil => rfl
  | cons b bs ih => simp [State.pokes, ih]

@[simp] theorem State.byteAt_eq : s.byteAt map a = s.mem.read (place map a) := rfl

end machine

section switching

variable (s : State) (a : Nat) (size : Size) (v : Word)

/-- A write that may switch the map changes the map and the record of the maps replaced, and nothing else. -/
theorem State.switchMap_eq : ∃ replaced, s.switchMap a size v =
    { s with map := (s.switchMap a size v).map, mapHistory := replaced ++ s.mapHistory } := by
  unfold State.switchMap
  split
  · exact ⟨[], rfl⟩
  · exact ⟨[s.map], rfl⟩

@[simp] theorem State.switchMap_cpu : (s.switchMap a size v).cpu = s.cpu := by unfold State.switchMap; split <;> rfl
@[simp] theorem State.switchMap_others : (s.switchMap a size v).others = s.others := by unfold State.switchMap; split <;> rfl
@[simp] theorem State.switchMap_masters : (s.switchMap a size v).masters = s.masters := by unfold State.switchMap; split <;> rfl
@[simp] theorem State.switchMap_mem : (s.switchMap a size v).mem = s.mem := by unfold State.switchMap; split <;> rfl
@[simp] theorem State.switchMap_history : (s.switchMap a size v).history = s.history := by unfold State.switchMap; split <;> rfl
@[simp] theorem State.switchMap_devices : (s.switchMap a size v).devices = s.devices := by unfold State.switchMap; split <;> rfl
@[simp] theorem State.switchMap_plat : (s.switchMap a size v).plat = s.plat := by unfold State.switchMap; split <;> rfl
@[simp] theorem State.switchMap_agenda : (s.switchMap a size v).agenda = s.agenda := by unfold State.switchMap; split <;> rfl
@[simp] theorem State.switchMap_draws : (s.switchMap a size v).draws = s.draws := by unfold State.switchMap; split <;> rfl

/-- A write that no rule fits leaves the map. -/
theorem State.switchMap_none (h : s.plat.mapSwitch.find? (hitsRule a size v) = none) : s.switchMap a size v = s := by
  simp [State.switchMap, h]

variable (p : Proc) (t : Txn) (written : List Host.Cell) (now : Nat)

@[simp] theorem Proc.seeOwnWrite_id : (p.seeOwnWrite t written now).id = p.id := by
  unfold Proc.seeOwnWrite; split <;> rfl
@[simp] theorem Proc.seeOwnWrite_exclObserved : (p.seeOwnWrite t written now).exclObserved = p.exclObserved := by
  unfold Proc.seeOwnWrite; split <;> rfl
@[simp] theorem Proc.seeOwnWrite_finish : (p.seeOwnWrite t written now).finish = p.finish := by
  unfold Proc.seeOwnWrite; split <;> rfl
@[simp] theorem Proc.seeOwnWrite_regs : (p.seeOwnWrite t written now).regs = p.regs := by
  unfold Proc.seeOwnWrite; split <;> rfl
@[simp] theorem Proc.seeOwnWrite_pc : (p.seeOwnWrite t written now).pc = p.pc := by
  unfold Proc.seeOwnWrite; split <;> rfl
@[simp] theorem Proc.seeOwnWrite_tag : (p.seeOwnWrite t written now).tag = p.tag := by
  unfold Proc.seeOwnWrite; split <;> rfl
@[simp] theorem Proc.seeOwnWrite_seq : (p.seeOwnWrite t written now).seq = p.seq := by
  unfold Proc.seeOwnWrite; split <;> rfl
@[simp] theorem Proc.seeOwnWrite_pool : (p.seeOwnWrite t written now).pool = p.pool := by
  unfold Proc.seeOwnWrite; split <;> rfl
@[simp] theorem Proc.seeOwnWrite_dmbs : (p.seeOwnWrite t written now).dmbs = p.dmbs := by
  unfold Proc.seeOwnWrite; split <;> rfl
@[simp] theorem Proc.seeOwnWrite_ifetchEpoch : (p.seeOwnWrite t written now).ifetchEpoch = p.ifetchEpoch := by
  unfold Proc.seeOwnWrite; split <;> rfl
@[simp] theorem Proc.seeOwnWrite_isbSeq : (p.seeOwnWrite t written now).isbSeq = p.isbSeq := by
  unfold Proc.seeOwnWrite; split <;> rfl
@[simp] theorem Proc.seeOwnWrite_mapEpoch : (p.seeOwnWrite t written now).mapEpoch = p.mapEpoch := by
  unfold Proc.seeOwnWrite; split <;> rfl

@[simp] theorem Proc.seeOwnWrite_reg (r : Reg) : (p.seeOwnWrite t written now).reg r = p.reg r := by simp [Proc.reg]

end switching

end Sys2Proof.Machine
end

