-- ==== Sys2Proof/Laws/Memory.lean ====
section
/-! SUPPORT. Memory: a read after a write, the canonical form, and what the bytes of a value are. -/

namespace Sys2Proof.Machine

@[simp] theorem Memory.read_nil (a : Nat) : Memory.read [] a = unlistedByte := rfl

/-- An address below every listed one reads as an unlisted address does. -/
theorem Memory.read_of_lt (m : Memory) (a : Nat) (h : ∀ c ∈ m, a < c.1) : m.read a = unlistedByte := by
  induction m with
  | nil => rfl
  | cons c m ih =>
    have hc := h c (by simp)
    simp only [Memory.read, if_neg (by omega : ¬ a = c.1)]
    exact ih fun d hd => h d (by simp [hd])

/-- A read after a write: the byte written at its own address, the byte before it at every other. -/
theorem Memory.read_write (m : Memory) (a k : Nat) (b : Byte) (h : m.Pairwise (fun c d => c.1 < d.1)) :
    (m.write a b).read k = if k = a then b else m.read k := by
  induction m with
  | nil =>
    by_cases hb : b = unlistedByte <;> by_cases hk : k = a <;> simp [Memory.write, Memory.read, hb, hk]
  | cons c m ih =>
    obtain ⟨x, v⟩ := c
    have hlow : ∀ d ∈ m, x < d.1 := fun d hd => (List.pairwise_cons.mp h).1 d hd
    have ih := ih (List.pairwise_cons.mp h).2
    have h0 : a < x → Memory.read m a = unlistedByte := fun hax =>
      Memory.read_of_lt m a fun d hd => lt_trans hax (hlow d hd)
    have hx : Memory.read m x = unlistedByte := Memory.read_of_lt m x hlow
    simp only [Memory.write]
    rcases Nat.lt_trichotomy a x with hax | rfl | hax
    · have hne : a ≠ x := by omega
      by_cases hb : b = unlistedByte <;> by_cases hk : k = a <;> simp [Memory.read, hax, hb, hk, h0 hax, hne]
    · by_cases hb : b = unlistedByte <;> by_cases hk : k = a <;> simp [Memory.read, hb, hk, hx]
    · have hnlt : ¬ a < x := by omega
      have hne : a ≠ x := by omega
      by_cases hk : k = x
      · subst hk; simp [Memory.read, hnlt, hne, hne.symm]
      · simp [Memory.read, hnlt, hne, hk, ih]

/-- Every cell after a write is the cell written or one that was there. -/
theorem Memory.mem_write {m : Memory} {a : Nat} {b : Byte} {c : Host.Cell} (h : c ∈ m.write a b) :
    (c = (a, b) ∧ b ≠ unlistedByte) ∨ c ∈ m := by
  induction m with
  | nil =>
    simp only [Memory.write] at h
    split_ifs at h with hb
    · simp at h
    · exact .inl ⟨by simpa using h, hb⟩
  | cons d m ih =>
    simp only [Memory.write] at h
    split_ifs at h with h1 h2 h3 h4
    · exact .inr h
    · rcases List.mem_cons.mp h with h | h
      · exact .inl ⟨h, h2⟩
      · exact .inr h
    · exact .inr (List.mem_cons_of_mem _ h)
    · rcases List.mem_cons.mp h with h | h
      · exact .inl ⟨h, h4⟩
      · exact .inr (List.mem_cons_of_mem _ h)
    · rcases List.mem_cons.mp h with h | h
      · exact .inr (h ▸ List.mem_cons_self)
      · rcases ih h with h | h
        · exact .inl h
        · exact .inr (List.mem_cons_of_mem _ h)

/-- A write keeps the canonical form. -/
theorem Memory.write_wf {m : Memory} (h : m.wf) (a : Nat) (b : Byte) : (m.write a b).wf := by
  refine ⟨?_, fun c hc => ?_⟩
  · obtain ⟨h, -⟩ := h
    induction m with
    | nil => simp only [Memory.write]; split_ifs <;> simp
    | cons d m ih =>
      have hd := List.pairwise_cons.mp h
      simp only [Memory.write]
      split_ifs with h1 h2 h3 h4
      · exact h
      · refine List.pairwise_cons.mpr ⟨fun c hc => ?_, h⟩
        rcases List.mem_cons.mp hc with hc | hc
        · subst hc; exact h1
        · exact lt_trans h1 (hd.1 c hc)
      · exact hd.2
      · refine List.pairwise_cons.mpr ⟨fun c hc => ?_, hd.2⟩
        have := hd.1 c hc
        simp only; omega
      · refine List.pairwise_cons.mpr ⟨fun c hc => ?_, ih hd.2⟩
        rcases Memory.mem_write hc with ⟨hc, -⟩ | hc
        · subst hc; simp only; omega
        · exact hd.1 c hc
  · rcases Memory.mem_write hc with ⟨rfl, hb⟩ | hc
    · exact hb
    · exact h.2 c hc

/-- The bytes of a write keep the canonical form. -/
theorem State.pokes_wf {s : State} (h : s.mem.wf) (map : MemoryMap) (a : Nat) (bs : List Byte) :
    (s.pokes map a bs).mem.wf := by
  induction bs generalizing s a with
  | nil => exact h
  | cons b bs ih => exact ih (s := s.poke (place map a) b) (Memory.write_wf h _ b) (a + 1)

/-- A cell that none of the bytes written goes to reads as before. -/
theorem State.pokes_read_of_ne {s : State} (h : s.mem.wf) (map : MemoryMap) (a : Nat) (bs : List Byte) (c : Nat)
    (hc : ∀ j, j < bs.length → c ≠ place map (a + j)) : (s.pokes map a bs).mem.read c = s.mem.read c := by
  induction bs generalizing s a with
  | nil => rfl
  | cons b bs ih =>
    rw [State.pokes, ih (Memory.write_wf h _ b) (a + 1) fun j hj => ?_]
    · have := Memory.read_write s.mem (place map a) c b h.1
      rw [State.poke_mem, this, if_neg (by simpa using hc 0 (by simp))]
    · have := hc (j + 1) (by simp; omega)
      rwa [show a + (j + 1) = a + 1 + j by omega] at this

/-- Each byte written is in its cell, if no two of them go to one cell. -/
theorem State.pokes_read {s : State} (h : s.mem.wf) {map : MemoryMap} {a : Nat} {bs : List Byte}
    (hd : DistinctPlaces map a bs.length) {j : Nat} (hj : j < bs.length) :
    (s.pokes map a bs).mem.read (place map (a + j)) = bs.getD j 0 := by
  induction bs generalizing s a j with
  | nil => simp at hj
  | cons b bs ih =>
    have hw : (s.poke (place map a) b).mem.wf := Memory.write_wf h _ b
    rw [State.pokes]
    cases j with
    | zero =>
      rw [State.pokes_read_of_ne hw, State.poke_mem, Memory.read_write _ _ _ _ h.1]
      · simp
      · intro j hj' e
        have := hd 0 (by simp) (j + 1) (by simp; omega) (by rw [e]; congr 1; omega)
        omega
    | succ j =>
      have := ih hw (a := a + 1) (j := j) (fun i hi k hk e => ?_) (by simpa using hj)
      · rw [show a + (j + 1) = a + 1 + j by omega, this]; simp
      · have := hd (i + 1) (by simp; omega) (k + 1) (by simp; omega)
          (by rw [show a + (i + 1) = a + 1 + i by omega, show a + (k + 1) = a + 1 + k by omega, e])
        omega

/-- How many bytes a value of a size has. -/
@[simp] theorem bytesOf_length (size : Size) (v : Word) : (bytesOf size v).length = size.bytes := by
  cases size <;> rfl

/-- A write of a run of bytes leaves the history longer by as many. -/
@[simp] theorem State.pokes_history_length (s : State) (map : MemoryMap) (a : Nat) (bs : List Byte) :
    (s.pokes map a bs).history.length = s.history.length + bs.length := by
  induction bs generalizing s a with
  | nil => rfl
  | cons b bs ih => simp [State.pokes, ih, State.poke]; omega

/-- An access touches at least one byte. -/
theorem size_bytes_pos (size : Size) : 0 < size.bytes := by cases size <;> decide

/-- An access touches at most the bits of a word. -/
theorem size_bits_le (size : Size) : 8 * size.bytes ≤ 32 := by cases size <;> decide

/-- The bits an access carries: the low ones of the value, and zeros above (R9 `zext_32`). -/
theorem keep_getLsbD (size : Size) (v : Word) (j : Nat) :
    (size.keep v).getLsbD j = (decide (j < 8 * size.bytes) && v.getLsbD j) := by
  cases size <;> simp only [Size.keep, Size.bytes, BitVec.getLsbD_setWidth]
  · by_cases h : j < 8
    · simp [h]; omega
    · simp [h]
  · by_cases h : j < 16
    · simp [h]; omega
    · simp [h]
  · by_cases h : j < 32
    · simp [h]
    · simp [h]; apply BitVec.getLsbD_of_ge; omega

/-- The value an access carries, as a number. -/
theorem keep_eq (size : Size) (v : Word) : size.keep v = BitVec.ofNat 32 (v.toNat % 2 ^ (8 * size.bytes)) := by
  apply BitVec.eq_of_toNat_eq
  have := v.isLt
  cases size <;> simp [Size.keep, Size.bytes] <;> omega

/-- A bit of a value read is a bit of the byte it lies in (R53, R55). -/
theorem valueAt_getLsbD (byte : Nat → Byte) (a : Nat) (size : Size) (j : Nat) (hj : j < 8 * size.bytes) :
    (valueAt byte a size).getLsbD j = (byte (a + j / 8)).getLsbD (j % 8) := by
  cases size <;> simp only [Size.bytes] at hj <;> interval_cases j <;>
    simp only [valueAt, BitVec.getLsbD_setWidth, BitVec.getLsbD_append] <;> simp

/-- A value read has no bit above its size. -/
theorem valueAt_getLsbD_of_ge (byte : Nat → Byte) (a : Nat) (size : Size) (j : Nat) (hj : 8 * size.bytes ≤ j) :
    (valueAt byte a size).getLsbD j = false := by
  cases size <;> simp only [Size.bytes] at hj <;> simp only [valueAt, BitVec.getLsbD_setWidth]
  · simp; intro _; apply BitVec.getLsbD_of_ge; omega
  · simp; intro _; apply BitVec.getLsbD_of_ge; omega
  · apply BitVec.getLsbD_of_ge; omega

/-- A byte of a value read is the byte at its address. -/
theorem valueAt_extract (byte : Nat → Byte) (a : Nat) (size : Size) (j : Nat) (hj : j < size.bytes) :
    (valueAt byte a size).extractLsb' (8 * j) 8 = byte (a + j) := by
  apply BitVec.eq_of_getLsbD_eq; intro i hi
  rw [BitVec.getLsbD_extractLsb', valueAt_getLsbD _ _ _ _ (by omega), show (8 * j + i) / 8 = j by omega,
    show (8 * j + i) % 8 = i by omega]
  simp [hi]

/-- A value read is below the bound of its size. -/
theorem valueAt_lt (byte : Nat → Byte) (a : Nat) (size : Size) :
    (valueAt byte a size).toNat < 2 ^ (8 * size.bytes) := by
  cases size <;> simp only [valueAt, Size.bytes, BitVec.toNat_setWidth]
  · have := (byte a).isLt; omega
  · have := (byte (a + 1) ++ byte a : BitVec 16).isLt; omega
  · exact (byte (a + 3) ++ byte (a + 2) ++ byte (a + 1) ++ byte a : BitVec 32).isLt

/-- The `j`-th byte of a value. -/
theorem bytesOf_getD (size : Size) (v : Word) (j : Nat) (h : j < size.bytes) :
    (bytesOf size v).getD j 0 = v.extractLsb' (8 * j) 8 := by
  cases size <;> simp only [Size.bytes] at h <;> interval_cases j <;> rfl

/-- A byte inside a value written is that byte of the value. -/
theorem State.pokes_bytesOf_read {s : State} (hm : s.mem.wf) {map : MemoryMap} {a : Nat} {size : Size} (v : Word)
    (hd : DistinctPlaces map a size.bytes) {j : Nat} (h : j < size.bytes) :
    (s.pokes map a (bytesOf size v)).mem.read (place map (a + j)) = v.extractLsb' (8 * j) 8 := by
  rw [State.pokes_read hm (by simpa using hd) (by simpa using h)]
  exact bytesOf_getD size v j h

/-- Reading a value back gives the bits the write carried. -/
theorem State.pokes_bytesOf_valueAt {s : State} (hm : s.mem.wf) {map : MemoryMap} {a : Nat} {size : Size} (v : Word)
    (hd : DistinctPlaces map a size.bytes) :
    valueAt ((s.pokes map a (bytesOf size v)).byteAt map) a size = size.keep v := by
  apply BitVec.eq_of_getLsbD_eq; intro j hj
  by_cases hb : j < 8 * size.bytes
  · rw [valueAt_getLsbD _ _ _ _ hb, State.byteAt, State.pokes_bytesOf_read hm v hd (by omega)]
    rw [BitVec.getLsbD_extractLsb', keep_getLsbD, show 8 * (j / 8) + j % 8 = j by omega]
    simp [hb]; omega
  · rw [valueAt_getLsbD_of_ge _ _ _ _ (by omega), keep_getLsbD]; simp [hb]

end Sys2Proof.Machine
end

