-- ==== Sys2Proof/Laws/Ops.lean ====
section
/-! SUPPORT. For each shared operation, once, everything it can do when it answers a next value. -/

namespace Sys2Proof.Machine

/-- A chained result goes on only through a next value. -/
theorem andThen_eq_next {α β : Type} {o : Result α} {k : α → Result β} {b : β} :
    andThen o k = .next b ↔ ∃ a, o = .next a ∧ k a = .next b := by
  cases o <;> simp [andThen]

@[simp] theorem andThen_next {α β : Type} (a : α) (k : α → Result β) : andThen (.next a) k = k a := rfl
@[simp] theorem andThen_fault {α β : Type} (f : Fault) (k : α → Result β) :
    andThen (Host.Outcome.fault f : Result α) k = .fault f := rfl
@[simp] theorem andThen_refused {α β : Type} (r : Refusal) (k : α → Result β) :
    andThen (Host.Outcome.refused r : Result α) k = .refused r := rfl

/-- What retiring an instruction answers. -/
theorem retire_eq_next {update : Proc → Proc} {s t : State} (h : retire update s = .next t) :
    s.cpu.pc.toNat + 4 ≤ 0xFFFFFFFC ∧
      t = { s with cpu := { update s.cpu with pc := s.cpu.pc + 4#32, seq := s.cpu.seq + 1 } } := by
  unfold retire at h
  split at h
  · cases h
  · exact ⟨by omega, by cases h; rfl⟩

/-- Retiring completes below the top of the address space. -/
theorem retire_next {update : Proc → Proc} {s : State} (h : s.cpu.pc.toNat + 4 ≤ 0xFFFFFFFC) :
    retire update s =
      .next { s with cpu := { update s.cpu with pc := s.cpu.pc + 4#32, seq := s.cpu.seq + 1 } } := by
  simp [retire, Nat.not_lt.mpr h]

/-- A guarded meaning answers a next state only for accepted operands. -/
theorem guarded_eq_next {i : Instr} {s t : State} {meaning : Result State} (h : guarded i s meaning = .next t) :
    operandsOk i = true ∧ meaning = .next t := by
  unfold guarded at h
  split at h
  · exact ⟨by assumption, h⟩
  · cases h

theorem guarded_of_ok {i : Instr} (s : State) (meaning : Result State) (h : operandsOk i = true) :
    guarded i s meaning = meaning := by simp [guarded, h]

/-- An instruction that names registers either holds, or goes on with none of them pending. -/
theorem whenReady_eq_next {named : List Reg} {s t : State} {meaning : Result State}
    (h : whenReady named s meaning = .next t) :
    (s.cpu.anyPending named = true ∧ t = s) ∨ (s.cpu.anyPending named = false ∧ meaning = .next t) := by
  unfold whenReady at h
  split at h
  · exact .inl ⟨by assumption, by cases h; rfl⟩
  · exact .inr ⟨by simp_all, h⟩

/-- The map an access uses is one that is admitted, and choosing it changes the count of draws alone; it is `ok` for the
access where any of them is; and where only the map in force is admitted nothing is drawn. -/
theorem chooseMap_cases (ok : MemoryMap → Bool) (epoch : Nat) (s : State) :
    (chooseMap ok epoch s).1 ∈ s.mapsAdmitted epoch ∧
      ((∃ map ∈ s.mapsAdmitted epoch, ok map = true) → ok (chooseMap ok epoch s).1 = true) ∧
      ∃ n, s.draws ≤ n ∧ (s.mapsAdmitted epoch = [s.map] → n = s.draws) ∧
        (chooseMap ok epoch s).2 = { s with draws := n } := by
  have hin : ∀ {map}, map ∈ (s.mapsAdmitted epoch).filter ok → map ∈ s.mapsAdmitted epoch ∧ ok map = true :=
    fun h => List.mem_filter.mp h
  unfold chooseMap
  split
  · rename_i h
    refine ⟨by simp [State.mapsAdmitted, State.lastingMaps], fun ⟨map, h1, h2⟩ => ?_, s.draws, le_rfl, fun _ => rfl, rfl⟩
    exact absurd (List.mem_filter.mpr ⟨h1, h2⟩) (by simp [h])
  · rename_i map h
    have := hin (map := map) (by simp [h])
    exact ⟨this.1, fun _ => this.2, s.draws, le_rfl, fun _ => rfl, rfl⟩
  · rename_i h1 h2
    have hlt : Config.mapPick s.draws % ((s.mapsAdmitted epoch).filter ok).length < ((s.mapsAdmitted epoch).filter ok).length :=
      Nat.mod_lt _ (List.length_pos_iff.mpr h1)
    have := hin (List.getElem_mem hlt)
    simp only [List.getD_eq_getElem?_getD, List.getElem?_eq_getElem hlt, Option.getD_some]
    refine ⟨this.1, fun _ => this.2, _, Nat.le_succ _, fun h => ?_, rfl⟩
    rw [h] at h1 h2
    cases hm : ok s.map <;> simp [hm] at h1 h2

/-- Where no other map is admitted, an access goes by the one in force and nothing is drawn. -/
theorem chooseMap_settled {ok : MemoryMap → Bool} {epoch : Nat} {s : State} (h : s.mapsAdmitted epoch = [s.map]) :
    chooseMap ok epoch s = (s.map, s) := by
  unfold chooseMap
  rw [h]
  cases hm : ok s.map <;> simp [hm]

/-- A map that its agent may still use is one that is admitted. -/
theorem State.lasting_admitted {s : State} {epoch : Nat} {map : MemoryMap} (h : map ∈ s.lastingMaps epoch) :
    map ∈ s.mapsAdmitted epoch := List.mem_append_left _ h

/-- A map that never switches is the only one admitted. -/
theorem mapsAdmitted_of_fixed {s : State} (h1 : s.plat.mapSwitch = []) (h2 : s.mapHistory = []) (epoch : Nat) :
    s.mapsAdmitted epoch = [s.map] := by
  simp [State.mapsAdmitted, State.lastingMaps, State.comingMaps, h1, h2]

/-- What the check of a location answers: a map that its agent may still use is `ok`, and the state counts the draw. -/
theorem admitAccess_eq_next {epoch : Nat} {ok : MemoryMap → Bool} {r : Refusal} {s t : State}
    (h : admitAccess epoch ok r s = .next t) :
    (∃ map ∈ s.lastingMaps epoch, ok map = true) ∧
      ∃ n, s.draws ≤ n ∧ (s.mapsAdmitted epoch = [s.map] → n = s.draws) ∧ t = { s with draws := n } := by
  simp only [admitAccess] at h
  split_ifs at h with hc
  obtain ⟨-, -, n, h1, h2, h3⟩ := chooseMap_cases (fun _ => true) epoch s
  rw [Bool.and_eq_true, List.any_eq_true] at hc
  cases h
  exact ⟨hc.2, n, h1, h2, h3⟩

/-- The check of a location goes on where every map admitted is `ok`. -/
theorem admitAccess_next {epoch : Nat} {ok : MemoryMap → Bool} (r : Refusal) {s : State}
    (h : ∀ map ∈ s.mapsAdmitted epoch, ok map = true) :
    ∃ n, s.draws ≤ n ∧ (s.mapsAdmitted epoch = [s.map] → n = s.draws) ∧
      admitAccess epoch ok r s = .next { s with draws := n } := by
  obtain ⟨h0, -, n, h1, h2, h3⟩ := chooseMap_cases (fun _ => true) epoch s
  refine ⟨n, h1, h2, ?_⟩
  have hl : (s.lastingMaps epoch).any ok = true :=
    List.any_eq_true.mpr ⟨s.map, by simp [State.lastingMaps], h _ (by simp [State.mapsAdmitted, State.lastingMaps])⟩
  simp [admitAccess, h _ h0, hl, h3]

/-- The check of a location refuses only as it is told to, and only where some map admitted is not `ok`. -/
theorem admitAccess_else {epoch : Nat} {ok : MemoryMap → Bool} {r : Refusal} {s : State} :
    (∃ n, s.draws ≤ n ∧ (s.mapsAdmitted epoch = [s.map] → n = s.draws) ∧
        admitAccess epoch ok r s = .next { s with draws := n }) ∨
      admitAccess epoch ok r s = .refused r ∧ ∃ map ∈ s.mapsAdmitted epoch, ok map = false := by
  simp only [admitAccess]
  split_ifs with hc
  · obtain ⟨-, -, n, h1, h2, h3⟩ := chooseMap_cases (fun _ => true) epoch s
    exact .inl ⟨n, h1, h2, by rw [h3]⟩
  · refine .inr ⟨rfl, ?_⟩
    rw [Bool.and_eq_true, not_and_or, Bool.not_eq_true, Bool.not_eq_true] at hc
    rcases hc with hc | hc
    · exact ⟨_, (chooseMap_cases _ epoch s).1, hc⟩
    · simp only [List.any_eq_false, Bool.not_eq_true] at hc
      exact ⟨s.map, by simp [State.mapsAdmitted, State.lastingMaps], hc _ (by simp [State.lastingMaps])⟩

/-- The address of an exclusive access, where it answers one: R141, R148 and R149 let it, by a map that the processor may
still use. -/
theorem exclusiveAddress_eq_next {rn : Reg} {offset : Nat} {size : Size} {s : State} {r : Word × State}
    (h : exclusiveAddress rn offset size s = .next r) :
    r.1.toNat = effectiveAddress s.cpu rn offset ∧ r.1.toNat % size.bytes = 0 ∧
      (∃ map ∈ s.lastingMaps s.cpu.mapEpoch, exclusiveAllowed map r.1.toNat size.bytes = true) ∧
      ∃ n, s.draws ≤ n ∧ (s.mapsAdmitted s.cpu.mapEpoch = [s.map] → n = s.draws) ∧ r.2 = { s with draws := n } := by
  simp only [exclusiveAddress] at h
  split_ifs at h with h1 h2
  obtain ⟨s', hs, h⟩ := andThen_eq_next.mp h
  cases h
  have : (BitVec.ofNat 32 (effectiveAddress s.cpu rn offset)).toNat = effectiveAddress s.cpu rn offset := by
    rw [BitVec.toNat_ofNat]; exact Nat.mod_eq_of_lt (by omega)
  exact ⟨this, by rw [this]; omega, by rw [this]; exact admitAccess_eq_next hs⟩

/-- The address of an exclusive access is answered wherever R141, R148 and, by every map admitted, R149 let it. -/
theorem exclusiveAddress_next {rn : Reg} {offset : Nat} {size : Size} {s : State}
    (hfit : effectiveAddress s.cpu rn offset ≤ 0xFFFFFFFF)
    (halign : effectiveAddress s.cpu rn offset % size.bytes = 0)
    (hok : ∀ map ∈ s.mapsAdmitted s.cpu.mapEpoch,
      exclusiveAllowed map (effectiveAddress s.cpu rn offset) size.bytes = true) :
    ∃ n, s.draws ≤ n ∧ (s.mapsAdmitted s.cpu.mapEpoch = [s.map] → n = s.draws) ∧
      exclusiveAddress rn offset size s =
        .next (BitVec.ofNat 32 (effectiveAddress s.cpu rn offset), { s with draws := n }) := by
  obtain ⟨n, h1, h2, h3⟩ :=
    admitAccess_next (.exclusiveNotAllowed (BitVec.ofNat 32 (effectiveAddress s.cpu rn offset))) hok
  exact ⟨n, h1, h2, by simp [exclusiveAddress, Nat.not_lt.mpr hfit, halign, h3]⟩

/-- The address of an aligned exclusive access is answered, or refused where some map admitted gives it no meaning. -/
theorem exclusiveAddress_else {rn : Reg} {offset : Nat} {size : Size} {s : State}
    (hfit : effectiveAddress s.cpu rn offset ≤ 0xFFFFFFFF)
    (halign : effectiveAddress s.cpu rn offset % size.bytes = 0) :
    (∃ n, s.draws ≤ n ∧ (s.mapsAdmitted s.cpu.mapEpoch = [s.map] → n = s.draws) ∧
      exclusiveAddress rn offset size s =
        .next (BitVec.ofNat 32 (effectiveAddress s.cpu rn offset), { s with draws := n })) ∨
    exclusiveAddress rn offset size s =
        .refused (.exclusiveNotAllowed (BitVec.ofNat 32 (effectiveAddress s.cpu rn offset))) ∧
      ∃ map ∈ s.mapsAdmitted s.cpu.mapEpoch,
        exclusiveAllowed map (effectiveAddress s.cpu rn offset) size.bytes = false := by
  have hx : ∀ o, admitAccess s.cpu.mapEpoch (fun map => exclusiveAllowed map (effectiveAddress s.cpu rn offset) size.bytes)
      (.exclusiveNotAllowed (BitVec.ofNat 32 (effectiveAddress s.cpu rn offset))) s = o →
      exclusiveAddress rn offset size s =
        andThen o fun s' => .next (BitVec.ofNat 32 (effectiveAddress s.cpu rn offset), s') := fun o h => by
    simp only [exclusiveAddress, gt_iff_lt, Nat.not_lt.mpr hfit, if_false, halign, ne_eq, not_true_eq_false, h]
  rcases admitAccess_else with ⟨n, h1, h2, h3⟩ | ⟨h3, h4⟩
  · exact .inl ⟨n, h1, h2, hx _ h3⟩
  · exact .inr ⟨hx _ h3, h4⟩

/-- A Load-Exclusive holds, or sets the tag, issues its read and retires. -/
theorem loadExclusive_eq_next {rt rn : Reg} {offset : Nat} {size : Size} {s t : State}
    (h : loadExclusive rt rn offset size s = .next t) :
    t = s ∨ ∃ r, exclusiveAddress rn offset size s = .next r ∧
      retire (fun p => p.issueLoad rt r.1 size) r.2 = .next t := by
  rcases whenReady_eq_next h with ⟨-, rfl⟩ | ⟨-, h⟩
  · exact .inl rfl
  · exact .inr (andThen_eq_next.mp h)

/-- A Store-Exclusive holds, or spends its matching tag, issues its write and retires. -/
theorem storeExclusive_eq_next {rd rt rn : Reg} {offset : Nat} {size : Size} {s t : State}
    (h : storeExclusive rd rt rn offset size s = .next t) :
    t = s ∨ ∃ r intact, exclusiveAddress rn offset size s = .next r ∧
      pairedIntact s.cpu.tag r.1 size = some intact ∧
      retire (fun p => p.issueStore rd rt r.1 size intact) r.2 = .next t := by
  rcases whenReady_eq_next h with ⟨-, rfl⟩ | ⟨-, h⟩
  · exact .inl rfl
  · obtain ⟨r, hr, h⟩ := andThen_eq_next.mp h
    cases hp : pairedIntact s.cpu.tag r.1 size with
    | none => simp [hp] at h
    | some intact => exact .inr ⟨r, intact, hr, hp, by simpa [hp] using h⟩

/-- A data access passes its checks exactly when it is aligned and, in an alias region, a word access. -/
theorem checkAccess_eq_next {a : Word} {size : Size} {u : Unit} :
    checkAccess a size = .next u ↔ a.toNat % size.bytes = 0 ∧ (inAlias a.toNat = true → size = .word) := by
  unfold checkAccess
  split_ifs with h1 h2 <;> simp_all

theorem checkAccess_next {a : Word} {size : Size} (h1 : a.toNat % size.bytes = 0)
    (h2 : inAlias a.toNat = true → size = .word) : checkAccess a size = .next () := checkAccess_eq_next.mpr ⟨h1, h2⟩

/-- What the check of a plain access answers. -/
theorem admitPlain_eq_next {epoch : Nat} {a : Word} {size : Size} {s t : State} (h : admitPlain epoch a size s = .next t) :
    a.toNat % size.bytes = 0 ∧ (inAlias a.toNat = true → size = .word) ∧
      (∃ map ∈ s.lastingMaps epoch, reachable s.plat a.toNat size map = true) ∧
      ∃ n, s.draws ≤ n ∧ (s.mapsAdmitted epoch = [s.map] → n = s.draws) ∧ t = { s with draws := n } := by
  obtain ⟨_, hc, h⟩ := andThen_eq_next.mp h
  exact ⟨(checkAccess_eq_next.mp hc).1, (checkAccess_eq_next.mp hc).2, admitAccess_eq_next h⟩

/-- What a read of an ordinary location answers: the bytes of memory with the state unchanged, or a device's answer
with the access on the devices' record. -/
theorem directRead_eq_next {map : MemoryMap} {a : Nat} {size : Size} {s : State} {r : Word × State}
    (h : directRead map a size s = .next r) :
    populated map a size.bytes = true ∧
      ((servedByDevice map a size.bytes = false ∧ r = (valueAt (s.byteAt map) a size, s)) ∨
        (servedByDevice map a size.bytes = true ∧
          r = (size.keep (Config.deviceRead s.devices (BitVec.ofNat 32 a) size),
            { s with devices := ⟨BitVec.ofNat 32 a, size, none⟩ :: s.devices }))) := by
  unfold directRead at h
  split_ifs at h with h1 h2
  · exact ⟨h1, .inr ⟨h2, by cases h; rfl⟩⟩
  · exact ⟨h1, .inl ⟨by simp_all, by cases h; rfl⟩⟩

/-- What a write of an ordinary location answers. -/
theorem directWrite_eq_next {map : MemoryMap} {who a : Nat} {size : Size} {v : Word} {s t : State}
    (h : directWrite map who a size v s = .next t) :
    populated map a size.bytes = true ∧
      ((servedByDevice map a size.bytes = false ∧
          t = ((s.pokes map a (bytesOf size v)).observeWrite who (a, size.bytes)).switchMap a size v) ∨
        (servedByDevice map a size.bytes = true ∧
          t = ({ s with devices := ⟨BitVec.ofNat 32 a, size, some (size.keep v)⟩ :: s.devices }.observeWrite who
            (a, size.bytes)).switchMap a size v)) := by
  unfold directWrite at h
  split_ifs at h with h1 h2
  · exact ⟨h1, .inr ⟨h2, by cases h; rfl⟩⟩
  · exact ⟨h1, .inl ⟨by simp_all, by cases h; rfl⟩⟩

/-- Plain storage is populated. -/
theorem populated_of_plainStorage {map : MemoryMap} {a n : Nat} (h : plainStorage map a n = true) :
    populated map a n = true := by
  simp only [plainStorage, populated, List.all_eq_true] at *
  intro k hk
  have := h k hk
  simp_all

/-- Plain storage is served by memory, whatever its region. -/
theorem servedByDevice_of_plainStorage {map : MemoryMap} {a n : Nat} (h : plainStorage map a n = true) :
    servedByDevice map a n = false := by simp [servedByDevice, h]

/-- Where an exclusive access is allowed there is plain storage. -/
theorem plainStorage_of_exclusiveAllowed {map : MemoryMap} {a n : Nat} (h : exclusiveAllowed map a n = true) :
    plainStorage map a n = true := by
  simp only [plainStorage, exclusiveAllowed, List.all_eq_true] at *
  intro k hk
  have := h k hk
  simp_all

/-- An exclusive access is never to an alias word (R149). -/
theorem inAlias_of_exclusiveAllowed {map : MemoryMap} {a n : Nat} (h : exclusiveAllowed map a n = true)
    (hn : 0 < n) : inAlias a = false := by
  simp only [exclusiveAllowed, List.all_eq_true] at h
  have := h 0 (by simpa)
  simp at this
  exact this.2

/-- The read of an ordinary location of plain storage. -/
theorem directRead_plain {map : MemoryMap} {s : State} {a : Nat} {size : Size}
    (h : plainStorage map a size.bytes = true) :
    directRead map a size s = .next (valueAt (s.byteAt map) a size, s) := by
  simp [directRead, populated_of_plainStorage h, servedByDevice_of_plainStorage h]

/-- The write of an ordinary location of plain storage. -/
theorem directWrite_plain {map : MemoryMap} {s : State} {who a : Nat} {v : Word} {size : Size}
    (h : plainStorage map a size.bytes = true) :
    directWrite map who a size v s =
      .next (((s.pokes map a (bytesOf size v)).observeWrite who (a, size.bytes)).switchMap a size v) := by
  simp [directWrite, populated_of_plainStorage h, servedByDevice_of_plainStorage h]

/-- `MemRead` of plain storage outside the aliases. -/
theorem memRead_plain {map : MemoryMap} {s : State} {a : Word} {size : Size} (h1 : a.toNat % size.bytes = 0)
    (h2 : inAlias a.toNat = false) (h3 : plainStorage map a.toNat size.bytes = true) :
    memRead map a size s = .next (valueAt (s.byteAt map) a.toNat size, s) := by
  simp [memRead, checkAccess, h1, h2, directRead_plain h3]

/-- `MemWrite` of plain storage outside the aliases. -/
theorem memWrite_plain {map : MemoryMap} {s : State} {who : Nat} {a v : Word} {size : Size}
    (h1 : a.toNat % size.bytes = 0) (h2 : inAlias a.toNat = false)
    (h3 : plainStorage map a.toNat size.bytes = true) :
    memWrite map who a size v s =
      .next (((s.pokes map a.toNat (bytesOf size v)).observeWrite who (a.toNat, size.bytes)).switchMap a.toNat size v) := by
  simp [memWrite, checkAccess, h1, h2, directWrite_plain h3]

/-- The bits of a word in which one bit was replaced (R68). -/
theorem replaceBit_getLsbD (old v : Word) (k j : Nat) (hk : k < 32) (hj : j < 32) :
    (replaceBit old k v).getLsbD j = if j = k then v.getLsbD 0 else old.getLsbD j := by
  unfold replaceBit
  by_cases h : v.getLsbD 0 = true
  · simp only [h, if_true, BitVec.getLsbD_or, BitVec.getLsbD_shiftLeft, BitVec.getLsbD_one]
    by_cases e : j = k
    · subst e; simp [hj]
    · simp [e, hj]; intro _ _; omega
  · simp only [Bool.not_eq_true] at h
    simp only [h, Bool.false_eq_true, if_false, BitVec.getLsbD_and, BitVec.getLsbD_not, BitVec.getLsbD_shiftLeft,
      BitVec.getLsbD_one]
    by_cases e : j = k
    · subst e; simp [hj]
    · simp [e, hj]; intro _; omega

/-- Where the target bit lies in the location of an alias access: in the byte `target` names, at its bit. -/
theorem aliasBit_facts (plat : Platform) (a : Nat) :
    (aliasLocation plat a).1 ≤ (target a).1 ∧
      (target a).1 < (aliasLocation plat a).1 + (aliasLocation plat a).2.bytes ∧ (target a).2 < 8 ∧
      aliasBit plat a / 8 = (target a).1 - (aliasLocation plat a).1 ∧ aliasBit plat a % 8 = (target a).2 ∧
      aliasBit plat a < 8 * (aliasLocation plat a).2.bytes := by
  have hk : (target a).2 < 8 := by unfold target; split <;> simp <;> omega
  have hb := size_bytes_pos plat.bbRmwWidth
  unfold aliasBit aliasLocation
  split_ifs
  · simp [Size.bytes, hk]
  · simp only
    have := Nat.mod_lt (target a).1 hb
    have h2 := Nat.mod_le (target a).1 plat.bbRmwWidth.bytes
    generalize (target a).1 % plat.bbRmwWidth.bytes = m at *
    omega

end Sys2Proof.Machine
end

