-- ==== Sys2Proof/Laws/Exec.lean ====
section
/-! SUPPORT. What executing an instruction can do, said once: it holds, or it retires with one of five updates of the
processor in focus. -/

namespace Sys2Proof.Machine

/-- The offset of the word forms is four times `imm8` (R118). -/
theorem wordOffset_eq (imm8 : BitVec 8) : wordOffset imm8 = 4 * imm8.toNat := by
  unfold wordOffset
  rw [BitVec.toNat_append]
  simp [Nat.shiftLeft_eq]
  omega

/-- The update of the processor in focus that instruction `i` retires with in state `s`. -/
inductive Retires (i : Instr) (s : State) : (Proc → Proc) → Prop where
  | dsb (option : BitVec 4) : i = .dsb option → s.cpu.pool = [] →
      Retires i s (fun p => { p with mapEpoch := s.mapHistory.length })
  | dmb (option : BitVec 4) : i = .dmb option → Retires i s Proc.recordDmb
  | isb (option : BitVec 4) : i = .isb option →
      Retires i s (fun p => { p with ifetchEpoch := s.history.length, isbSeq := p.seq, seen := [] })
  | load (rt rn : Reg) (offset : Nat) (size : Size) (a : Word) (s' : State) :
      loadForm i = some (rt, rn, offset, size) → exclusiveAddress rn offset size s = .next (a, s') →
      Retires i s (fun p => p.issueLoad rt a size)
  | store (rd rt rn : Reg) (offset : Nat) (size : Size) (a : Word) (intact : Bool) (s' : State) :
      storeForm i = some (rd, rt, rn, offset, size) → exclusiveAddress rn offset size s = .next (a, s') →
      pairedIntact s.cpu.tag a size = some intact → Retires i s (fun p => p.issueStore rd rt a size intact)

/-- What an instruction may draw when it executes: a map to be checked by, if it is an exclusive one and more than one map
is admitted. -/
def Draws (i : Instr) (s : State) (n : Nat) : Prop :=
  s.draws ≤ n ∧ (s.mapsAdmitted s.cpu.mapEpoch = [s.map] → n = s.draws) ∧ (exclusiveForm i = none → n = s.draws)

theorem Draws.none (i : Instr) (s : State) : Draws i s s.draws := ⟨le_rfl, fun _ => rfl, fun _ => rfl⟩

/-- The instruction held, or retired with one of the updates of `Retires`. -/
def Executed (i : Instr) (s t : State) : Prop :=
  t = s ∨ ∃ update n, Draws i s n ∧ Retires i s update ∧ retire update { s with draws := n } = .next t

theorem loadExclusive_cases {i : Instr} {rt rn : Reg} {offset : Nat} {size : Size} {s t : State}
    (hi : loadForm i = some (rt, rn, offset, size)) (h : loadExclusive rt rn offset size s = .next t) :
    Executed i s t := by
  rcases loadExclusive_eq_next h with h | ⟨⟨a, s'⟩, ha, h⟩
  · exact .inl h
  · obtain ⟨-, -, -, n, h1, h2, rfl⟩ := exclusiveAddress_eq_next ha
    exact .inr ⟨_, n, ⟨h1, h2, by simp [exclusiveForm, hi]⟩, .load _ _ _ _ a _ hi ha, h⟩

theorem storeExclusive_cases {i : Instr} {rd rt rn : Reg} {offset : Nat} {size : Size} {s t : State}
    (hi : storeForm i = some (rd, rt, rn, offset, size)) (h : storeExclusive rd rt rn offset size s = .next t) :
    Executed i s t := by
  rcases storeExclusive_eq_next h with h | ⟨⟨a, s'⟩, intact, ha, hp, h⟩
  · exact .inl h
  · obtain ⟨-, -, -, n, h1, h2, rfl⟩ := exclusiveAddress_eq_next ha
    have hn : exclusiveForm i ≠ none := by cases i <;> simp_all [exclusiveForm, storeForm, loadForm]
    exact .inr ⟨_, n, ⟨h1, h2, fun h => absurd h hn⟩, .store _ _ _ _ _ a intact _ hi ha hp, h⟩

/-- Where `exec` answers a next state the instruction held, or retired with one of the updates of `Retires`. -/
theorem exec_cases {i : Instr} {s t : State} (h : exec i s = .next t) : Executed i s t := by
  have plain : ∀ {update}, Retires i s update → retire update s = .next t → Executed i s t :=
    fun hr h => .inr ⟨_, s.draws, Draws.none i s, hr, h⟩
  cases i with
  | dsb option =>
    obtain ⟨-, h⟩ := guarded_eq_next h
    split at h
    · exact plain (.dsb option rfl (by simp_all)) h
    · exact .inl (by cases h; rfl)
  | dmb option => exact plain (.dmb option rfl) (guarded_eq_next h).2
  | isb option => exact plain (.isb option rfl) (guarded_eq_next h).2
  | strex rd rt rn imm8 =>
    exact storeExclusive_cases (by simp [storeForm, wordOffset_eq]) (guarded_eq_next h).2
  | ldrex rt rn imm8 => exact loadExclusive_cases (by simp [loadForm, wordOffset_eq]) (guarded_eq_next h).2
  | strexb rd rt rn => exact storeExclusive_cases rfl (guarded_eq_next h).2
  | strexh rd rt rn => exact storeExclusive_cases rfl (guarded_eq_next h).2
  | ldrexb rt rn => exact loadExclusive_cases rfl (guarded_eq_next h).2
  | ldrexh rt rn => exact loadExclusive_cases rfl (guarded_eq_next h).2

/-- A Load-Exclusive with accepted operands is its shared meaning. -/
theorem exec_load {i : Instr} {rt rn : Reg} {offset : Nat} {size : Size} (s : State)
    (hi : loadForm i = some (rt, rn, offset, size)) (hw : i.wellFormed = true) :
    exec i s = loadExclusive rt rn offset size s := by
  cases i <;> simp [loadForm] at hi <;> obtain ⟨rfl, rfl, rfl, rfl⟩ := hi
  · simp only [exec, execLdrex]; rw [guarded_of_ok s _ hw, wordOffset_eq]
  · simp only [exec, execLdrexb]; rw [guarded_of_ok s _ hw]; rfl
  · simp only [exec, execLdrexh]; rw [guarded_of_ok s _ hw]; rfl

/-- A Store-Exclusive with accepted operands is its shared meaning. -/
theorem exec_store {i : Instr} {rd rt rn : Reg} {offset : Nat} {size : Size} (s : State)
    (hi : storeForm i = some (rd, rt, rn, offset, size)) (hw : i.wellFormed = true) :
    exec i s = storeExclusive rd rt rn offset size s := by
  cases i <;> simp [storeForm] at hi <;> obtain ⟨rfl, rfl, rfl, rfl, rfl⟩ := hi
  · simp only [exec, execStrex]; rw [guarded_of_ok s _ hw, wordOffset_eq]
  · simp only [exec, execStrexb]; rw [guarded_of_ok s _ hw]; rfl
  · simp only [exec, execStrexh]; rw [guarded_of_ok s _ hw]; rfl

/-- Every update of `Retires` leaves the registers and the parameters of the processor alone. -/
theorem Retires.frame {i : Instr} {s : State} {update : Proc → Proc} (h : Retires i s update) (p : Proc) :
    (update p).regs = p.regs ∧ (update p).id = p.id ∧ (update p).exclObserved = p.exclObserved ∧
      (update p).finish = p.finish ∧ (update p).seq = p.seq := by
  cases h <;> simp

end Sys2Proof.Machine
end

