-- ==== Sys2Proof/Laws/Fetch.lean ====
section
/-! SUPPORT. What a fetch can answer, and the halfwords the decoder is given. -/

namespace Sys2Proof.Machine

/-- The bits of a halfword from its two bytes (R56). -/
theorem halfOfBytes_getLsbD (low high : Byte) (i : Nat) :
    (halfOfBytes low high).getLsbD i = if i < 8 then low.getLsbD i else high.getLsbD (i - 8) :=
  BitVec.getLsbD_append

/-- The bytes of a halfword are those it was made of. -/
theorem bytesOfHalf_halfOfBytes (low high : Byte) : bytesOfHalf (halfOfBytes low high) = [low, high] := by
  have h0 : (halfOfBytes low high).extractLsb' 0 8 = low := by
    apply BitVec.eq_of_getLsbD_eq; intro i hi
    rw [BitVec.getLsbD_extractLsb', halfOfBytes_getLsbD]; simp [hi]
  have h1 : (halfOfBytes low high).extractLsb' 8 8 = high := by
    apply BitVec.eq_of_getLsbD_eq; intro i hi
    rw [BitVec.getLsbD_extractLsb', halfOfBytes_getLsbD]; simp [hi]
  simp only [bytesOfHalf, h0, h1]

/-- A halfword is made of its bytes. -/
theorem halfOfBytes_extract (h : Half) : halfOfBytes (h.extractLsb' 0 8) (h.extractLsb' 8 8) = h := by
  apply BitVec.eq_of_getLsbD_eq; intro i hi; rw [halfOfBytes_getLsbD]; split
  · simp; omega
  · rw [BitVec.getLsbD_extractLsb', show 8 + (i - 8) = i by omega]; simp; omega

/-- Where no overwritten byte is admitted, the fetched byte is memory's. -/
theorem fetchByte_current {a : Nat} {s : State} (h : staleBytes s a = []) : fetchByte a s = (s.mem.read a, s) := by
  simp [fetchByte, h]

/-- A fetch draws, and changes nothing else. -/
theorem fetchByte_state (a : Nat) (s : State) : ∃ n, (fetchByte a s).2 = { s with draws := n } := by
  unfold fetchByte; split
  · exact ⟨s.draws, rfl⟩
  · exact ⟨_, rfl⟩

/-- A fetched byte is memory's or one that R93 admits. -/
theorem fetchByte_cases (a : Nat) (s : State) :
    (fetchByte a s).1 = s.mem.read a ∨ (fetchByte a s).1 ∈ staleBytes s a := by
  unfold fetchByte
  split
  · exact .inl rfl
  · simp only
    generalize Config.fetchPick s.draws % _ = n
    rw [List.getD_eq_getElem?_getD]
    cases hn : (s.mem.read a :: staleBytes s a)[n]? with
    | none => simp
    | some b => simpa using List.mem_of_getElem? hn

/-- A halfword fetched where nothing else is admitted is memory's own. -/
theorem fetchHalf_current {a : Word} {s : State} (h1 : a.toNat % 2 = 0) (h2 : isXN (regionOf a.toNat) = false)
    (h0 : s.mapsAdmitted s.cpu.mapEpoch = [s.map]) (h3 : populated s.map a.toNat 2 = true)
    (h4 : fetchWaits s a.toNat = false) (h5 : staleBytes s (place s.map a.toNat) = [])
    (h6 : staleBytes s (place s.map (a.toNat + 1)) = []) :
    fetchHalf a s = .next (some (s.byteAt s.map (a.toNat + 1) ++ s.byteAt s.map a.toNat, s)) := by
  simp [fetchHalf, h1, h2, chooseMap_settled h0, h3, h4, fetchByte_current h5, fetchByte_current h6, halfOfBytes]

/-- A halfword fetch that answers one passed its checks by a map that is admitted, and each of its bytes is memory's or
one that R93 admits; it changed only the count of draws. -/
theorem fetchHalf_eq_next {a : Word} {s t : State} {h : Half} (hf : fetchHalf a s = .next (some (h, t))) :
    isXN (regionOf a.toNat) = false ∧ (∃ n, t = { s with draws := n }) ∧
      ∃ map ∈ s.mapsAdmitted s.cpu.mapEpoch, ∃ low high, h = halfOfBytes low high ∧
        (low = s.byteAt map a.toNat ∨ low ∈ staleBytes s (place map a.toNat)) ∧
        (high = s.byteAt map (a.toNat + 1) ∨ high ∈ staleBytes s (place map (a.toNat + 1))) := by
  unfold fetchHalf at hf
  obtain ⟨hm, -, n, -, -, h2⟩ := chooseMap_cases (fun _ => true) s.cpu.mapEpoch s
  simp only [h2] at hf
  split_ifs at hf with _ hx
  · cases hf
  · simp only [Host.Outcome.next.injEq, Option.some.injEq, Prod.mk.injEq] at hf
    obtain ⟨rfl, rfl⟩ := hf
    have h3 := fetchByte_cases (place (chooseMap (fun _ => true) s.cpu.mapEpoch s).1 a.toNat) { s with draws := n }
    obtain ⟨l, hl⟩ := fetchByte_state (place (chooseMap (fun _ => true) s.cpu.mapEpoch s).1 a.toNat) { s with draws := n }
    rw [hl]
    have h4 := fetchByte_cases (place (chooseMap (fun _ => true) s.cpu.mapEpoch s).1 (a.toNat + 1)) { s with draws := l }
    obtain ⟨m, hm'⟩ := fetchByte_state (place (chooseMap (fun _ => true) s.cpu.mapEpoch s).1 (a.toNat + 1)) { s with draws := l }
    exact ⟨by simpa using hx, ⟨m, hm'⟩, _, hm, _, _, rfl, h3, h4⟩

/-- The fetch of a first halfword answers one as `fetchHalf` does. -/
theorem fetchFirst_eq_next {s : State} {r : Option (Half × State)} :
    fetchFirst s = .next r ↔ fetchHalf s.cpu.pc s = .next r := by
  unfold fetchFirst
  cases fetchHalf s.cpu.pc s with
  | next r' => rfl
  | fault f => rfl
  | refused r' => simp only; split <;> simp

/-- Every address from 0xE0000000 up is XN (R41). -/
theorem lt_of_not_isXN {a : Nat} (h : isXN (regionOf a) = false) : a < 0xE0000000 := by
  unfold isXN regionOf at h
  split_ifs at h <;> simp at h <;> omega

/-- A fetch that answers an instruction changed only the count of draws, and the pc was below the XN regions at the top:
a fetched instruction can always advance it. -/
theorem fetchInstr_eq_next {s t : State} {i : Instr} (hf : fetchInstr s = .next (some (i, t))) :
    s.cpu.pc.toNat < 0xE0000000 ∧ ∃ n, t = { s with draws := n } := by
  obtain ⟨first, h1, hf⟩ := andThen_eq_next.mp hf
  rw [fetchFirst_eq_next] at h1
  rcases first with _ | ⟨hw1, s1⟩
  · cases hf
  · obtain ⟨hx, ⟨n, rfl⟩, -⟩ := fetchHalf_eq_next h1
    refine ⟨lt_of_not_isXN hx, ?_⟩
    simp only at hf
    split_ifs at hf
    obtain ⟨second, h2, hf⟩ := andThen_eq_next.mp hf
    rcases second with _ | ⟨hw2, s2⟩
    · cases hf
    · obtain ⟨-, ⟨m, rfl⟩, -⟩ := fetchHalf_eq_next h2
      simp only at hf
      split at hf
      · cases hf; exact ⟨m, rfl⟩
      · cases hf

/-- A byte that R93 admits beside memory's is on record, and was overwritten after the cell's epoch. -/
theorem staleBytes_mem {s : State} {a : Nat} {b : Byte} (h : b ∈ staleBytes s a) :
    ∃ j, j < s.history.length - s.cpu.epochOf a ∧ s.history[j]? = some (a, b) := by
  simp only [staleBytes, List.mem_map, List.mem_filter, beq_iff_eq] at h
  obtain ⟨c, ⟨hc, ha⟩, rfl⟩ := h
  obtain ⟨j, hj⟩ := List.getElem?_of_mem hc
  rw [List.getElem?_take] at hj
  split_ifs at hj with h
  exact ⟨j, h, by rw [hj, ← ha]⟩

/-- Nothing but memory's byte is admitted where the epoch is now. -/
theorem staleBytes_eq_nil {s : State} {a : Nat} (h : s.history.length ≤ s.cpu.epochOf a) : staleBytes s a = [] := by
  simp [staleBytes, Nat.sub_eq_zero_of_le h]

/-- A write of another agent moves no epoch. -/
@[simp] theorem Proc.observe_epochOf (p : Proc) (who : Nat) (written : Nat × Nat) (cell : Nat) :
    (p.observe who written).epochOf cell = p.epochOf cell := by
  simp [Proc.epochOf]

/-- After an own write from before the latest ISB completes, the epoch of each cell it wrote is now (R87, R93). -/
theorem Proc.le_epochOf_seeOwnWrite {p : Proc} {t : Txn} {written : List Host.Cell} {now : Nat} (h : t.seq < p.isbSeq)
    {c : Host.Cell} (hc : c ∈ written) : now ≤ (p.seeOwnWrite t written now).epochOf c.1 := by
  have key : ∀ l : List Host.Cell, c ∈ l →
      ∃ d, (l.map (fun c => (c.1, now)) ++ p.seen).find? (fun x => x.1 == c.1) = some d ∧ d.2 = now := by
    intro l
    induction l with
    | nil => simp
    | cons x l ih =>
      intro hc
      by_cases hx : x.1 = c.1
      · exact ⟨(x.1, now), by simp [hx], rfl⟩
      · rcases List.mem_cons.mp hc with rfl | hc
        · exact absurd rfl hx
        · obtain ⟨d, h1, h2⟩ := ih hc
          refine ⟨d, ?_, h2⟩
          simp only [List.map_cons, List.cons_append, List.find?_cons, show (x.1 == c.1) = false by simpa using hx]
          exact h1
  obtain ⟨d, h1, h2⟩ := key written hc
  simp only [Proc.seeOwnWrite, if_pos h, Proc.epochOf, h1]
  omega

end Sys2Proof.Machine
end

