-- ==== Sys2Proof/Laws/Pool.lean ====
section
/-! SUPPORT. What completing a transaction can do, said once. -/

namespace Sys2Proof.Machine

/-- `s'` differs from `s` in the devices' record and the count of draws alone. -/
def Quiet (s s' : State) : Prop := s' = { s with devices := s'.devices, draws := s'.draws }

theorem Quiet.refl (s : State) : Quiet s s := rfl

theorem Quiet.trans {s s' s'' : State} (h : Quiet s s') (h' : Quiet s' s'') : Quiet s s'' := by
  unfold Quiet at *
  rw [h', h]

theorem Quiet.fields {s s' : State} (h : Quiet s s') :
    s'.cpu = s.cpu ∧ s'.others = s.others ∧ s'.masters = s.masters ∧ s'.mem = s.mem ∧ s'.history = s.history ∧
      s'.plat = s.plat ∧ s'.agenda = s.agenda ∧ s'.map = s.map ∧ s'.mapHistory = s.mapHistory := by
  rw [h]; simp

theorem Quiet.draws {s : State} {n : Nat} : Quiet s { s with draws := n } := rfl

/-- A switch of the map goes to the map of a rule and records the one replaced, or leaves both. -/
theorem State.switchMap_cases (s : State) (a : Nat) (size : Size) (v : Word) :
    ((s.switchMap a size v).map = s.map ∧ (s.switchMap a size v).mapHistory = s.mapHistory) ∨
      ∃ r ∈ s.plat.mapSwitch, (s.switchMap a size v).map = r.map ∧
        (s.switchMap a size v).mapHistory = s.map :: s.mapHistory := by
  unfold State.switchMap
  split
  · exact .inl ⟨rfl, rfl⟩
  · rename_i r hr
    exact .inr ⟨r, List.mem_of_find?_eq_some hr, rfl, rfl⟩

/-- The bytes from `lo` up, as many as an access of `size` has, were written by agent `who` by the map given, to memory or
to a device, and observed; and the map was switched where the write is one that does so. -/
def Wrote (map : MemoryMap) (who lo : Nat) (size : Size) (s s' : State) : Prop :=
  ∃ s₀ bs v, Quiet s s₀ ∧ (bs = [] ∨ bs.length = size.bytes) ∧
    s' = ((s₀.pokes map lo bs).observeWrite who (lo, size.bytes)).switchMap lo size v

theorem Wrote.fields {map : MemoryMap} {who lo : Nat} {size : Size} {s s' : State} (h : Wrote map who lo size s s') :
    s'.cpu = s.cpu.observe who (lo, size.bytes) ∧ s'.others = s.others.map (Proc.observe who (lo, size.bytes)) ∧
      s'.masters = s.masters ∧ s'.plat = s.plat ∧ s'.agenda = s.agenda ∧
      s.history.length ≤ s'.history.length := by
  obtain ⟨s₀, bs, v, hq, -, rfl⟩ := h
  obtain ⟨h1, h2, h3, h4, h5, h6, h7, -⟩ := hq.fields
  simp [h1, h2, h3, h5, h6, h7]

theorem Wrote.map {map : MemoryMap} {who lo : Nat} {size : Size} {s s' : State} (h : Wrote map who lo size s s') :
    (s'.map = s.map ∧ s'.mapHistory = s.mapHistory) ∨
      ∃ r ∈ s.plat.mapSwitch, s'.map = r.map ∧ s'.mapHistory = s.map :: s.mapHistory := by
  obtain ⟨s₀, bs, v, hq, -, rfl⟩ := h
  obtain ⟨-, -, -, -, -, h6, -, h8, h9⟩ := hq.fields
  have := State.switchMap_cases ((s₀.pokes map lo bs).observeWrite who (lo, size.bytes)) lo size v
  simpa [h6, h8, h9] using this

/-- A write keeps memory canonical and changes no cell but those of its bytes. -/
theorem Wrote.memory {map : MemoryMap} {who lo : Nat} {size : Size} {s s' : State} (h : Wrote map who lo size s s')
    (hm : s.mem.wf) :
    s'.mem.wf ∧ ∀ c, (∀ j, j < size.bytes → c ≠ place map (lo + j)) → s'.mem.read c = s.mem.read c := by
  obtain ⟨s₀, bs, v, hq, hbs, rfl⟩ := h
  have hmem : s₀.mem = s.mem := hq.fields.2.2.2.1
  have hm0 : s₀.mem.wf := hmem ▸ hm
  refine ⟨by simpa using State.pokes_wf hm0 map lo bs, fun c hc => ?_⟩
  rw [State.switchMap_mem, State.observeWrite_mem, State.pokes_read_of_ne hm0, hmem]
  rcases hbs with rfl | h
  · simp
  · rw [h]; exact hc

/-- Cells of memory after a run of bytes was written are cells that were there or those of the run. -/
theorem State.mem_pokes {s : State} {map : MemoryMap} {a : Nat} {bs : List Byte} {c : Host.Cell}
    (h : c ∈ (s.pokes map a bs).mem) : c ∈ s.mem ∨ ∃ j, j < bs.length ∧ c.1 = place map (a + j) := by
  induction bs generalizing s a with
  | nil => exact .inl h
  | cons b bs ih =>
    rcases ih h with h | ⟨j, hj, h⟩
    · rcases Memory.mem_write h with ⟨rfl, -⟩ | h
      · exact .inr ⟨0, by simp, by simp⟩
      · exact .inl h
    · exact .inr ⟨j + 1, by simpa using hj, by rw [h]; congr 1; omega⟩

/-- A map within the storage shows no cell outside it at an address of the address space. -/
theorem place_inRange {map : MemoryMap} {a : Nat} (h : ∀ b ∈ map, b.store + b.size ≤ 2 ^ 32) (ha : a < 2 ^ 32) :
    place map a < 2 ^ 32 := by
  unfold place
  split
  · exact ha
  · rename_i b hb
    have h1 := h b (List.mem_of_find?_eq_some hb)
    have h2 := List.find?_some hb
    simp only [decide_eq_true_eq] at h2
    omega

theorem Wrote.inRange {map : MemoryMap} {who lo : Nat} {size : Size} {s s' : State} (h : Wrote map who lo size s s')
    (hb : lo + size.bytes ≤ 2 ^ 32) (hmap : ∀ b ∈ map, b.store + b.size ≤ 2 ^ 32) (hm : ∀ c ∈ s.mem, c.1 < 2 ^ 32) :
    ∀ c ∈ s'.mem, c.1 < 2 ^ 32 := by
  obtain ⟨s₀, bs, v, hq, hbs, rfl⟩ := h
  intro c hc
  rw [State.switchMap_mem, State.observeWrite_mem] at hc
  rcases State.mem_pokes hc with hc | ⟨j, hj, hc⟩
  · exact hm c (hq.fields.2.2.2.1 ▸ hc)
  · rw [hc]
    refine place_inRange hmap ?_
    rcases hbs with rfl | hl
    · simp at hj
    · omega

theorem directRead_quiet {map : MemoryMap} {a : Nat} {size : Size} {s : State} {r : Word × State}
    (h : directRead map a size s = .next r) : Quiet s r.2 := by
  rcases (directRead_eq_next h).2 with ⟨-, rfl⟩ | ⟨-, rfl⟩
  · exact Quiet.refl s
  · rfl

theorem memRead_quiet {map : MemoryMap} {a : Word} {size : Size} {s : State} {r : Word × State}
    (h : memRead map a size s = .next r) : Quiet s r.2 := by
  obtain ⟨_, -, h⟩ := andThen_eq_next.mp h
  split at h
  · obtain ⟨r', hr, h⟩ := andThen_eq_next.mp h
    cases h
    exact directRead_quiet (r := r') hr
  · exact directRead_quiet h

theorem directWrite_wrote {map : MemoryMap} {who a : Nat} {size : Size} {v : Word} {s s₀ t : State} (hq : Quiet s s₀)
    (h : directWrite map who a size v s₀ = .next t) : Wrote map who a size s t := by
  rcases (directWrite_eq_next h).2 with ⟨-, rfl⟩ | ⟨-, rfl⟩
  · exact ⟨s₀, bytesOf size v, v, hq, .inr (by simp), rfl⟩
  · exact ⟨{ s₀ with devices := ⟨BitVec.ofNat 32 a, size, some (size.keep v)⟩ :: s₀.devices }, [], v, hq.trans rfl,
      .inl rfl, rfl⟩

/-- The location of an alias access lies inside the address space, whatever the address. -/
theorem aliasLocation_inRange (plat : Platform) (a : Word) :
    (aliasLocation plat a.toNat).1 + (aliasLocation plat a.toNat).2.bytes ≤ 2 ^ 32 := by
  have hw : ∀ w : Size, w.bytes ≤ 4 := fun w => by cases w <;> decide
  have hb := hw plat.bbRmwWidth
  have ha := a.isLt
  generalize hn : plat.bbRmwWidth.bytes = n at hb
  unfold aliasLocation target
  simp only [hn]
  split_ifs
  · simp only [show Size.byte.bytes = 1 from rfl]; omega
  · simp only [hn]
    generalize (1073741824 + (a.toNat - 1107296256) / 32) % n = m
    omega

/-- What `MemWrite` answers: the bytes of the access were written, and nothing else. -/
theorem memWrite_wrote {map : MemoryMap} {who : Nat} {a : Word} {size : Size} {v : Word} {s s₀ t : State}
    (hq : Quiet s s₀) (h : memWrite map who a size v s₀ = .next t) :
    Wrote map who (location s.plat a.toNat size).1 (location s.plat a.toNat size).2 s t ∧
      (location s.plat a.toNat size).1 + (location s.plat a.toNat size).2.bytes ≤ 2 ^ 32 := by
  obtain ⟨_, hc, h⟩ := andThen_eq_next.mp h
  have halign := (checkAccess_eq_next.mp hc).1
  have ha := a.isLt
  have hp0 : s₀.plat = s.plat := hq.fields.2.2.2.2.2.1
  unfold location
  split at h <;> rename_i hal
  · obtain ⟨r, hr, h⟩ := andThen_eq_next.mp h
    rw [if_pos hal]
    have hq' := hq.trans (directRead_quiet (r := r) hr)
    have hp : r.2.plat = s.plat := hq'.fields.2.2.2.2.2.1
    unfold aliasWriteBack at h
    rw [hp] at h
    exact ⟨directWrite_wrote hq' h, aliasLocation_inRange s.plat a⟩
  · rw [if_neg hal]
    refine ⟨directWrite_wrote hq h, ?_⟩
    cases size <;> simp only [Size.bytes] at * <;> omega

/-- The location a completing transaction may write: a write back's is the alias location, whatever its address. -/
def Txn.writes (plat : Platform) (t : Txn) : Nat × Size :=
  match t.op with
  | .writeBack _ _ => aliasLocation plat t.addr.toNat
  | .read _ => location plat t.addr.toNat t.size
  | .loadExcl _ => location plat t.addr.toNat t.size
  | .write _ => location plat t.addr.toNat t.size
  | .storeExcl _ _ _ => location plat t.addr.toNat t.size

/-- The bytes a sound transaction touches are those of the location it may write. -/
theorem Txn.footprint_eq_writes {s : State} {epoch : Nat} {t : Txn} (h : t.sound s epoch) (plat : Platform) :
    t.footprint plat = ((t.writes plat).1, (t.writes plat).2.bytes) := by
  obtain ⟨q, op, a, size⟩ := t
  cases op with
  | writeBack old v => simp [Txn.footprint, Txn.writes, Machine.footprint, location, show inAlias a.toNat = true from h.aliasPair rfl]
  | read dest => rfl
  | loadExcl dest => rfl
  | write v => rfl
  | storeExcl v rd intact => rfl

/-- An exclusive access goes on only where the map lets it. -/
theorem exclusiveAccess_eq_next {map : MemoryMap} {t : Txn} {access : Result (Completion × State)}
    {r : Completion × State} (h : exclusiveAccess map t access = .next r) :
    exclusiveAllowed map t.addr.toNat t.size.bytes = true ∧ access = .next r := by
  unfold exclusiveAccess at h
  split at h
  · exact ⟨by assumption, h⟩
  · cases h

/-- What completing a transaction answers: nothing was written and it is done, or is halfway through an alias write; or
its bytes were written and it is done. -/
theorem completeTxn_cases {map : MemoryMap} {who : Nat} {t : Txn} {s s₀ s' : State} {c : Completion}
    (hq₀ : Quiet s s₀) (h : completeTxn map who t s₀ = .next (c, s')) :
    (Quiet s s' ∧ ((∃ v, c = .done (some v)) ∨
      ∃ old v, t.op = .write v ∧ inAlias t.addr.toNat = true ∧ c = .halfway { t with op := .writeBack old v })) ∨
    (t.isWrite = true ∧ Wrote map who (t.writes s.plat).1 (t.writes s.plat).2 s s' ∧
      (t.writes s.plat).1 + (t.writes s.plat).2.bytes ≤ 2 ^ 32 ∧ ∃ v, c = .done v) := by
  obtain ⟨seq, op, addr, size⟩ := t
  have hp : s₀.plat = s.plat := hq₀.fields.2.2.2.2.2.1
  cases op with
  | read dest =>
    obtain ⟨r, hr, h⟩ := andThen_eq_next.mp h
    cases h
    exact .inl ⟨hq₀.trans (memRead_quiet hr), .inl ⟨_, rfl⟩⟩
  | loadExcl dest =>
    obtain ⟨r, hr, h⟩ := andThen_eq_next.mp (exclusiveAccess_eq_next h).2
    cases h
    exact .inl ⟨hq₀.trans (memRead_quiet hr), .inl ⟨_, rfl⟩⟩
  | write v =>
    simp only [completeTxn] at h
    split at h
    · rename_i hal
      obtain ⟨_, -, h⟩ := andThen_eq_next.mp h
      obtain ⟨r, hr, h⟩ := andThen_eq_next.mp h
      cases h
      exact .inl ⟨hq₀.trans (directRead_quiet hr), .inr ⟨_, v, rfl, hal, rfl⟩⟩
    · obtain ⟨u, hu, h⟩ := andThen_eq_next.mp h
      cases h
      obtain ⟨hw, hr⟩ := memWrite_wrote hq₀ hu
      exact .inr ⟨rfl, hw, hr, _, rfl⟩
  | writeBack old v =>
    obtain ⟨u, hu, h⟩ := andThen_eq_next.mp h
    cases h
    unfold aliasWriteBack at hu
    rw [hp] at hu
    exact .inr ⟨rfl, directWrite_wrote hq₀ hu, aliasLocation_inRange s.plat addr, _, rfl⟩
  | storeExcl v rd intact =>
    simp only [completeTxn, completeStoreExcl] at h
    have hq : Quiet s (if intact then { s₀ with draws := s₀.draws + 1 } else s₀) :=
      hq₀.trans (by split <;> rfl)
    split at h
    · cases h
      exact .inl ⟨hq, .inl ⟨_, rfl⟩⟩
    · obtain ⟨u, hu, h⟩ := andThen_eq_next.mp (exclusiveAccess_eq_next h).2
      cases h
      obtain ⟨hw, hr⟩ := memWrite_wrote hq hu
      exact .inr ⟨rfl, hw, hr, _, rfl⟩

/-- A read of a location that a map has something at is answered. -/
theorem directRead_next {map : MemoryMap} {a : Nat} {size : Size} (s : State) (h : populated map a size.bytes = true) :
    ∃ r, directRead map a size s = .next r := by
  simp only [directRead, h, if_true]; split <;> exact ⟨_, rfl⟩

/-- A write of a location that a map has something at is answered. -/
theorem directWrite_next {map : MemoryMap} {who a : Nat} {size : Size} {v : Word} (s : State)
    (h : populated map a size.bytes = true) : ∃ t, directWrite map who a size v s = .next t := by
  simp [directWrite, h]

/-- `MemRead` of an access that passes its checks is answered. -/
theorem memRead_next {map : MemoryMap} {a : Word} {size : Size} (s : State) (h1 : a.toNat % size.bytes = 0)
    (h2 : inAlias a.toNat = true → size = .word) (h3 : reachable s.plat a.toNat size map = true) :
    ∃ r, memRead map a size s = .next r := by
  simp only [memRead, checkAccess_next h1 h2, andThen_next]
  unfold reachable location at h3
  split
  · rename_i hal
    rw [if_pos hal] at h3
    obtain ⟨r, hr⟩ := directRead_next s h3
    simp [aliasRead, hr]
  · rename_i hal
    rw [if_neg hal] at h3
    exact directRead_next s h3

/-- `MemWrite` outside the aliases of an access that passes its checks is answered. -/
theorem memWrite_next {map : MemoryMap} {who : Nat} {a v : Word} {size : Size} (s : State) (h1 : a.toNat % size.bytes = 0)
    (h2 : inAlias a.toNat = false) (h3 : populated map a.toNat size.bytes = true) :
    ∃ t, memWrite map who a size v s = .next t := by
  simp only [memWrite, checkAccess_next h1 (by simp [h2]), andThen_next, h2, Bool.false_eq_true, if_false]
  exact directWrite_next s h3

/-- Exclusive access is allowed only where there is something. -/
theorem populated_of_exclusiveAllowed {map : MemoryMap} {a n : Nat} (h : exclusiveAllowed map a n = true) :
    populated map a n = true := populated_of_plainStorage (plainStorage_of_exclusiveAllowed h)

/-- A sound transaction completes by every map that gives it a meaning: its checks were made when it was issued (R168). -/
theorem completeTxn_next {map : MemoryMap} {who epoch : Nat} {t : Txn} {s s₀ : State} (hp : s₀.plat = s.plat)
    (h : t.sound s epoch) (hm : t.permitted s.plat map = true) : ∃ r, completeTxn map who t s₀ = .next r := by
  obtain ⟨q, op, a, size⟩ := t
  obtain ⟨h1, h2, h3, -⟩ := h
  have hw := size_bytes_pos size
  cases op <;> simp only [Txn.permitted] at hm h1 h2
  case read dest =>
    obtain ⟨r, hr⟩ := memRead_next s₀ h1 h2 (hp ▸ hm)
    simp [completeTxn, hr]
  case loadExcl dest =>
    obtain ⟨r, hr⟩ := memRead_next s₀ h1 h2 (map := map)
      (by simp [reachable, location, inAlias_of_exclusiveAllowed hm hw, populated_of_exclusiveAllowed hm])
    simp [completeTxn, exclusiveAccess, hm, hr]
  case write v =>
    unfold reachable location at hm
    simp only [completeTxn]
    split at hm <;> rename_i hal
    · obtain ⟨r, hr⟩ := directRead_next s₀ hm
      simp [hal, checkAccess_next h1 h2, aliasRead, hp, hr]
    · obtain ⟨r, hr⟩ := memWrite_next (who := who) (v := v) s₀ h1 (by simpa using hal) hm
      simp [hal, hr]
  case writeBack old v =>
    have hal : inAlias a.toNat = true := h3 rfl
    simp only [reachable, location, hal, if_true] at hm
    obtain ⟨r, hr⟩ := directWrite_next (who := who) (v := replaceBit old (aliasBit s.plat a.toNat) v) s₀ hm
    simp [completeTxn, aliasWriteBack, hp, hr]
  case storeExcl v rd intact =>
    obtain ⟨r, hr⟩ := memWrite_next (who := who) (v := v)
      (if intact then { s₀ with draws := s₀.draws + 1 } else s₀) h1 (inAlias_of_exclusiveAllowed hm hw)
      (populated_of_exclusiveAllowed hm)
    simp only [completeTxn, completeStoreExcl]
    split
    · exact ⟨_, rfl⟩
    · simp [exclusiveAccess, hm, hr]

/-- What completing the `k`-th transaction of the processor in focus answers: nothing moved, or it completed by a map that
is admitted. -/
theorem completeAt_cases {k : Nat} {s t : State} (h : completeAt k s = .next t) :
    t = s ∨ ∃ u c s' map n, s.cpu.pool[k]? = some u ∧ mayComplete s.plat s.cpu u = true ∧
      map ∈ s.mapsAdmitted s.cpu.mapEpoch ∧
      ((∃ map ∈ s.mapsAdmitted s.cpu.mapEpoch, u.permitted s.plat map = true) → u.permitted s.plat map = true) ∧
      completeTxn map s.cpu.id u { s with draws := n } = .next (c, s') ∧
      t = { s' with cpu := (s'.cpu.settleTxn k u c).seeOwnWrite u (writtenSince s s') s'.history.length } := by
  unfold completeAt at h
  split at h
  · exact .inl (by cases h; rfl)
  · rename_i u hu
    split_ifs at h with hm
    · obtain ⟨⟨c, s'⟩, hr, h⟩ := andThen_eq_next.mp h
      obtain ⟨h1, h0, n, -, -, h2⟩ := chooseMap_cases (u.permitted s.plat) s.cpu.mapEpoch s
      rw [h2] at hr
      exact .inr ⟨u, c, s', _, n, hu, hm, h1, h0, hr, by cases h; rfl⟩
    · exact .inl (by cases h; rfl)

/-- A transaction that may complete does so by a map that is admitted, one that gives it a meaning where there is one. -/
theorem completeAt_next {k : Nat} {s : State} {u : Txn} (hk : s.cpu.pool[k]? = some u)
    (hm : mayComplete s.plat s.cpu u = true) :
    ∃ map n, map ∈ s.mapsAdmitted s.cpu.mapEpoch ∧
      ((∃ map ∈ s.mapsAdmitted s.cpu.mapEpoch, u.permitted s.plat map = true) → u.permitted s.plat map = true) ∧
      s.draws ≤ n ∧ (s.mapsAdmitted s.cpu.mapEpoch = [s.map] → n = s.draws) ∧
      completeAt k s = andThen (completeTxn map s.cpu.id u { s with draws := n }) fun r => .next { r.2 with
        cpu := (r.2.cpu.settleTxn k u r.1).seeOwnWrite u (writtenSince s r.2) r.2.history.length } := by
  obtain ⟨h1, h0, n, hn, hs, h2⟩ := chooseMap_cases (u.permitted s.plat) s.cpu.mapEpoch s
  exact ⟨_, n, h1, h0, hn, hs, by simp only [completeAt, hk, hm, if_true, h2]⟩

/-- Completing a transaction of the processor in focus changes that processor by `settleTxn` alone: its own writes are
not observed by it (R152). -/
theorem completeTxn_own_cpu {map : MemoryMap} {t : Txn} {s s₀ s' : State} {c : Completion} (hq : Quiet s s₀)
    (h : completeTxn map s.cpu.id t s₀ = .next (c, s')) : s'.cpu = s.cpu := by
  rcases completeTxn_cases hq h with ⟨hq, -⟩ | ⟨-, hw, -⟩
  · exact hq.fields.1
  · rw [hw.fields.1, Proc.observe_own]

/-- The bytes written go on record, each with its cell. -/
theorem State.pokes_history (s : State) (map : MemoryMap) (a : Nat) (bs : List Byte) :
    ∃ w, (s.pokes map a bs).history = w ++ s.history ∧ ∀ j, j < bs.length → ∃ c ∈ w, c.1 = place map (a + j) := by
  induction bs generalizing s a with
  | nil => exact ⟨[], rfl, by simp⟩
  | cons b bs ih =>
    obtain ⟨w, h1, h2⟩ := ih (s.poke (place map a) b) (a + 1)
    refine ⟨w ++ [(place map a, s.mem.read (place map a))], by simp [State.pokes, h1], fun j hj => ?_⟩
    cases j with
    | zero => exact ⟨_, List.mem_append_right _ (List.mem_singleton_self _), rfl⟩
    | succ j =>
      obtain ⟨c, hc, e⟩ := h2 j (by simpa using hj)
      exact ⟨c, by simp [hc], by rw [e]; congr 1; omega⟩

/-- The fields of a processor that a completion leaves alone. -/
theorem Proc.settleTxn_frame (p : Proc) (k : Nat) (t : Txn) (c : Completion) :
    (p.settleTxn k t c).id = p.id ∧ (p.settleTxn k t c).exclObserved = p.exclObserved ∧
      (p.settleTxn k t c).finish = p.finish ∧ (p.settleTxn k t c).pc = p.pc ∧ (p.settleTxn k t c).tag = p.tag ∧
      (p.settleTxn k t c).seq = p.seq ∧ (p.settleTxn k t c).ifetchEpoch = p.ifetchEpoch ∧
      (p.settleTxn k t c).isbSeq = p.isbSeq ∧ (p.settleTxn k t c).seen = p.seen ∧
      (p.settleTxn k t c).mapEpoch = p.mapEpoch := by
  cases c with
  | halfway t' => simp [Proc.settleTxn]
  | done v => simp only [Proc.settleTxn]; split <;> simp

/-- The pool and the record of DMBs after a completion. -/
theorem Proc.settleTxn_pool (p : Proc) (k : Nat) (t : Txn) (c : Completion) :
    (p.settleTxn k t c).pool = (match c with | .halfway t' => p.pool.set k t' | .done _ => p.pool.eraseIdx k) ∧
      (p.settleTxn k t c).dmbs = (match c with
        | .halfway _ => p.dmbs
        | .done _ => p.dmbs.filter (fun d => (p.pool.eraseIdx k).any (fun u => decide (u.seq < d)))) := by
  cases c with
  | halfway t' => simp [Proc.settleTxn]
  | done v => simp only [Proc.settleTxn]; split <;> simp

/-- A completion writes no register but the transaction's destination. -/
theorem Proc.settleTxn_reg (p : Proc) (k : Nat) (t : Txn) (c : Completion) (r : Reg) (h : t.dest ≠ some r) :
    (p.settleTxn k t c).reg r = p.reg r := by
  cases c with
  | halfway t' => rfl
  | done v =>
    simp only [Proc.settleTxn]
    split
    · rename_i r' v' hd
      rw [Proc.setReg_reg_of_ne _ _ _ _ (fun e => h (by rw [hd, e]))]
      rfl
    · rfl

/-- The only outstanding transaction may complete. -/
theorem mayComplete_single {plat : Platform} {p : Proc} {u : Txn} (h : p.pool = [u]) :
    mayComplete plat p u = true := by
  simp [mayComplete, keepsPair, betweenHalves, h, mustPrecede]

/-- A transaction that another outstanding one must precede does not complete (R91). -/
theorem completeAt_blocked {s : State} {k : Nat} {old young : Txn} (hk : s.cpu.pool[k]? = some young)
    (ho : old ∈ s.cpu.pool) (hp : mustPrecede s.plat s.cpu.dmbs old young = true) : completeAt k s = .next s := by
  unfold completeAt; rw [hk]; simp only
  rw [if_neg]
  simp only [mayComplete, Bool.and_eq_true, List.all_eq_true, not_and, not_forall]
  intro _
  exact ⟨old, ho, by simp [hp]⟩

/-- With nothing outstanding there is nothing to settle. -/
theorem settleFor_nil (fuel : Nat) (s : State) (h : s.cpu.pool = []) : settleFor fuel s = .next s := by
  cases fuel <;> simp [settleFor, h]

/-- One outstanding transaction that is no alias write is settled by completing it. -/
theorem settle_single {s t : State} {u : Txn} (hp : s.cpu.pool = [u]) (h : completeAt 0 s = .next t)
    (ht : t.cpu.pool = []) : settle s = .next t := by
  simp only [settle, hp, List.length_singleton, settleFor, List.findIdx?_cons, mayComplete_single hp, if_true, h,
    andThen_next]
  simp [ht]

/-- The transaction of a plain access that passed its checks is sound. -/
theorem PlainAccess.txn_sound {access : PlainAccess} {s s' : State} {epoch : Nat} (seq : Nat) (dest : Option Reg)
    (h : admitPlain epoch access.addr access.size s = .next s') : (access.txn seq dest).sound s epoch := by
  obtain ⟨h1, h2, h3, -⟩ := admitPlain_eq_next h
  unfold PlainAccess.txn
  split <;> exact ⟨h1, h2, by simp [Txn.isWriteBack], h3⟩

/-- A plain access of the processor in focus waits, or joins its pool, sound. -/
theorem issuePlain_cases {access : PlainAccess} {dest : Option Reg} {s t : State} (h : issuePlain access dest s = .next t) :
    t = s ∨ ∃ n, s.draws ≤ n ∧ (access.txn s.cpu.seq dest).sound s s.cpu.mapEpoch ∧
      t = { s with draws := n, cpu := { s.cpu with
        seq := s.cpu.seq + 1, pool := s.cpu.pool ++ [access.txn s.cpu.seq dest] } } := by
  unfold issuePlain at h
  split at h
  · exact .inl (by cases h; rfl)
  · obtain ⟨s', hs, h⟩ := andThen_eq_next.mp h
    obtain ⟨-, -, -, n, hn, -, rfl⟩ := admitPlain_eq_next hs
    exact .inr ⟨n, hn, PlainAccess.txn_sound _ _ hs, by cases h; rfl⟩

/-- A bus master waits, or its next listed access joins its pool, sound. -/
theorem masterIssue_cases {m : Nat} {s t : State} (h : masterIssue m s = .next t) :
    t = s ∨ ∃ master access rest n, s.masters[m]? = some master ∧ master.todo = access :: rest ∧ s.draws ≤ n ∧
      (access.txn master.seq none).sound s 0 ∧
      t = { s with draws := n, masters := s.masters.set m { master with
        todo := rest, seq := master.seq + 1, pool := master.pool ++ [access.txn master.seq none] } } := by
  unfold masterIssue at h
  split at h
  · exact .inl (by cases h; rfl)
  · rename_i master hm
    split at h
    · exact .inl (by cases h; rfl)
    · rename_i access rest ht
      split at h
      · exact .inl (by cases h; rfl)
      · obtain ⟨s', hs, h⟩ := andThen_eq_next.mp h
        obtain ⟨-, -, -, n, hn, -, rfl⟩ := admitPlain_eq_next hs
        exact .inr ⟨master, access, rest, n, hm, ht, hn, PlainAccess.txn_sound _ _ hs, by
          cases h; simp only [Master.issueNext, ht]⟩

/-- What completing a bus master's transaction answers: nothing moved, or it completed by a map that is admitted. -/
theorem masterComplete_cases {m k : Nat} {s t : State} (h : masterComplete m k s = .next t) :
    t = s ∨ ∃ master u c s' map n, s.masters[m]? = some master ∧ master.pool[k]? = some u ∧ map ∈ s.mapsAdmitted 0 ∧
      completeTxn map master.id u { s with draws := n } = .next (c, s') ∧
      t = { s' with masters := s'.masters.set m (master.settleTxn k u c) } := by
  unfold masterComplete at h
  split at h
  · exact .inl (by cases h; rfl)
  · rename_i master hm
    split at h
    · exact .inl (by cases h; rfl)
    · rename_i u hu
      split_ifs at h
      · obtain ⟨⟨c, s'⟩, hc, h⟩ := andThen_eq_next.mp h
        obtain ⟨h1, -, n, -, -, h2⟩ := chooseMap_cases (u.permitted s.plat) 0 s
        rw [h2] at hc
        exact .inr ⟨master, u, c, s', _, n, hm, hu, h1, hc, by cases h; rfl⟩
      · exact .inl (by cases h; rfl)

end Sys2Proof.Machine
end

