-- ==== Sys2Proof/Laws/Invariant.lean ====
section
/-! SUPPORT. The pieces of the invariant: time passing, an observed write and a completion keep a processor's part. -/

namespace Sys2Proof.Machine

/-- No transaction must precede one that is not younger. -/
theorem mustPrecede_of_le (plat : Platform) (dmbs : List Nat) {t t' : Txn} (h : t.seq ≤ t'.seq) :
    mustPrecede plat dmbs t' t = false := by
  simp [mustPrecede]; omega

/-- The invariant of the processor in focus. -/
theorem State.Inv.cpu {s : State} (h : s.Inv) : s.cpu.Inv s := h.procs s.cpu (by simp [State.procs])

/-- `s'` has the parameters of `s`, and its records are those of `s` with more on top. -/
structure Later (s s' : State) : Prop where
  plat : s'.plat = s.plat
  history : s.history.length ≤ s'.history.length
  mapHistory : s.mapHistory.length ≤ s'.mapHistory.length
  lasting : ∀ epoch, epoch ≤ s.mapHistory.length → ∀ map ∈ s.lastingMaps epoch, map ∈ s'.lastingMaps epoch

theorem Later.of_eq {s s' : State} (h1 : s'.plat = s.plat) (h2 : s'.history = s.history) (h3 : s'.map = s.map)
    (h4 : s'.mapHistory = s.mapHistory) : Later s s' :=
  ⟨h1, by rw [h2], by rw [h4], fun _ _ _ h => by simpa only [State.lastingMaps, h3, h4] using h⟩

theorem Quiet.later {s s' : State} (h : Quiet s s') : Later s s' := by
  obtain ⟨-, -, -, -, h5, h6, -, h8, h9⟩ := h.fields
  exact Later.of_eq h6 h5 h8 h9

theorem Wrote.later {map : MemoryMap} {who lo : Nat} {size : Size} {s s' : State} (h : Wrote map who lo size s s') :
    Later s s' := by
  obtain ⟨-, -, -, h4, -, h6⟩ := h.fields
  rcases h.map with ⟨h7, h8⟩ | ⟨r, -, -, h8⟩
  · exact ⟨h4, h6, by rw [h8], fun _ _ _ h => by simpa only [State.lastingMaps, h7, h8] using h⟩
  · refine ⟨h4, h6, by simp [h8], fun epoch he map h => ?_⟩
    rw [State.lastingMaps] at h ⊢
    rw [h8, List.length_cons, Nat.succ_sub he, List.take_succ_cons]
    exact List.mem_cons_of_mem _ h

/-- A transaction stays sound as time passes. -/
theorem Txn.sound.later {s s' : State} {epoch : Nat} {t : Txn} (h : t.sound s epoch) (hl : Later s s')
    (he : epoch ≤ s.mapHistory.length) : t.sound s' epoch :=
  ⟨h.1, h.2, h.3, h.4.imp fun map h => ⟨hl.lasting epoch he map h.1, by rw [hl.plat]; exact h.2⟩⟩

/-- A transaction stays sound when a write is observed: only `intact` may be lost. -/
theorem Txn.sound.observe {s : State} {epoch : Nat} {t : Txn} (h : t.sound s epoch) (w : Nat × Nat) :
    (t.observe w).sound s epoch := by
  obtain ⟨h1, h2, h3, h4⟩ := h
  exact ⟨by simpa using h1, by simpa using h2, by simpa using h3, by obtain ⟨q, op, a, sz⟩ := t; cases op <;> exact h4⟩

/-- A processor keeps its part as time passes. -/
theorem Proc.Inv.later {s s' : State} {p : Proc} (h : p.Inv s) (hl : Later s s') : p.Inv s' :=
  ⟨h.1, h.2, h.3, h.4, h.5, le_trans h.6 hl.history, fun c hc => le_trans (h.7 c hc) hl.history,
    le_trans h.8 hl.mapHistory, fun t ht => (h.9 t ht).later hl h.8, by rw [hl.plat]; exact h.10⟩

/-- A processor that observes a write keeps its part. -/
theorem Proc.Inv.observe {s : State} {p : Proc} (h : p.Inv s) (who : Nat) (w : Nat × Nat) :
    (p.observe who w).Inv s := by
  unfold Proc.observe
  split
  · obtain ⟨h1, h2, h3, h4, h5, h6, hs, hm, h7, h8⟩ := h
    refine ⟨h1, ?_, ?_, h4, h5, h6, hs, hm, ?_, ?_⟩
    · simpa [List.pairwise_map] using h2
    · simpa using h3
    · simp only [List.mem_map, forall_exists_index, and_imp, forall_apply_eq_imp_iff₂]
      exact fun t ht => (h7 t ht).observe w
    · simp only [List.mem_map, forall_exists_index, and_imp, forall_apply_eq_imp_iff₂, Txn.observe_isWriteBack]
      intro t ht hw t' ht'
      simpa [mustPrecede] using h8 t ht hw t' ht'
  · exact h

/-- Replacing a transaction by one of the same position keeps program order. -/
theorem pool_set_ordered {l : List Txn} {k : Nat} {t t' : Txn} (hk : l[k]? = some t) (hs : t'.seq = t.seq)
    (h : l.Pairwise (fun a b => a.seq < b.seq)) : (l.set k t').Pairwise (fun a b => a.seq < b.seq) := by
  have e : (l.set k t').map Txn.seq = l.map Txn.seq := by
    apply List.ext_getElem?; intro i
    simp only [List.getElem?_map, List.getElem?_set]
    split
    · rename_i hi; subst hi
      split
      · simp [hk, hs]
      · simp_all
    · rfl
  have h' : (l.map Txn.seq).Pairwise (· < ·) := by simpa [List.pairwise_map] using h
  rw [← e] at h'
  exact List.pairwise_map.mp h'

/-- A processor whose transaction completed, or came halfway through an alias write, keeps its part. -/
theorem Proc.Inv.settleTxn {s : State} {k : Nat} {p : Proc} {u : Txn} {c : Completion} (h : p.Inv s)
    (hk : p.pool[k]? = some u) (hm : mayComplete s.plat p u = true)
    (hc : (∃ v, c = .done v) ∨
      ∃ old v, u.op = .write v ∧ inAlias u.addr.toNat = true ∧ c = .halfway { u with op := .writeBack old v }) :
    (p.settleTxn k u c).Inv s := by
  obtain ⟨f1, f2, f3, f4, f5, f6, f7, f8, f9, f10⟩ := Proc.settleTxn_frame p k u c
  obtain ⟨g1, g2⟩ := Proc.settleTxn_pool p k u c
  obtain ⟨h1, h2, h3, h4, h5, h6, hs, hmap, h7, h8⟩ := h
  have hmem := List.mem_of_getElem? hk
  rcases hc with ⟨v, rfl⟩ | ⟨old, v, hop, hal, rfl⟩
  · simp only at g1 g2
    refine ⟨by rw [f4]; exact h1, ?_, ?_, ?_, by rw [f8, f6]; exact h5, by rw [f7]; exact h6,
      by rw [f9]; exact hs, by rw [f10]; exact hmap, ?_, ?_⟩
    · rw [g1]; exact h2.sublist (List.eraseIdx_sublist _ _)
    · rw [g1, f6]; intro t ht; exact h3 t (List.mem_of_mem_eraseIdx ht)
    · rw [g2, f6]; intro d hd; exact h4 d (List.mem_of_mem_filter hd)
    · rw [g1, f10]; intro t ht; exact h7 t (List.mem_of_mem_eraseIdx ht)
    · rw [g1, g2]; intro t ht hw t' ht'
      have := h8 t (List.mem_of_mem_eraseIdx ht) hw t' (List.mem_of_mem_eraseIdx ht')
      revert this
      simp only [mustPrecede, Bool.and_eq_false_iff, Bool.or_eq_false_iff, List.any_eq_false]
      rintro (h | ⟨⟨⟨a, b⟩, c⟩, d⟩)
      · exact .inl h
      · exact .inr ⟨⟨⟨a, fun x hx => b x (List.mem_of_mem_filter hx)⟩, c⟩, d⟩
  · simp only at g1 g2
    have hnw : u.isWriteBack = false := by simp [Txn.isWriteBack, hop]
    simp only [mayComplete, keepsPair, betweenHalves, hnw, Bool.false_or, Bool.and_eq_true, Bool.not_eq_true', List.any_eq_false,
      List.all_eq_true] at hm
    obtain ⟨hno, hfree⟩ := hm
    have hset : ∀ t ∈ p.pool.set k { u with op := .writeBack old v },
        t = { u with op := .writeBack old v } ∨ t ∈ p.pool := fun t ht =>
      (List.mem_or_eq_of_mem_set ht).symm
    refine ⟨by rw [f4]; exact h1, ?_, ?_, ?_, by rw [f8, f6]; exact h5, by rw [f7]; exact h6,
      by rw [f9]; exact hs, by rw [f10]; exact hmap, ?_, ?_⟩
    · rw [g1]; exact pool_set_ordered hk rfl h2
    · rw [g1, f6]; intro t ht
      rcases hset t ht with rfl | ht
      · exact h3 u hmem
      · exact h3 t ht
    · rw [g2, f6]; exact h4
    · rw [g1, f10]; intro t ht
      rcases hset t ht with rfl | ht
      · exact ⟨(h7 u hmem).1, (h7 u hmem).2, fun _ => hal, by simpa [Txn.permitted, hop] using (h7 u hmem).4⟩
      · exact h7 t ht
    · rw [g1, g2]; intro t ht hw t' ht'
      rcases hset t ht with rfl | ht
      · rcases hset t' ht' with rfl | ht'
        · simp [mustPrecede]
        · have hf := hfree t' ht'
          simpa [mustPrecede, Txn.footprint, Txn.memType] using hf
      · exact absurd hw (hno t ht)

/-- A processor that sees a write of its own keeps its part. -/
theorem Proc.Inv.seeOwnWrite {s : State} {p : Proc} (h : p.Inv s) (t : Txn) (written : List Host.Cell) :
    (p.seeOwnWrite t written s.history.length).Inv s := by
  unfold Proc.seeOwnWrite
  split
  · refine ⟨h.1, h.2, h.3, h.4, h.5, h.6, fun c hc => ?_, h.8, h.9, h.10⟩
    rcases List.mem_append.mp hc with hc | hc
    · obtain ⟨d, -, rfl⟩ := List.mem_map.mp hc; exact le_rfl
    · exact h.7 c hc
  · exact h

/-- A map that an access may use is one the machine has had or can switch to. -/
theorem State.mem_maps {s : State} {map : MemoryMap} {epoch : Nat} (h : map ∈ s.mapsAdmitted epoch) : map ∈ s.maps := by
  simp only [State.mapsAdmitted, State.lastingMaps, State.comingMaps, State.maps, List.mem_cons, List.mem_append,
    List.mem_map, List.mem_filter] at *
  rcases h with (h | h) | ⟨r, hr, rfl⟩
  · exact .inl h
  · exact .inr (.inl (List.mem_of_mem_take h))
  · exact .inr (.inr ⟨r, hr.1, rfl⟩)

/-- Completing a transaction keeps the machine's part of the invariant: memory and the maps canonical and in range. -/
theorem completeTxn_memory {map : MemoryMap} {who epoch : Nat} {t : Txn} {s s₀ s' : State} {c : Completion} (hs : s.Inv)
    (hmap : map ∈ s.mapsAdmitted epoch) (hq : Quiet s s₀) (h : completeTxn map who t s₀ = .next (c, s')) :
    s'.mem.wf ∧ (∀ c ∈ s'.mem, c.1 < 2 ^ 32) ∧ (∀ map ∈ s'.maps, MapInRange map) ∧ Later s s' := by
  rcases completeTxn_cases hq h with ⟨hq, -⟩ | ⟨-, hw, hb, -⟩
  · obtain ⟨-, -, -, h4, -, h6, -, h8, h9⟩ := hq.fields
    exact ⟨h4 ▸ hs.memWf, h4 ▸ hs.memInRange, by simpa only [State.maps, h6, h8, h9] using hs.mapsInRange, hq.later⟩
  · obtain ⟨-, -, -, h4, -⟩ := hw.fields
    refine ⟨(hw.memory hs.memWf).1, hw.inRange hb (hs.mapsInRange map (State.mem_maps hmap)) hs.memInRange, ?_, hw.later⟩
    intro m hm
    apply hs.mapsInRange m
    rcases hw.map with ⟨h1, h2⟩ | ⟨r, hr, h1, h2⟩ <;>
      simp only [State.maps, h1, h2, h4, List.mem_cons, List.mem_append, List.mem_map] at hm ⊢
    · exact hm
    · rcases hm with rfl | (rfl | hm) | hm
      · exact .inr (.inr ⟨r, hr, rfl⟩)
      · exact .inl rfl
      · exact .inr (.inl hm)
      · exact .inr (.inr hm)

end Sys2Proof.Machine
end

