-- ==== Sys2Proof/Laws/PerInstr.lean ====
section
/-! SUPPORT. The family EncodesInFourBytes, an instruction at a time: an instruction's bytes are four, and the first
two of them open a two-halfword instruction (30_encoding.md R111, R112). -/

namespace Sys2Proof.Laws.EncodesInFourBytes

/-- R111, R112: the instruction is two halfwords long and its first halfword says so. -/
def Statement (i : Instr) : Prop :=
  (encode i).length = 4 ∧ opensTwoHalfwords (halfOfBytes ((encode i).getD 0 0) ((encode i).getD 1 0)) = true

/-- The first halfword opens two halfwords when the top five bits of the word say so. -/
theorem of_top {i : Instr} (h : opensTwoHalfwords ((encodeWord i).extractLsb' 16 16) = true) : Statement i := by
  refine ⟨rfl, ?_⟩
  have e : halfOfBytes ((encode i).getD 0 0) ((encode i).getD 1 0) = (encodeWord i).extractLsb' 16 16 := by
    apply BitVec.eq_of_getLsbD_eq
    intro k hk
    refine (BitVec.getLsbD_append (x := (encode i).getD 1 0) (y := (encode i).getD 0 0)).trans ?_
    simp only [encode, bytesOfWord, bytesOfHalf, List.cons_append, List.nil_append, List.getD_cons_zero,
      List.getD_cons_succ]
    split
    · simp; omega
    · rw [BitVec.getLsbD_extractLsb', show 8 + (k - 8) = k by omega]; simp; omega
  rw [e]; exact h

/-- The top five bits of a word made of a 12-bit front and 20 more bits are those of the front. -/
theorem top_of_append (front : BitVec 12) (rest : BitVec 20) :
    ((front ++ rest : BitVec 32).extractLsb' 16 16).extractLsb' 11 5 = front.extractLsb' 7 5 := by
  apply BitVec.eq_of_getLsbD_eq
  intro k hk
  simp only [BitVec.getLsbD_extractLsb', BitVec.getLsbD_append]
  rw [if_neg (by omega)]
  simp only [hk, decide_true, Bool.true_and]
  rw [show 16 + (11 + k) - 20 = 7 + k by omega]
  simp; omega

theorem dsb (option : BitVec 4) : Statement (.dsb option) := of_top (by revert option; decide)
theorem dmb (option : BitVec 4) : Statement (.dmb option) := of_top (by revert option; decide)
theorem isb (option : BitVec 4) : Statement (.isb option) := of_top (by revert option; decide)

/-- An instruction whose word has a front that opens two halfwords. -/
theorem of_front {i : Instr} (front : BitVec 12) (rest : BitVec 20) (hw : encodeWord i = (front ++ rest : BitVec 32))
    (hf : front.extractLsb' 7 5 = 0b11101#5) : Statement i := by
  apply of_top
  unfold opensTwoHalfwords
  rw [hw, top_of_append, hf]
  rfl

/-- A word of 12, 4, 4, 4 and 8 bits is its front and the rest. -/
theorem front_12_4_4_4_8 (a : BitVec 12) (b c d : BitVec 4) (e : BitVec 8) :
    (a ++ b ++ c ++ d ++ e : BitVec 32) = (a ++ (b ++ c ++ d ++ e : BitVec 20) : BitVec 32) := by
  apply BitVec.eq_of_getLsbD_eq
  intro i hi
  interval_cases i <;> simp only [BitVec.getLsbD_append] <;> simp

/-- A word of 12, 4, 4, 8 and 4 bits is its front and the rest. -/
theorem front_12_4_4_8_4 (a : BitVec 12) (b c d : BitVec 4) (e : BitVec 8) :
    (a ++ b ++ c ++ e ++ d : BitVec 32) = (a ++ (b ++ c ++ e ++ d : BitVec 20) : BitVec 32) := by
  apply BitVec.eq_of_getLsbD_eq
  intro i hi
  interval_cases i <;> simp only [BitVec.getLsbD_append] <;> simp

/-- A word of 12, 4, 4 and 12 bits is its front and the rest. -/
theorem front_12_4_4_12 (a : BitVec 12) (b c : BitVec 4) (d : BitVec 12) :
    (a ++ b ++ c ++ d : BitVec 32) = (a ++ (b ++ c ++ d : BitVec 20) : BitVec 32) := by
  apply BitVec.eq_of_getLsbD_eq
  intro i hi
  interval_cases i <;> simp only [BitVec.getLsbD_append] <;> simp

theorem strex (rd rt rn : Reg) (imm8 : BitVec 8) : Statement (.strex rd rt rn imm8) :=
  of_front 0xE84#12 _ (front_12_4_4_4_8 ..) rfl
theorem ldrex (rt rn : Reg) (imm8 : BitVec 8) : Statement (.ldrex rt rn imm8) :=
  of_front 0xE85#12 _ (front_12_4_4_4_8 ..) rfl
theorem strexb (rd rt rn : Reg) : Statement (.strexb rd rt rn) := of_front 0xE8C#12 _ (front_12_4_4_8_4 ..) rfl
theorem strexh (rd rt rn : Reg) : Statement (.strexh rd rt rn) := of_front 0xE8C#12 _ (front_12_4_4_8_4 ..) rfl
theorem ldrexb (rt rn : Reg) : Statement (.ldrexb rt rn) := of_front 0xE8D#12 _ (front_12_4_4_12 ..) rfl
theorem ldrexh (rt rn : Reg) : Statement (.ldrexh rt rn) := of_front 0xE8D#12 _ (front_12_4_4_12 ..) rfl

end Sys2Proof.Laws.EncodesInFourBytes
end

