-- ==== Sys2Proof/Tests/Slice0.lean ====
section
/-! SUPPORT. The model's own tests: the smoke test of WellFormed, words written out from 30_encoding.md, single steps
with the results of 95_test_vectors.md, and a witness for the hypotheses of every obligation that has some. -/

namespace Sys2Proof.Tests

open Sys2Proof.Machine Sys2Proof.Statements

/-! ### Helpers -/

/-- The value of a result that goes on. -/
def nextOf {α : Type} (o : Result α) : Option α :=
  match o with
  | .next a => some a
  | .fault _ => none
  | .refused _ => none

/-- The fault of a result. -/
def faultOf {α : Type} (o : Result α) : Option Fault :=
  match o with
  | .next _ => none
  | .fault f => some f
  | .refused _ => none

/-- The refusal of a result. -/
def refusalOf {α : Type} (o : Result α) : Option Refusal :=
  match o with
  | .next _ => none
  | .fault _ => none
  | .refused r => some r

/-- Bytes from an address up, as memory cells. -/
def cellsAt (a : Nat) : List Byte → List Host.Cell
  | [] => []
  | b :: bs => (a, b) :: cellsAt (a + 1) bs

/-- The reset state with a pc, some registers and some memory. -/
def start (pc : Word) (regs : List (Reg × Word)) (cells : List Host.Cell) : State :=
  { State.reset with
    cpu := regs.foldl (fun p r => p.setReg r.1 r.2) { State.reset.cpu with pc := pc }
    mem := cells.foldl (fun m c => m.write c.1 c.2) [] }

/-- A state with a tag. -/
def withTag (s : State) (tag : Tag) : State := { s with cpu := { s.cpu with tag := some tag } }

/-- A state with outstanding transactions, and the program order after them. -/
def withPool (s : State) (pool : List Txn) : State := { s with cpu := { s.cpu with pool := pool, seq := pool.length } }

/-- A state with another memory map and another `BB_RMW_WIDTH`. -/
def onMap (s : State) (map : MemoryMap) (rmw : Size) : State :=
  { s with map := map, plat := { Config.platform with bbRmwWidth := rmw } }

/-- The memory map at reset. -/
def normalMap : MemoryMap := Config.memoryMap

/-- Only the SRAM bit-band region is populated. -/
def sramMap : MemoryMap := [⟨0x20000000, 0x100000, .storage, 0x20000000⟩]

/-- A peripheral that behaves as plain storage. -/
def portMap : MemoryMap := [⟨0x40010000, 0x1000, .storage, 0x40010000⟩]

/-- A device in the peripheral bit-band region. -/
def deviceMap : MemoryMap := [⟨0x40010C00, 0x100, .device, 0x40010C00⟩]

/-- The map with the External RAM shown at 0 as well, where Code is at reset. -/
def remapped : MemoryMap :=
  [⟨0x00000000, 0x20000000, .storage, 0x60000000⟩, ⟨0x20000000, 0x20000000, .storage, 0x20000000⟩]

/-- A state of a system that switches to `remapped` on a byte write at 0x20000000 with bit 0 set. -/
def switching (s : State) : State :=
  { s with plat := { Config.platform with mapSwitch := [⟨0x20000000, .byte, 1, 1, remapped⟩] } }

/-! ### WellFormed: one ill-formed term for each check, refused -/

theorem test_wellFormed_accepts :
    Instr.wellFormed (.dsb 15) ∧ Instr.wellFormed (.dmb 15) ∧ Instr.wellFormed (.isb 15) ∧
    Instr.wellFormed (.strex 2 1 0 0) ∧ Instr.wellFormed (.strex 1 0 0 255) ∧ Instr.wellFormed (.ldrex 0 0 0) ∧
    Instr.wellFormed (.strexb 2 1 0) ∧
    Instr.wellFormed (.strexh 12 14 11) ∧ Instr.wellFormed (.ldrexb 14 14) ∧ Instr.wellFormed (.ldrexh 5 6) := by decide

/-- R123: an option other than SY. -/
theorem test_wellFormed_option :
    ¬ Instr.wellFormed (.dsb 0) ∧ ¬ Instr.wellFormed (.dmb 14) ∧ ¬ Instr.wellFormed (.isb 7) := by decide

/-- R121: R13 or R15 as an operand of a Load-Exclusive. -/
theorem test_wellFormed_load :
    ¬ Instr.wellFormed (.ldrex 13 0 0) ∧ ¬ Instr.wellFormed (.ldrex 15 0 0) ∧ ¬ Instr.wellFormed (.ldrex 0 13 0) ∧
    ¬ Instr.wellFormed (.ldrex 0 15 0) ∧ ¬ Instr.wellFormed (.ldrexb 13 0) ∧ ¬ Instr.wellFormed (.ldrexb 0 15) ∧
    ¬ Instr.wellFormed (.ldrexh 15 0) ∧ ¬ Instr.wellFormed (.ldrexh 0 13) := by decide

/-- R121: R13 or R15 as an operand of a Store-Exclusive, `Rd = Rn`, `Rd = Rt`. -/
theorem test_wellFormed_store :
    ¬ Instr.wellFormed (.strex 13 1 0 0) ∧ ¬ Instr.wellFormed (.strex 15 1 0 0) ∧ ¬ Instr.wellFormed (.strex 2 13 0 0) ∧
    ¬ Instr.wellFormed (.strex 2 15 0 0) ∧ ¬ Instr.wellFormed (.strex 2 1 13 0) ∧ ¬ Instr.wellFormed (.strex 2 1 15 0) ∧
    ¬ Instr.wellFormed (.strex 0 1 0 0) ∧ ¬ Instr.wellFormed (.strex 1 1 0 0) ∧ ¬ Instr.wellFormed (.strexb 0 1 0) ∧
    ¬ Instr.wellFormed (.strexb 1 1 0) ∧ ¬ Instr.wellFormed (.strexh 12 14 12) ∧ ¬ Instr.wellFormed (.strexh 1 1 0) := by
  decide

/-! ### Decoding: words written out bit by bit from the formats of R113 to R117 -/

/-- R113, format BAR: `1111 0011 1011 1111 1000 1111 op option`. -/
theorem test_decode_barriers :
    decodeWord 0b1111_0011_1011_1111_1000_1111_0100_1111#32 = some (.dsb 0b1111) ∧
    decodeWord 0b1111_0011_1011_1111_1000_1111_0101_1111#32 = some (.dmb 0b1111) ∧
    decodeWord 0b1111_0011_1011_1111_1000_1111_0110_1111#32 = some (.isb 0b1111) ∧
    decodeWord 0b1111_0011_1011_1111_1000_1111_0101_1110#32 = some (.dmb 0b1110) := by decide

/-- R114, R115, formats LDX and STX: `1110 1000 0101 nnnn tttt 1111 iiii iiii`, `1110 1000 0100 nnnn tttt dddd iiii iiii`. -/
theorem test_decode_word_exclusives :
    decodeWord 0b1110_1000_0101_0100_0011_1111_1111_1111#32 = some (.ldrex 3 4 255) ∧
    decodeWord 0b1110_1000_0100_0110_1000_0111_0000_0010#32 = some (.strex 7 8 6 2) := by decide

/-- R116, R117, formats LDXS and STXS: `1110 1000 1101 nnnn tttt 1111 sz 1111`, `1110 1000 1100 nnnn tttt 1111 sz dddd`. -/
theorem test_decode_narrow_exclusives :
    decodeWord 0b1110_1000_1101_0001_0010_1111_0100_1111#32 = some (.ldrexb 2 1) ∧
    decodeWord 0b1110_1000_1101_0110_0101_1111_0101_1111#32 = some (.ldrexh 5 6) ∧
    decodeWord 0b1110_1000_1100_0001_0100_1111_0100_0011#32 = some (.strexb 3 4 1) ∧
    decodeWord 0b1110_1000_1100_0110_0101_1111_0101_0111#32 = some (.strexh 7 5 6) := by decide

/-- 95_test_vectors.md section 5.3: words that select no row (R120, R122). -/
theorem test_decode_no_row :
    [0xF3BF8F7F#32, 0xF3BF8F2F#32, 0xF3AF8F5F#32, 0xF3BF8E5F#32, 0xF3BFAF5F#32, 0xE8501E00#32, 0xE8D01F4E#32,
      0xE8D01E4F#32, 0xE8D01F7F#32, 0xE8C01E42#32, 0xE8C01F72#32, 0xFFFFFFFF#32].map decodeWord =
    List.replicate 12 none := by decide

/-- R112: which halfwords open two halfwords; 95_test_vectors.md section 5.3, the one-halfword instructions. -/
theorem test_decode_lengths :
    decode [0x00, 0xBF] = .error (.oneHalfword 0xBF00) ∧ decode [0x00, 0x00, 0xBF, 0xF3] = .error (.oneHalfword 0) ∧
    opensTwoHalfwords 0xE800 = true ∧ opensTwoHalfwords 0xE7FF = false ∧ opensTwoHalfwords 0xFFFF = true ∧
    decode [0xBF, 0xF3, 0x5F] = .error .truncated := by decide

/-- 95_test_vectors.md E7: the bytes of `DMB SY`, first halfword first, each halfword little-endian (R111). -/
theorem test_encode_dmb : encode (.dmb 0b1111) = [0xBF, 0xF3, 0x5F, 0x8F] := by decide

/-- The opcode table's numbering: `I = hw1 : hw2`, as its layout says. -/
theorem test_decodeTableWord :
    decodeTableWord 32 0xF3BF8F40 = some (.dsb 0) ∧ decodeTableWord 32 0xE8D00F5F = some (.ldrexh 0 0) ∧
    decodeTableWord 32 0xE8C00F50 = some (.strexh 0 0 0) ∧ decodeTableWord 32 0 = none := by decide

/-! ### Single steps -/

/-- M2: `DSB` with nothing outstanding. -/
theorem test_dsb_goes_on :
    (nextOf (step (start 0x100 [] (cellsAt 0x100 [0xBF, 0xF3, 0x4F, 0x8F])))).map (fun t => t.cpu.pc) = some 0x104 := by
  decide

/-- M4: `DSB` with a write outstanding holds. -/
theorem test_dsb_holds :
    (nextOf (execDsb 15 (withPool (start 0x100 [] []) [⟨0, .write 1, 0x20000000, .word⟩]))).map (fun t => t.cpu.pc) =
      some 0x100 := by decide

/-- M5: `DMB` with a write outstanding goes on at once, and the write is still outstanding. -/
theorem test_dmb_goes_on :
    (nextOf (execDmb 15 (withPool (start 0x100 [] []) [⟨0, .write 1, 0x20000000, .word⟩]))).map
      (fun t => (t.cpu.pc, t.cpu.pool.length, t.cpu.dmbs)) = some (0x104, 1, [1]) := by decide

/-- M3: `ISB` moves the epoch to now. -/
theorem test_isb_epoch :
    (nextOf (execIsb 15 { start 0x100 [] [] with history := [(0, 1), (0, 2)] })).map
      (fun t => (t.cpu.pc, t.cpu.ifetchEpoch)) = some (0x104, 2) := by decide

/-- A processor whose own write to the halfword at 0x20000100, which it runs next, is outstanding at its latest ISB. -/
def patching : State :=
  { start 0x20000100 [] (cellsAt 0x20000100 [0xBF, 0xF3, 0x5F, 0x8F]) with cpu := { (start 0x20000100 [] []).cpu with
      pool := [⟨0, .write 0xBF00, 0x20000100, .half⟩], isbSeq := 1, seq := 2 } }

/-- P3: after the wait the halfword executed is the new one: the old bytes, overwritten since the ISB, are not admitted. -/
theorem test_isb_sees_own_write :
    (nextOf (completeAt 0 patching)).map (fun t => (refusalOf (step t), t.history.length, t.cpu.ifetchEpoch)) =
      some (some (.unknownInstruction 0x20000100 [0xBF00]), 2, 0) := by decide

/-- R88: a write that a rule fits switches the map; the old map may be used until the next DSB. -/
theorem test_map_switch :
    (nextOf (memWrite normalMap 0 0x20000000 .byte 0xFF (switching (start 0x100 [] [])))).map
      (fun t => (t.map, admitted t, (nextOf (execDsb 15 t)).map admitted)) =
      some (remapped, [remapped, normalMap], some [remapped]) ∧
    (nextOf (memWrite normalMap 0 0x20000000 .byte 0xFE (switching (start 0x100 [] [])))).map (fun t => admitted t) =
      some [normalMap] := by decide

/-- R30, R88: after the switch and a DSB, a fetch at 0 returns the External RAM's bytes. -/
theorem test_map_remaps_fetch :
    (nextOf (fetchHalf 0 { switching (start 0 [] (cellsAt 0x60000000 [0xBF, 0xF3])) with map := remapped })).map
      (fun r => r.map (fun f => f.1)) = some (some 0xF3BF) := by decide

/-- X4: `LDREX R1, [R0, #4]`. -/
theorem test_ldrex :
    (nextOf (step (start 0x100 [(0, 0x200000FC)]
      (cellsAt 0x100 [0x50, 0xE8, 0x01, 0x1F] ++ cellsAt 0x20000100 [0x78, 0x56, 0x34, 0x12])))).map
      (fun t => (t.cpu.reg 1, t.cpu.tag, t.cpu.pc)) =
    some (0x12345678, some ⟨0x20000100, .word, true⟩, 0x104) := by decide

/-- X21: `LDREX R0, [R0]`: the base is read before the result is written. -/
theorem test_ldrex_base_is_destination :
    (nextOf (step (start 0x100 [(0, 0x20000100)]
      (cellsAt 0x100 [0x50, 0xE8, 0x00, 0x0F] ++ cellsAt 0x20000100 [0x78, 0x56, 0x34, 0x12])))).map
      (fun t => t.cpu.reg 0) = some 0x12345678 := by decide

/-- X6: `LDREXH R5, [R6]`: bit 15 is not copied upward. -/
theorem test_ldrexh :
    (nextOf (step (start 0x100 [(6, 0x20000102)]
      (cellsAt 0x100 [0xD6, 0xE8, 0x5F, 0x5F] ++ cellsAt 0x20000102 [0xCD, 0xAB])))).map
      (fun t => (t.cpu.reg 5, t.cpu.tag)) = some (0x0000ABCD, some ⟨0x20000102, .half, true⟩) := by decide

/-- X8: `LDREXB R2, [R1]`: zero-extended. -/
theorem test_ldrexb :
    (nextOf (step (start 0x100 [(1, 0x20000103)]
      (cellsAt 0x100 [0xD1, 0xE8, 0x4F, 0x2F] ++ cellsAt 0x20000103 [0x80])))).map
      (fun t => (t.cpu.reg 2, t.cpu.tag)) = some (0x00000080, some ⟨0x20000103, .byte, true⟩) := by decide

/-- X2 with status 1, which R153 makes certain once the tag has lost `intact`: `STREX R2, R1, [R0]`. -/
theorem test_strex_fails :
    (nextOf (step (withTag (start 0x100 [(0, 0x20000100), (1, 0x12345679)]
      (cellsAt 0x100 [0x40, 0xE8, 0x00, 0x12] ++ cellsAt 0x20000100 [0x78, 0x56, 0x34, 0x12]))
      ⟨0x20000100, .word, false⟩))).map
      (fun t => (t.cpu.reg 2, t.cpu.tag, valueAt t.mem.read 0x20000100 .word)) = some (1, none, 0x12345678) := by decide

/-- X22: the record `STREX R1, R0, [R0]` leaves in the pool: the base is the value, and `intact` is the tag's. -/
theorem test_strex_issues :
    (nextOf (execStrex 1 0 0 0 (withTag (start 0x100 [(0, 0x20000100)] []) ⟨0x20000100, .word, true⟩))).map
      (fun t => (t.cpu.pool, t.cpu.tag)) =
    some ([⟨0, .storeExcl 0x20000100 1 true, 0x20000100, .word⟩], none) := by decide

/-- X7: `STREXH R7, R5, [R6]` carries the low 16 bits. -/
theorem test_strexh_issues :
    (nextOf (execStrexh 7 5 6 (withTag (start 0x100 [(5, 0xFFFF1234), (6, 0x20000102)] [])
      ⟨0x20000102, .half, true⟩))).map (fun t => t.cpu.pool) =
    some [⟨0, .storeExcl 0x1234 7 true, 0x20000102, .half⟩] := by decide

/-- X9: `STREXB R3, R4, [R1]` carries the low 8 bits. -/
theorem test_strexb_issues :
    (nextOf (execStrexb 3 4 1 (withTag (start 0x100 [(4, 0x1FF), (1, 0x20000103)] [])
      ⟨0x20000103, .byte, true⟩))).map (fun t => t.cpu.pool) =
    some [⟨0, .storeExcl 0xFF 3 true, 0x20000103, .byte⟩] := by decide

/-- X2 with status 0: the write that is then performed. -/
theorem test_strex_writes :
    (nextOf (memWrite normalMap 0 0x20000100 .word 0x12345679 (start 0 [] (cellsAt 0x20000100 [0x78, 0x56, 0x34, 0x12])))).map
      (fun t => t.mem) = some (cellsAt 0x20000100 [0x79, 0x56, 0x34, 0x12]) := by decide

/-- X12, X11: `LDREX R1, [R0, #4]` and `LDREXH R5, [R6]` at addresses that are not aligned. -/
theorem test_unaligned :
    faultOf (execLdrex 1 0 1 (start 0x100 [(0, 0x200000FE)] [])) = some (.unalignedExclusive 0x20000102) ∧
    faultOf (execLdrexh 5 6 (start 0x100 [(6, 0x20000101)] [])) = some (.unalignedExclusive 0x20000101) := by decide

/-- X14 to X17: an alias word, Device, Strongly-ordered, an address past the top. -/
theorem test_exclusive_refusals :
    refusalOf (execLdrex 1 0 0 (start 0x100 [(0, 0x22000000)] [])) = some (.exclusiveNotAllowed 0x22000000) ∧
    refusalOf (execLdrex 1 0 0 (start 0x100 [(0, 0x40010C0C)] [])) = some (.exclusiveNotAllowed 0x40010C0C) ∧
    refusalOf (execLdrex 1 0 0 (start 0x100 [(0, 0xE000ED04)] [])) = some (.exclusiveNotAllowed 0xE000ED04) ∧
    refusalOf (execLdrex 1 0 1 (start 0x100 [(0, 0xFFFFFFFC)] [])) = some (.addressOverflow 0x100) := by decide

/-- X18, X19, X3: another address, another size, no tag. -/
theorem test_unpaired :
    refusalOf (execStrex 2 1 0 0 (withTag (start 0x100 [(0, 0x20000104)] []) ⟨0x20000100, .word, true⟩)) =
      some (.unpairedStoreExclusive 0x100) ∧
    refusalOf (execStrexh 2 1 0 (withTag (start 0x100 [(0, 0x20000100)] []) ⟨0x20000100, .word, true⟩)) =
      some (.unpairedStoreExclusive 0x100) ∧
    refusalOf (execStrex 2 1 0 0 (start 0x100 [(0, 0x20000100)] [])) = some (.unpairedStoreExclusive 0x100) := by decide

/-- T1, F7 to F11, F13: the fetch of a step. -/
theorem test_fetch_stops :
    faultOf (step (start 0x40000000 [] [])) = some (.xnFetch 0x40000000) ∧
    faultOf (step (start 0xA0000000 [] [])) = some (.xnFetch 0xA0000000) ∧
    faultOf (step (start 0xE000ED00 [] [])) = some (.xnFetch 0xE000ED00) ∧
    faultOf (step (start 0xE0100000 [] [])) = some (.xnFetch 0xE0100000) ∧
    refusalOf (step (start 0x101 [] [])) = some (.oddFetchAddress 0x101) ∧
    faultOf (step (start 0x3FFFFFFE [] (cellsAt 0x3FFFFFFE [0xBF, 0xF3]))) = some (.xnFetch 0x40000000) := by decide

/-- R167: the XN check of the second halfword comes before the refusal of an unpopulated first one, and only that. -/
theorem test_fetch_order :
    faultOf (step (onMap (start 0x3FFFFFFE [] []) sramMap .word)) = some (.xnFetch 0x40000000) ∧
    refusalOf (step (onMap (start 0x3FFFFFFC [] []) sramMap .word)) = some (.unpopulated 0x3FFFFFFC) := by decide

/-- F12: an instruction that spans Code and SRAM. -/
theorem test_fetch_spans :
    (nextOf (step (start 0x1FFFFFFE [] (cellsAt 0x1FFFFFFE [0xBF, 0xF3, 0x5F, 0x8F])))).map (fun t => t.cpu.pc) =
      some 0x20000002 := by decide

/-- F2, F3: a fetch from the SRAM alias region. -/
theorem test_fetch_sram_alias :
    refusalOf (fetchHalf 0x22000000 (onMap (start 0 [] []) sramMap .byte)) =
      some (.unpopulated 0x22000000) ∧
    (nextOf (fetchHalf 0x22000000 (start 0 [] (cellsAt 0x22000000 [0xBF, 0xF3])))).map
      (fun r => r.map (fun f => f.1)) = some (some 0xF3BF) := by decide

/-- E3, E4: mixed widths. -/
theorem test_byte_order :
    (nextOf (memRead normalMap 0x20000102 .half (start 0 [] (cellsAt 0x20000100 [0x44, 0x33, 0x22, 0x11])))).map (fun r => r.1) =
      some 0x1122 ∧
    (nextOf (memWrite normalMap 0 0x20000102 .half 0xBEEF (start 0 [] (cellsAt 0x20000100 [0x44, 0x33, 0x22, 0x11])))).map
      (fun t => valueAt t.mem.read 0x20000100 .word) = some 0xBEEF3344 := by decide

/-- S1 to S4 and section 4.1: the alias word of a bit; section 4.2: its inverse. -/
theorem test_alias_mapping :
    aliasWordOf 0x200FFFFF 0 = 0x23FFFFE0 ∧ aliasWordOf 0x200FFFFF 7 = 0x23FFFFFC ∧
    aliasWordOf 0x20000000 0 = 0x22000000 ∧ aliasWordOf 0x20000000 7 = 0x2200001C ∧
    aliasWordOf 0x20001234 5 = 0x22024694 ∧ aliasWordOf 0x40010C0C 5 = 0x42218194 ∧
    aliasWordOf 0x400FFFFF 7 = 0x43FFFFFC ∧ target 0x22024688 = (0x20001234, 2) ∧ target 0x4200000C = (0x40000000, 3) ∧
    target 0x43FFFFFC = (0x400FFFFF, 7) := by decide

/-- B2, B4, B5, B8: alias writes. -/
theorem test_alias_write :
    (nextOf (memWrite normalMap 0 0x2200001C .word 0xFF (start 0 [] [(0x20000000, 0x04)]))).map (fun t => t.mem) =
      some [(0x20000000, 0x84)] ∧
    (nextOf (memWrite normalMap 0 0x22000008 .word 0x0E (start 0 [] [(0x20000000, 0x84)]))).map (fun t => t.mem) =
      some [(0x20000000, 0x80)] ∧
    (nextOf (memWrite normalMap 0 0x22000008 .word 0xFFFFFFFE (start 0 [] [(0x20000000, 0x80)]))).map (fun t => t.mem) =
      some [(0x20000000, 0x80)] ∧
    (nextOf (memWrite normalMap 0 0x23FFFFE0 .word 0 (start 0 [] [(0x200FFFFF, 0xFF)]))).map (fun t => t.mem) =
      some [(0x200FFFFF, 0xFE)] := by decide

/-- B3, B12, B13, B14: alias reads, and what is refused. -/
theorem test_alias_read :
    (nextOf (memRead normalMap 0x2200001C .word (start 0 [] [(0x20000000, 0x84)]))).map (fun r => r.1) = some 1 ∧
    (nextOf (memRead normalMap 0x22000000 .word (start 0 [] [(0x20000000, 0x84)]))).map (fun r => r.1) = some 0 ∧
    refusalOf (memRead normalMap 0x22000008 .half (start 0 [] [])) = some (.nonWordAlias 0x22000008) ∧
    refusalOf (memRead normalMap 0x2200000A .word (start 0 [] [])) = some (.misalignedPlainAccess 0x2200000A) ∧
    refusalOf (memWrite sramMap 0 0x21000000 .word 5 (onMap (start 0 [] []) sramMap .byte)) =
      some (.unpopulated 0x21000000) := by decide

/-- B15: an alias write of a peripheral whose platform gives plain storage there, `BB_RMW_WIDTH` 4. -/
theorem test_alias_peripheral :
    (nextOf (memWrite portMap 0 0x42218194 .word 1 (onMap (start 0 [] []) portMap .word))).map
      (fun t => t.mem) = some [(0x40010C0C, 0x20)] := by decide

/-- B16, the third outcome: another master's write between the two halves of an alias write is lost. -/
theorem test_alias_lost_update :
    ((nextOf (completeAt 0 (withPool (start 0 [] []) [⟨0, .write 1, 0x22000000, .word⟩]))).bind
      (fun s => (nextOf (memWrite normalMap 9 0x20000000 .byte 0x80 s)).bind (fun s => nextOf (completeAt 0 s)))).map
      (fun t => (t.mem, t.cpu.pool)) = some ([(0x20000000, 0x01)], []) := by decide

/-- D20, R168: a plain access is refused when it is issued: misaligned, narrow in an alias region, nothing there. -/
theorem test_plain_checked_at_issue :
    refusalOf (play (.plain ⟨0x20000102, .word, some 1⟩ none) (start 0x100 [] [])) =
      some (.misalignedPlainAccess 0x20000102) ∧
    refusalOf (play (.plain ⟨0x22000008, .half, none⟩ (some 1)) (start 0x100 [] [])) =
      some (.nonWordAlias 0x22000008) ∧
    refusalOf (play (.plain ⟨0x42218194, .word, some 1⟩ none) (start 0x100 [] [])) = some (.unpopulated 0x40010C0C) ∧
    (nextOf (play (.plain ⟨0x20000100, .word, some 1⟩ none) (start 0x100 [] []))).map (fun t => t.cpu.pool) =
      some [⟨0, .write 1, 0x20000100, .word⟩] := by decide

/-- A bus master's access is checked at its issue too. -/
theorem test_master_checked_at_issue :
    refusalOf (play (.masterIssue 0) { start 0x100 [] [] with
      masters := [⟨9, [⟨0x20000101, .half, none⟩], 0, [], []⟩] }) = some (.misalignedPlainAccess 0x20000101) := by decide

/-- R69: nothing of the processor runs between the halves of an alias write; after the write back it goes on. -/
theorem test_nothing_between_halves :
    let s := withPool (start 0x100 [] (cellsAt 0x100 [0xBF, 0xF3, 0x5F, 0x8F])) [⟨0, .writeBack 0x80 1, 0x22000008, .word⟩]
    (nextOf (play .issue s)).map (fun t => t.cpu.pc) = some 0x100 ∧
    ((nextOf (play (.complete 0) s)).bind (fun t => nextOf (play .issue t))).map (fun t => t.cpu.pc) = some 0x104 := by
  decide

/-- R88, log 27: which outstanding writes have their map in use already. -/
theorem test_coming_maps :
    (withPool (switching (start 0x100 [] [])) [⟨0, .storeExcl 1 2 true, 0x20000000, .byte⟩]).comingMaps = [remapped] ∧
    (withPool (switching (start 0x100 [] [])) [⟨0, .storeExcl 1 2 false, 0x20000000, .byte⟩]).comingMaps = [] ∧
    ({ withPool (start 0x100 [] []) [⟨0, .write 1, 0x20000000, .byte⟩] with plat := { Config.platform with
      mapSwitch := [⟨0x20000000, .byte, 1, 1, remapped⟩, ⟨0x20000000, .byte, 0, 0, sramMap⟩] } } : State).comingMaps =
      [remapped] := by decide

/-! ### Witnesses: states and operands that meet the hypotheses of each obligation together -/

/-- A transaction is sound, as a computation. -/
def soundCheck (s : State) (epoch : Nat) (t : Txn) : Bool :=
  t.addr.toNat % t.size.bytes == 0 && (!inAlias t.addr.toNat || t.size == .word) &&
    (!t.isWriteBack || inAlias t.addr.toNat) && (s.lastingMaps epoch).any (t.permitted s.plat)

theorem sound_of_check {s : State} {epoch : Nat} {t : Txn} (h : soundCheck s epoch t = true) : t.sound s epoch := by
  simp only [soundCheck, Bool.and_eq_true, beq_iff_eq, Bool.or_eq_true, Bool.not_eq_true', List.any_eq_true] at h
  obtain ⟨⟨⟨h1, h2⟩, h3⟩, h4⟩ := h
  exact ⟨h1, fun h => by simp_all, fun h => by simp_all, h4⟩

/-- The invariant of a state with one processor, which has completed no write to its own code, from conditions that can be
computed. -/
theorem inv_of_checks {s : State} (ho : s.others = [])
    (hf : s.cpu.seen = [] ∧ s.cpu.mapEpoch ≤ s.mapHistory.length) (hm : s.mem.wf)
    (hr : (∀ c ∈ s.mem, c.1 < 2 ^ 32) ∧ ∀ map ∈ s.maps, ∀ b ∈ map, b.store + b.size ≤ 2 ^ 32)
    (h1 : s.cpu.pc.toNat % 2 = 0) (h2 : s.cpu.pool.Pairwise (fun t u => t.seq < u.seq))
    (h3 : ∀ t ∈ s.cpu.pool, t.seq < s.cpu.seq) (h4 : ∀ d ∈ s.cpu.dmbs, d < s.cpu.seq) (h5 : s.cpu.isbSeq ≤ s.cpu.seq)
    (h6 : s.cpu.ifetchEpoch ≤ s.history.length)
    (h7 : (∀ t ∈ s.cpu.pool, soundCheck s s.cpu.mapEpoch t = true) ∧
      ∀ m ∈ s.masters, ∀ t ∈ m.pool, soundCheck s 0 t = true)
    (h8 : ∀ t ∈ s.cpu.pool, t.isWriteBack = true →
      ∀ t' ∈ s.cpu.pool, mustPrecede s.plat s.cpu.dmbs t' t = false) : s.Inv := by
  refine ⟨hm, hr.1, hr.2, fun p hp => ?_, fun m h t ht => sound_of_check (h7.2 m h t ht)⟩
  rw [State.procs, ho, List.mem_singleton] at hp
  subst hp
  exact ⟨h1, h2, h3, h4, h5, h6, by simp [hf.1], hf.2, fun t ht => sound_of_check (h7.1 t ht), h8⟩

/-- Code at 0x100, with two registers and a word of data. -/
def running (code : List Byte) (x0 x1 : Word) : State :=
  start 0x100 [(0, x0), (1, x1)] (cellsAt 0x100 code ++ cellsAt 0x20000100 [0x78, 0x56, 0x34, 0x12])

theorem witness_EncodeOfDecode : decode [0xBF, 0xF3, 0x5F, 0x8F, 0xAA] = .ok (.dmb 15, [0xAA]) := by decide

theorem witness_UnselectedWordsRefused :
    ((running [0x00, 0xBF] 0 0).agenda = [] ∧ (running [0x00, 0xBF] 0 0).cpu.finished = false ∧
      betweenHalves (running [0x00, 0xBF] 0 0).cpu.pool = false ∧
      fetchHalf 0x100 (running [0x00, 0xBF] 0 0) = .next (some (0xBF00, running [0x00, 0xBF] 0 0)) ∧
      opensTwoHalfwords 0xBF00 = false) ∧
    (fetchHalf 0x100 (running [0xBF, 0xF3, 0x7F, 0x8F] 0 0) =
        .next (some (0xF3BF, running [0xBF, 0xF3, 0x7F, 0x8F] 0 0)) ∧ opensTwoHalfwords 0xF3BF = true ∧
      fetchHalf (0x100 + 2) (running [0xBF, 0xF3, 0x7F, 0x8F] 0 0) =
        .next (some (0x8F7F, running [0xBF, 0xF3, 0x7F, 0x8F] 0 0)) ∧
      decodeWord ((0xF3BF#16 ++ 0x8F7F#16 : BitVec 32)) = none) :=
  ⟨⟨rfl, rfl, rfl, rfl, rfl⟩, rfl, rfl, rfl, by decide⟩

theorem witness_BarrierOptionRefused : (0b1110#4 ≠ 0b1111#4) ∧ (0b0000#4 ≠ 0b1111#4) := by decide

theorem witness_BadOperandRefused :
    loadForm (.ldrex 13 0 0) = some (13, 0, 0, .word) ∧ loadForm (.ldrexh 0 15) = some (0, 15, 0, .half) ∧
    loadForm (.ldrexb 12 14) = some (12, 14, 0, .byte) ∧ storeForm (.strex 0 1 0 3) = some (0, 1, 0, 12, .word) ∧
    storeForm (.strexh 1 1 0) = some (1, 1, 0, 0, .half) ∧ storeForm (.strexb 2 1 0) = some (2, 1, 0, 0, .byte) :=
  ⟨rfl, rfl, rfl, rfl, rfl, rfl⟩

/-- Two writes that share no byte, with a DMB after both on record. -/
def twoWrites : State :=
  { withPool (start 0x100 [] (cellsAt 0x100 [0xBF, 0xF3, 0x6F, 0x8F]))
      [⟨0, .write 1, 0x20000000, .word⟩, ⟨1, .write 2, 0x20000004, .word⟩] with
    cpu := { (withPool (start 0x100 [] []) [⟨0, .write 1, 0x20000000, .word⟩, ⟨1, .write 2, 0x20000004, .word⟩]).cpu with
      dmbs := [2], seq := 3 } }

/-- The same with the DMB between them. -/
def twoWritesDmb : State :=
  { start 0x100 [] [] with cpu := { State.reset.cpu with
      pool := [⟨0, .write 1, 0x20000000, .word⟩, ⟨2, .write 2, 0x20000004, .word⟩], dmbs := [1], seq := 3 } }

theorem witness_DmbOrdersTransactions :
    (start 0xFFFFFFF8 [] []).cpu.pc.toNat + 4 ≤ 0xFFFFFFFC ∧
    (∃ t, play (.complete 1) twoWrites = .next t ∧ (∀ k, Move.complete 1 ≠ .focus k) ∧ 2 ∈ twoWrites.cpu.dmbs ∧
      (⟨0, .write 1, 0x20000000, .word⟩ : Txn) ∈ t.cpu.pool ∧ 0 < 2) ∧
    (∃ t, play .issue twoWrites = .next t ∧ (∀ k, Move.issue ≠ .focus k) ∧ 2 ∈ twoWrites.cpu.dmbs ∧
      (⟨1, .write 2, 0x20000004, .word⟩ : Txn) ∈ t.cpu.pool ∧ 1 < 2) ∧
    (twoWritesDmb.cpu.pool[1]? = some ⟨2, .write 2, 0x20000004, .word⟩ ∧
      (⟨0, .write 1, 0x20000000, .word⟩ : Txn) ∈ twoWritesDmb.cpu.pool ∧ 1 ∈ twoWritesDmb.cpu.dmbs ∧ 0 < 1 ∧ 1 < 2) :=
  ⟨by decide, ⟨_, rfl, by simp, by decide, by decide, by decide⟩, ⟨_, rfl, by simp, by decide, by decide, by decide⟩,
    by decide⟩

theorem witness_DsbWaitsForPool :
    twoWrites.cpu.pool ≠ [] ∧ (start 0xFFFFFFF8 [] []).cpu.pool = [] ∧
    (start 0xFFFFFFF8 [] []).cpu.pc.toNat + 4 ≤ 0xFFFFFFFC := by decide

theorem witness_IsbRenewsFetch :
    twoWrites.cpu.pc.toNat + 4 ≤ 0xFFFFFFFC ∧ ∀ u ∈ twoWrites.cpu.pool, u.seq < twoWrites.cpu.seq := by decide

theorem witness_BarrierFrame :
    (isBarrier (.dsb 15) = true ∧ ∃ t, exec (.dsb 15) twoWrites = .next t) ∧
    (isBarrier (.dmb 15) = true ∧ ∃ t, exec (.dmb 15) twoWrites = .next t) ∧
    (isBarrier (.isb 15) = true ∧ ∃ t, exec (.isb 15) twoWrites = .next t) :=
  ⟨⟨rfl, _, rfl⟩, ⟨rfl, _, rfl⟩, rfl, _, rfl⟩

/-- A state with the base in `x[0]`, below the top of the address space. -/
def based (x0 : Word) : State := start 0xFFFFFFF8 [(0, x0)] []

theorem witness_LoadExclusiveIssues :
    (loadForm (.ldrex 1 0 255) = some (1, 0, 1020, .word) ∧ Instr.wellFormed (.ldrex 1 0 255) = true ∧
      (based 0x9FFFFC00).cpu.pending 1 = false ∧ (based 0x9FFFFC00).cpu.pending 0 = false ∧
      0x9FFFFFFC = ((based 0x9FFFFC00).cpu.reg 0).toNat + 1020 ∧ 0x9FFFFFFC ≤ 0xFFFFFFFF ∧ 0x9FFFFFFC % 4 = 0 ∧
      (∀ map ∈ admitted (based 0x9FFFFC00), exclusiveAllowed map 0x9FFFFFFC 4 = true) ∧
      (based 0x9FFFFC00).cpu.pc.toNat + 4 ≤ 0xFFFFFFFC) ∧
    (loadForm (.ldrexh 0 0) = some (0, 0, 0, .half) ∧ Instr.wellFormed (.ldrexh 0 0) = true ∧
      (based 0x1FFFFFFE).cpu.pending 0 = false ∧ 0x1FFFFFFE = ((based 0x1FFFFFFE).cpu.reg 0).toNat + 0 ∧
      0x1FFFFFFE % 2 = 0 ∧
      (∀ map ∈ admitted (based 0x1FFFFFFE), exclusiveAllowed map 0x1FFFFFFE 2 = true)) ∧
    (loadForm (.ldrexb 1 0) = some (1, 0, 0, .byte) ∧ Instr.wellFormed (.ldrexb 1 0) = true ∧
      0x21FFFFFF = ((based 0x21FFFFFF).cpu.reg 0).toNat + 0 ∧ 0x21FFFFFF % 1 = 0 ∧
      (∀ map ∈ admitted (based 0x21FFFFFF), exclusiveAllowed map 0x21FFFFFF 1 = true)) := by decide

/-- A state with the base in `x[0]` and the tag of a word, halfword or byte at it. -/
def paired (x0 : Word) (size : Size) (intact : Bool) : State := withTag (based x0) ⟨x0, size, intact⟩

theorem witness_StoreExclusiveIssues :
    (storeForm (.strex 2 1 0 0) = some (2, 1, 0, 0, .word) ∧ Instr.wellFormed (.strex 2 1 0 0) = true ∧
      (∀ r, (paired 0x20000100 .word true).cpu.pending r = false) ∧
      0x20000100 = ((paired 0x20000100 .word true).cpu.reg 0).toNat + 0 ∧ 0x20000100 ≤ 0xFFFFFFFF ∧
      0x20000100 % 4 = 0 ∧
      (∀ map ∈ admitted (paired 0x20000100 .word true), exclusiveAllowed map 0x20000100 4 = true) ∧
      (paired 0x20000100 .word true).cpu.tag = some ⟨BitVec.ofNat 32 0x20000100, .word, true⟩ ∧
      (paired 0x20000100 .word true).cpu.pc.toNat + 4 ≤ 0xFFFFFFFC) ∧
    (storeForm (.strexh 2 0 0) = some (2, 0, 0, 0, .half) ∧ Instr.wellFormed (.strexh 2 0 0) = true ∧
      0x3FFFFFFE = ((paired 0x3FFFFFFE .half false).cpu.reg 0).toNat + 0 ∧ 0x3FFFFFFE % 2 = 0 ∧
      (∀ map ∈ admitted (paired 0x3FFFFFFE .half false), exclusiveAllowed map 0x3FFFFFFE 2 = true) ∧
      (paired 0x3FFFFFFE .half false).cpu.tag = some ⟨BitVec.ofNat 32 0x3FFFFFFE, .half, false⟩) ∧
    (storeForm (.strexb 2 1 0) = some (2, 1, 0, 0, .byte) ∧ Instr.wellFormed (.strexb 2 1 0) = true ∧
      0x200FFFFF = ((paired 0x200FFFFF .byte true).cpu.reg 0).toNat + 0 ∧ 0x200FFFFF % 1 = 0 ∧
      (∀ map ∈ admitted (paired 0x200FFFFF .byte true), exclusiveAllowed map 0x200FFFFF 1 = true) ∧
      (paired 0x200FFFFF .byte true).cpu.tag = some ⟨BitVec.ofNat 32 0x200FFFFF, .byte, true⟩) :=
  ⟨⟨rfl, by decide⟩, ⟨rfl, by decide⟩, rfl, by decide⟩

/-- A read outstanding for `x[2]`. -/
def pendingTwo : State := withPool (paired 0x20000100 .word true) [⟨0, .read (some 2), 0x20000200, .word⟩]

theorem witness_ExclusiveHoldsOnPendingRegister :
    (exclusiveForm (.ldrexb 2 0) = some ([2, 0], 0, 0, .byte) ∧ Instr.wellFormed (.ldrexb 2 0) = true ∧
      2 ∈ [2, 0] ∧ pendingTwo.cpu.pending 2 = true) ∧
    (exclusiveForm (.strex 1 2 0 0) = some ([1, 2, 0], 0, 0, .word) ∧ Instr.wellFormed (.strex 1 2 0 0) = true ∧
      2 ∈ [1, 2, 0] ∧ pendingTwo.cpu.pending 2 = true) := by decide

theorem witness_AddressOverflowRefused :
    (exclusiveForm (.ldrex 1 0 1) = some ([1, 0], 0, 4, .word) ∧ Instr.wellFormed (.ldrex 1 0 1) = true ∧
      (∀ r ∈ [1, 0], (based 0xFFFFFFFC).cpu.pending r = false) ∧
      ((based 0xFFFFFFFC).cpu.reg 0).toNat + 4 > 0xFFFFFFFF) ∧
    (exclusiveForm (.strex 2 1 0 255) = some ([2, 1, 0], 0, 1020, .word) ∧
      ((based 0xFFFFFFFF).cpu.reg 0).toNat + 1020 > 0xFFFFFFFF) := by decide

theorem witness_UnalignedExclusiveFaults :
    (exclusiveForm (.strex 2 1 0 1) = some ([2, 1, 0], 0, 4, .word) ∧ Instr.wellFormed (.strex 2 1 0 1) = true ∧
      (∀ r ∈ [2, 1, 0], (based 0x200000FE).cpu.pending r = false) ∧
      ((based 0x200000FE).cpu.reg 0).toNat + 4 ≤ 0xFFFFFFFF ∧
      (((based 0x200000FE).cpu.reg 0).toNat + 4) % 4 ≠ 0) ∧
    (exclusiveForm (.ldrexh 1 0) = some ([1, 0], 0, 0, .half) ∧ Instr.wellFormed (.ldrexh 1 0) = true ∧
      (((based 0xFFFFFFFF).cpu.reg 0).toNat + 0) % 2 ≠ 0) := by decide

theorem witness_ExclusiveOutsidePlainStorageRefused :
    (exclusiveForm (.ldrex 1 0 0) = some ([1, 0], 0, 0, .word) ∧ Instr.wellFormed (.ldrex 1 0 0) = true ∧
      (∀ r ∈ [1, 0], (based 0x40010C0C).cpu.pending r = false) ∧ 0x40010C0C = ((based 0x40010C0C).cpu.reg 0).toNat + 0 ∧
      0x40010C0C ≤ 0xFFFFFFFF ∧ 0x40010C0C % 4 = 0 ∧ 3 < 4 ∧
      (∀ map ∈ admitted (based 0x40010C0C), bankAt map (0x40010C0C + 3) ≠ some .storage) ∧
      memTypeOf (regionOf (0x40010C0C + 3)) ≠ .normal) ∧
    (exclusiveForm (.strexb 2 1 0) = some ([2, 1, 0], 0, 0, .byte) ∧
      0x23FFFFFF = ((based 0x23FFFFFF).cpu.reg 0).toNat + 0 ∧ 0 < 1 ∧
      (0x22000000 ≤ 0x23FFFFFF + 0 ∧ 0x23FFFFFF + 0 ≤ 0x23FFFFFF)) := by decide

theorem witness_UnpairedStoreExclusiveRefused :
    (storeForm (.strex 2 1 0 1) = some (2, 1, 0, 4, .word) ∧ Instr.wellFormed (.strex 2 1 0 1) = true ∧
      (∀ r, (paired 0x20000100 .word true).cpu.pending r = false) ∧
      0x20000104 = ((paired 0x20000100 .word true).cpu.reg 0).toNat + 4 ∧ 0x20000104 % 4 = 0 ∧
      (paired 0x20000100 .word true).cpu.tag = some ⟨0x20000100, .word, true⟩ ∧
      (0x20000100#32 ≠ BitVec.ofNat 32 0x20000104)) ∧
    (storeForm (.strexh 2 1 0) = some (2, 1, 0, 0, .half) ∧ Size.word ≠ Size.half ∧
      0x20000100 = ((paired 0x20000100 .word true).cpu.reg 0).toNat + 0) ∧
    (based 0x20000100).cpu.tag = none :=
  ⟨⟨rfl, by decide⟩, ⟨rfl, by decide⟩, rfl⟩

/-! The steps of an exclusive instruction: each branch of the two statements. -/

/-- A fetch from conditions that can be computed. -/
theorem fetches_of_check {s : State} {i : Instr}
    (h : s.agenda = [] ∧ s.cpu.finished = false ∧ nextOf (fetchInstr s) = some (some (i, s))) : Fetches s i s := by
  obtain ⟨ha, hf, hn⟩ := h
  refine ⟨ha, hf, ?_⟩
  cases hr : fetchInstr s <;> simp_all [nextOf]

/-- `LDREX R1, [R0, #4]` at the pc. -/
def loading (x0 : Word) : State := running [0x50, 0xE8, 0x01, 0x1F] x0 0

theorem witness_LoadExclusiveStep :
    (∀ x0, (loading x0).cpu.pool = []) ∧
    (Fetches (loading 0xFFFFFFFC) (.ldrex 1 0 1) (loading 0xFFFFFFFC) ∧ ((loading 0xFFFFFFFC).cpu.reg 0).toNat + 4 > 0xFFFFFFFF) ∧
    (Fetches (loading 0x200000FE) (.ldrex 1 0 1) (loading 0x200000FE) ∧ (((loading 0x200000FE).cpu.reg 0).toNat + 4) % 4 ≠ 0) ∧
    (Fetches (loading 0x22000000) (.ldrex 1 0 1) (loading 0x22000000) ∧ (∀ map ∈ admitted (loading 0x22000000), exclusiveAllowed map 0x22000004 4 = false)) ∧
    (Fetches (loading 0x200000FC) (.ldrex 1 0 1) (loading 0x200000FC) ∧
      (∃ map ∈ admitted (loading 0x200000FC), exclusiveAllowed map 0x20000100 4 = true) ∧
      loadForm (.ldrex 1 0 1) = some (1, 0, 4, .word) ∧ Instr.wellFormed (.ldrex 1 0 1) = true) :=
  ⟨fun _ => rfl, ⟨fetches_of_check (by decide +kernel), by decide⟩, ⟨fetches_of_check (by decide +kernel), by decide⟩, ⟨fetches_of_check (by decide +kernel), by decide⟩,
    fetches_of_check (by decide +kernel), by decide, rfl, rfl⟩

/-- `STREX R2, R1, [R0, #4]` at the pc, with the tag of the word at 0x20000100. -/
def storing (x0 : Word) (intact : Bool) : State :=
  withTag (running [0x40, 0xE8, 0x01, 0x12] x0 7) ⟨0x20000100, .word, intact⟩

theorem witness_StoreExclusiveStep :
    ((storing 0x200000FC true).mem.wf ∧ (storing 0x200000FC true).cpu.pool = []) ∧
    (Fetches (storing 0xFFFFFFFC true) (.strex 2 1 0 1) (storing 0xFFFFFFFC true) ∧
      ((storing 0xFFFFFFFC true).cpu.reg 0).toNat + 4 > 0xFFFFFFFF) ∧
    (Fetches (storing 0x200000FE true) (.strex 2 1 0 1) (storing 0x200000FE true) ∧
      (((storing 0x200000FE true).cpu.reg 0).toNat + 4) % 4 ≠ 0) ∧
    (Fetches (storing 0x22000000 true) (.strex 2 1 0 1) (storing 0x22000000 true) ∧
      (∀ map ∈ admitted (storing 0x22000000 true), exclusiveAllowed map 0x22000004 4 = false)) ∧
    (Fetches (storing 0x20000100 true) (.strex 2 1 0 1) (storing 0x20000100 true) ∧ 0x20000104 = ((storing 0x20000100 true).cpu.reg 0).toNat + 4 ∧
      (storing 0x20000100 true).cpu.tag = some ⟨0x20000100, .word, true⟩) ∧
    (Fetches (storing 0x200000FC false) (.strex 2 1 0 1) (storing 0x200000FC false) ∧
      (storing 0x200000FC false).cpu.tag = some ⟨BitVec.ofNat 32 0x20000100, .word, false⟩) ∧
    (Fetches (storing 0x200000FC true) (.strex 2 1 0 1) (storing 0x200000FC true) ∧
      (storing 0x200000FC true).cpu.tag = some ⟨BitVec.ofNat 32 0x20000100, .word, true⟩ ∧
      storeForm (.strex 2 1 0 1) = some (2, 1, 0, 4, .word) ∧ Instr.wellFormed (.strex 2 1 0 1) = true) :=
  ⟨⟨by decide, rfl⟩, ⟨fetches_of_check (by decide +kernel), by decide⟩, ⟨fetches_of_check (by decide +kernel), by decide⟩, ⟨fetches_of_check (by decide +kernel), by decide⟩,
    ⟨fetches_of_check (by decide +kernel), by decide⟩, ⟨fetches_of_check (by decide +kernel), by decide⟩, fetches_of_check (by decide +kernel), rfl, rfl, rfl⟩

theorem witness_ExecFrame :
    (∃ t, exec (.dmb 15) twoWrites = .next t) ∧ (∃ t, exec (.ldrex 1 0 0) (based 0x20000100) = .next t) ∧
    (∃ t, exec (.strex 2 1 0 0) (paired 0x20000100 .word true) = .next t) := ⟨⟨_, rfl⟩, ⟨_, rfl⟩, _, rfl⟩

theorem witness_HiddenStateFrame :
    (∃ t, exec (.isb 15) twoWrites = .next t) ∧ exclusiveForm (.isb 15) = none ∧
    (∀ option, Instr.isb 15 ≠ .dmb option) ∧ (∀ option, Instr.isb 15 ≠ .dsb option) ∧
    (∃ t, exec (.ldrexb 1 0) (based 0x20000100) = .next t) ∧ ∀ option, Instr.ldrexb 1 0 ≠ .isb option :=
  ⟨⟨_, rfl⟩, rfl, by simp, by simp, ⟨_, rfl⟩, by simp⟩

/-! Completing a transaction. -/

/-- Something of every kind outstanding: a read, a plain write, an alias write, two Store-Exclusives, and the read of a
Load-Exclusive. -/
def busy : State :=
  withPool (start 0x100 [] (cellsAt 0x20000100 [0x78, 0x56, 0x34, 0x12]))
    [⟨0, .read (some 1), 0x20000100, .word⟩, ⟨1, .write 0x11223344, 0x20000200, .word⟩,
      ⟨2, .write 1, 0x22000008, .word⟩, ⟨3, .storeExcl 7 2 false, 0x20000300, .word⟩,
      ⟨4, .storeExcl 7 3 true, 0x20000304, .byte⟩, ⟨5, .loadExcl 4, 0x20000102, .half⟩]

theorem busy_inv : busy.Inv :=
  inv_of_checks rfl (by decide) (by decide) (by decide) (by decide) (by decide) (by decide) (by decide) (by decide) (by decide)
    (by decide) (by decide)

theorem witness_CompletionFrame :
    busy.Inv ∧ (busy.cpu.pool[0]? = some ⟨0, .read (some 1), 0x20000100, .word⟩ ∧ ∃ t, completeAt 0 busy = .next t) ∧
    (busy.cpu.pool[2]? = some ⟨2, .write 1, 0x22000008, .word⟩ ∧ ∃ t, completeAt 2 busy = .next t) ∧
    (busy.cpu.pool[3]? = some ⟨3, .storeExcl 7 2 false, 0x20000300, .word⟩ ∧ ∃ t, completeAt 3 busy = .next t) :=
  ⟨busy_inv, ⟨rfl, _, rfl⟩, ⟨rfl, _, rfl⟩, rfl, _, rfl⟩

/-- Only the Load-Exclusive of `busy` outstanding. -/
def loaded : State := { busy with cpu := { busy.cpu with pool := busy.cpu.pool.drop 5 } }

theorem witness_ReadCompletionWritesRegister :
    (busy.cpu.pool[0]? = some ⟨0, .read (some 1), 0x20000100, .word⟩ ∧
      (∀ map ∈ admitted busy, plainStorage map (0x20000100#32).toNat 4 = true) ∧
      mayComplete busy.plat busy.cpu ⟨0, .read (some 1), 0x20000100, .word⟩ = true ∧ (0x20000100#32).toNat % 4 = 0 ∧
      inAlias (0x20000100#32).toNat = false) ∧
    ((∀ map ∈ admitted loaded, exclusiveAllowed map (0x20000102#32).toNat 2 = true) ∧
      loaded.cpu.pool[0]? = some ⟨5, .loadExcl 4, 0x20000102, .half⟩ ∧
      mayComplete loaded.plat loaded.cpu ⟨5, .loadExcl 4, 0x20000102, .half⟩ = true ∧
      (0x20000102#32).toNat % 2 = 0 ∧ inAlias (0x20000102#32).toNat = false) := by decide

/-- An address for each outcome of the checks of a plain access: misaligned, narrow in an alias region, a location with
nothing there, and a location where every map admitted has something. -/
theorem plainChecks_branches :
    (0x22000002#32).toNat % 4 ≠ 0 ∧
    ((0x22000002#32).toNat % 2 = 0 ∧ inAlias (0x22000002#32).toNat = true ∧ Size.half ≠ Size.word) ∧
    ((0x42218194#32).toNat % 4 = 0 ∧ footprint busy.plat (0x42218194#32).toNat .word = (0x40010C0C, 4) ∧
      ∀ map ∈ busy.mapsAdmitted 0, populated map 0x40010C0C 4 = false) ∧
    ((0x22000008#32).toNat % 4 = 0 ∧ footprint busy.plat (0x22000008#32).toNat .word = (0x20000000, 1) ∧
      ∀ map ∈ busy.mapsAdmitted 0, populated map 0x20000000 1 = true) := by decide

theorem witness_PlainAccessIssues :
    (busy.cpu.finished = false ∧ betweenHalves busy.cpu.pool = false ∧
      (∀ r, some (5 : Reg) = some r → busy.cpu.pending r = false) ∧ busy.cpu.mapEpoch = 0) ∧
    busy.cpu.pending 1 = true ∧
    ({ busy with cpu := { busy.cpu with finish := some 0x100 } } : State).cpu.finished = true ∧
    betweenHalves (withPool busy [⟨0, .writeBack 0x80 1, 0x22000008, .word⟩]).cpu.pool = true :=
  ⟨⟨by decide, by decide, by intro r h; cases h; decide, rfl⟩, by decide, by decide, by decide⟩

/-- `busy` with two bus masters that have an access to issue: one with nothing outstanding, one between the halves of an
alias write. -/
def listed : State :=
  { busy with masters := [⟨8, [⟨0x22000008, .word, none⟩], 0, [], []⟩,
    ⟨9, [⟨0x20000200, .half, some 5⟩], 1, [⟨0, .writeBack 0x80 1, 0x22000008, .word⟩], []⟩] }

theorem witness_PlainAccessIssues_master :
    (listed.masters[0]? = some ⟨8, [⟨0x22000008, .word, none⟩], 0, [], []⟩ ∧ betweenHalves [] = false) ∧
    (listed.masters[1]? =
        some ⟨9, [⟨0x20000200, .half, some 5⟩], 1, [⟨0, .writeBack 0x80 1, 0x22000008, .word⟩], []⟩ ∧
      betweenHalves [⟨0, .writeBack 0x80 1, 0x22000008, .word⟩] = true) := by decide

/-- `listed` after a switch to a map that has nothing at 0, with a read there outstanding that was issued before it. -/
def switched : State :=
  { listed with
    map := sramMap, mapHistory := [normalMap],
    cpu := { listed.cpu with pool := [⟨0, .read (some 1), 0x00000100, .word⟩, ⟨1, .write 5, 0x20000100, .word⟩] } }

theorem witness_PlainWriteCompletes :
    busy.mem.wf ∧ busy.cpu.pool[1]? = some ⟨1, .write 0x11223344, 0x20000200, .word⟩ ∧
    mayComplete busy.plat busy.cpu ⟨1, .write 0x11223344, 0x20000200, .word⟩ = true ∧
    (0x20000200#32).toNat % 4 = 0 ∧ inAlias (0x20000200#32).toNat = false ∧
    ∀ map ∈ admitted busy, plainStorage map (0x20000200#32).toNat 4 = true := by decide

theorem witness_StoreExclusiveOutcome :
    busy.Inv ∧
    (busy.cpu.pool[3]? = some ⟨3, .storeExcl 7 2 false, 0x20000300, .word⟩ ∧
      mayComplete busy.plat busy.cpu ⟨3, .storeExcl 7 2 false, 0x20000300, .word⟩ = true) ∧
    (busy.cpu.pool[4]? = some ⟨4, .storeExcl 7 3 true, 0x20000304, .byte⟩ ∧
      mayComplete busy.plat busy.cpu ⟨4, .storeExcl 7 3 true, 0x20000304, .byte⟩ = true) :=
  ⟨busy_inv, by decide, by decide⟩

/-- `busy` with a tag, its processor observing agent 9. -/
def observing : State :=
  { busy with cpu := { busy.cpu with exclObserved := [9], tag := some ⟨0x20000300, .word, true⟩ } }

theorem witness_ObservedWriteEndsExclusive :
    ((∃ t, memWrite normalMap 9 0x20000303 .byte 5 observing = .next t) ∧
      (9 ≠ observing.cpu.id ∧ 9 ∈ observing.cpu.exclObserved) ∧ observing.procs[0]? = some observing.cpu ∧
      observing.cpu.tag = some ⟨0x20000300, .word, true⟩ ∧
      overlaps (footprint observing.plat (0x20000303#32).toNat .byte) ((0x20000300#32).toNat, 4) = true) ∧
    (observing.cpu.pool[4]? = some ⟨4, .storeExcl 7 3 true, 0x20000304, .byte⟩ ∧
      overlaps (footprint observing.plat (0x20000303#32).toNat .byte) ((0x20000304#32).toNat, 1) = false ∧
      (∃ t, memWrite normalMap 9 0x20000304 .word 5 observing = .next t) ∧
      overlaps (footprint observing.plat (0x20000304#32).toNat .word) ((0x20000304#32).toNat, 1) = true ∧
      overlaps (footprint observing.plat (0x20000304#32).toNat .word) ((0x20000300#32).toNat, 4) = false) ∧
    ((∃ t, aliasWriteBack normalMap 9 0x22006000 0 1 observing = .next t) ∧
      overlaps ((aliasLocation observing.plat (0x22006000#32).toNat).1,
        (aliasLocation observing.plat (0x22006000#32).toNat).2.bytes) ((0x20000300#32).toNat, 4) = true) ∧
    ((∃ t, memWrite normalMap 8 0x20000304 .word 5 observing = .next t) ∧
      ¬ (8 ≠ observing.cpu.id ∧ 8 ∈ observing.cpu.exclObserved)) :=
  ⟨⟨⟨_, rfl⟩, by decide, rfl, rfl, by decide⟩, ⟨rfl, by decide, ⟨_, rfl⟩, by decide, by decide⟩,
    ⟨⟨_, rfl⟩, by decide⟩, ⟨_, rfl⟩, by decide⟩

/-- A word write and a byte write inside its last byte. -/
def overlapping : State :=
  withPool (start 0x100 [] []) [⟨0, .write 1, 0x20000000, .word⟩, ⟨1, .write 2, 0x20000003, .byte⟩]

theorem witness_OverlappingCompleteInProgramOrder :
    overlapping.cpu.pool[1]? = some ⟨1, .write 2, 0x20000003, .byte⟩ ∧
    (⟨0, .write 1, 0x20000000, .word⟩ : Txn) ∈ overlapping.cpu.pool ∧ 0 < 1 ∧
    overlaps (Txn.footprint overlapping.plat ⟨0, .write 1, 0x20000000, .word⟩)
      (Txn.footprint overlapping.plat ⟨1, .write 2, 0x20000003, .byte⟩) = true := by decide

theorem witness_StronglyOrderedCompleteInProgramOrder :
    (withPool (start 0x100 [] []) [⟨0, .write 1, 0xE0000000, .word⟩, ⟨1, .write 2, 0xE00FFFFF, .byte⟩]).cpu.pool[1]? =
      some ⟨1, .write 2, 0xE00FFFFF, .byte⟩ ∧
    (0xE0000000 ≤ (0xE0000000#32).toNat ∧ (0xE0000000#32).toNat ≤ 0xE00FFFFF) ∧
    (0xE0000000 ≤ (0xE00FFFFF#32).toNat ∧ (0xE00FFFFF#32).toNat ≤ 0xE00FFFFF) := by decide

theorem witness_OtherwiseNoOrder :
    Config.platform.orderTable = [] ∧
    overlaps (Txn.footprint Config.platform ⟨0, .write 1, 0x20000000, .word⟩)
      (Txn.footprint Config.platform ⟨1, .write 2, 0xE000E100, .word⟩) = false ∧
    (∀ d ∈ [0, 1], ¬ (0 < d ∧ d < 1)) ∧
    ¬ (Txn.memType Config.platform ⟨0, .write 1, 0x20000000, .word⟩ = .stronglyOrdered ∧
      Txn.memType Config.platform ⟨1, .write 2, 0xE000E100, .word⟩ = .stronglyOrdered) := by decide

theorem witness_SomeTransactionMayComplete : busy.Inv ∧ busy.cpu.pool ≠ [] := ⟨busy_inv, by decide⟩

theorem witness_SettleEmptiesPool : busy.Inv ∧ switched.Inv :=
  ⟨busy_inv, inv_of_checks rfl (by decide) (by decide) (by decide) (by decide) (by decide) (by decide) (by decide)
    (by decide) (by decide) (by decide) (by decide)⟩

/-- A read, a plain write and an alias write outstanding. -/
def busyPlain : State := { busy with cpu := { busy.cpu with pool := busy.cpu.pool.take 3 } }

theorem busyPlain_inv : busyPlain.Inv :=
  inv_of_checks rfl (by decide) (by decide) (by decide) (by decide) (by decide) (by decide) (by decide) (by decide) (by decide)
    (by decide) (by decide)

/-! Memory and devices. -/

theorem witness_LittleEndianWord :
    busy.mem.wf ∧ (0x9FFFFFFC#32).toNat % 4 = 0 ∧ inAlias (0x9FFFFFFC#32).toNat = false ∧
    plainStorage normalMap (0x9FFFFFFC#32).toNat 4 = true ∧ DistinctPlaces normalMap (0x9FFFFFFC#32).toNat 4 := by
  decide

theorem witness_ReadAfterWrite :
    busy.mem.wf ∧ inAlias (0x9FFFFFFC#32).toNat = false ∧ plainStorage normalMap (0x9FFFFFFC#32).toNat 4 = true ∧
    DistinctPlaces normalMap (0x9FFFFFFC#32).toNat 4 ∧
    (∃ t, memWrite normalMap 0 0x9FFFFFFC .word 0x11223344 busy = .next t) ∧
    (∃ t, memWrite normalMap 0 0x9FFFFFFE .half 0x11223344 busy = .next t) ∧
    DistinctPlaces normalMap (0x9FFFFFFE#32).toNat 2 ∧ 3 < 4 ∧ 2 % 2 = 0 :=
  ⟨by decide, by decide, by decide, by decide, ⟨_, rfl⟩, ⟨_, rfl⟩, by decide, by decide, by decide⟩

theorem witness_CanonicalMemoryDetermined :
    busy.mem.wf ∧ (busy.mem.write 5 0).wf ∧ ∀ a, busy.mem.read a = (busy.mem.write 5 0).read a :=
  ⟨by decide, by decide, fun _ => rfl⟩

/-- A state of a system that has one device, with an alias write to it outstanding. -/
def withDevice : State :=
  onMap (withPool (start 0x100 [] []) [⟨0, .write 1, 0x42218194, .word⟩]) deviceMap .word

theorem witness_DeviceAccessReachesDevice :
    (0x40010C0C#32).toNat % 4 = 0 ∧ inAlias (0x40010C0C#32).toNat = false ∧
    populated deviceMap (0x40010C0C#32).toNat 4 = true ∧ memTypeOf (regionOf (0x40010C0C#32).toNat) ≠ .normal ∧
    plainStorage deviceMap (0x40010C0C#32).toNat 4 = false := by decide

theorem witness_PlainAccessRefusals :
    (0x2200000A#32).toNat % 4 ≠ 0 ∧
    ((0x43FFFFFE#32).toNat % 2 = 0 ∧ inAlias (0x43FFFFFE#32).toNat = true ∧ Size.half ≠ Size.word) ∧
    ((0xFFFFFFFF#32).toNat % 1 = 0 ∧ inAlias (0xFFFFFFFF#32).toNat = false ∧
      populated deviceMap (0xFFFFFFFF#32).toNat 1 = false) ∧
    ((0x23FFFFFC#32).toNat % 4 = 0 ∧ inAlias (0x23FFFFFC#32).toNat = true ∧
      target (0x23FFFFFC#32).toNat = (0x200FFFFF, 7) ∧ inPeripheralAlias (0x23FFFFFC#32).toNat = false ∧
      populated deviceMap 0x200FFFFF 1 = false) ∧
    ((0x42000000#32).toNat % 4 = 0 ∧ inAlias (0x42000000#32).toNat = true ∧
      target (0x42000000#32).toNat = (0x40000000, 0) ∧ inSramAlias (0x42000000#32).toNat = false ∧
      0x40000000 = 0x40000000 - 0x40000000 % withDevice.plat.bbRmwWidth.bytes ∧
      populated deviceMap 0x40000000 withDevice.plat.bbRmwWidth.bytes = false) := by decide

/-- 95_test_vectors.md section 2: both ends of each region. -/
theorem witness_RegionTable :
    [0x00000000, 0x1FFFFFFF, 0x20000000, 0x3FFFFFFF, 0x40000000, 0x5FFFFFFF, 0x60000000, 0x9FFFFFFF, 0xA0000000,
      0xDFFFFFFF, 0xE0000000, 0xE00FFFFF, 0xE0100000, 0xFFFFFFFF].map regionOf =
    [.code, .code, .sram, .sram, .peripheral, .peripheral, .externalRam, .externalRam, .externalDevice,
      .externalDevice, .privatePeripheralBus, .privatePeripheralBus, .mappedPeripherals, .mappedPeripherals] := by decide

/-- A byte write outstanding that `switching` switches on, and one that it does not. -/
def aboutToSwitch : State :=
  switching (withPool (start 0x100 [] []) [⟨0, .write 1, 0x20000000, .byte⟩, ⟨1, .write 2, 0x20000004, .byte⟩])

theorem witness_MemoryMapSwitch :
    ((∃ t, memWrite normalMap 0 0x20000000 .byte 0x101 aboutToSwitch = .next t) ∧
      inAlias (0x20000000#32).toNat = false ∧
      aboutToSwitch.plat.mapSwitch = [] ++ ⟨0x20000000, .byte, 1, 1, remapped⟩ :: [] ∧
      Fits ⟨0x20000000, .byte, 1, 1, remapped⟩ (0x20000000#32).toNat .byte 0x101 ∧ 0 ≤ aboutToSwitch.mapHistory.length) ∧
    ((∃ t, memWrite normalMap 0 0x20000000 .half 0x101 aboutToSwitch = .next t) ∧
      ¬ Fits ⟨0x20000000, .byte, 1, 1, remapped⟩ (0x20000000#32).toNat .half 0x101) ∧
    ((switching (start 0x100 [] [])).cpu.pool = [] ∧ ∃ t, exec (.dsb 15) (switching (start 0x100 [] [])) = .next t) ∧
    ((⟨0, .write 1, 0x20000000, .byte⟩ : Txn) ∈ aboutToSwitch.outstanding ∧
      inAlias (0x20000000#32).toNat = false ∧
      aboutToSwitch.plat.mapSwitch = [] ++ ⟨0x20000000, .byte, 1, 1, remapped⟩ :: [] ∧
      Fits ⟨0x20000000, .byte, 1, 1, remapped⟩ (0x20000000#32).toNat .byte 1) ∧
    (⟨0, .storeExcl 3 2 true, 0x20000000, .byte⟩ : Txn) ∈
      (withPool aboutToSwitch [⟨0, .storeExcl 3 2 true, 0x20000000, .byte⟩]).outstanding ∧
    busy.fixedMap :=
  ⟨⟨⟨_, rfl⟩, by decide, rfl, by simp [Fits, Size.bytes], by decide⟩, ⟨⟨_, rfl⟩, by simp [Fits]⟩, ⟨rfl, _, rfl⟩,
    ⟨by decide, by decide, rfl, by simp [Fits, Size.bytes]⟩, by decide, rfl, rfl⟩

/-! Bit-banding. -/

theorem witness_AliasWordFormula : 0xFFFFF ≤ 0xFFFFF ∧ 7 ≤ 7 ∧ 0 ≤ 0xFFFFF ∧ 0 ≤ 7 := by decide

theorem witness_AliasTargetInverse :
    (inSramBitBand 0x200FFFFF = true ∧ 7 < 8) ∧ (inPeripheralBitBand 0x40000000 = true ∧ 0 < 8) ∧
    (inAlias 0x23FFFFFC = true ∧ 0x23FFFFFC % 4 = 0) ∧ (inAlias 0x42000000 = true ∧ 0x42000000 % 4 = 0) := by decide

theorem witness_AliasReadReturnsBit :
    (inAlias (0x23FFFFFC#32).toNat = true ∧ (0x23FFFFFC#32).toNat % 4 = 0 ∧
      plainStorage normalMap (aliasLocation busy.plat (0x23FFFFFC#32).toNat).1
        (aliasLocation busy.plat (0x23FFFFFC#32).toNat).2.bytes = true) ∧
    (inPeripheralAlias (0x42218194#32).toNat = true ∧ (0x42218194#32).toNat % 4 = 0 ∧
      target (0x42218194#32).toNat = (0x40010C0C, 5) ∧
      0x40010C0C = 0x40010C0C - 0x40010C0C % withDevice.plat.bbRmwWidth.bytes ∧
      populated deviceMap 0x40010C0C withDevice.plat.bbRmwWidth.bytes = true ∧
      plainStorage deviceMap 0x40010C0C withDevice.plat.bbRmwWidth.bytes = false) := by decide

theorem witness_AliasWriteSetsOneBit :
    (busy.mem.wf ∧ inAlias (0x22000000#32).toNat = true ∧ (0x22000000#32).toNat % 4 = 0 ∧
      plainStorage normalMap (aliasLocation busy.plat (0x22000000#32).toNat).1
        (aliasLocation busy.plat (0x22000000#32).toNat).2.bytes = true ∧
      DistinctPlaces normalMap (aliasLocation busy.plat (0x22000000#32).toNat).1
        (aliasLocation busy.plat (0x22000000#32).toNat).2.bytes) ∧
    (inAlias (0x42218194#32).toNat = true ∧
      plainStorage portMap (aliasLocation busy.plat (0x42218194#32).toNat).1
        (aliasLocation busy.plat (0x42218194#32).toNat).2.bytes = true ∧
      DistinctPlaces portMap (aliasLocation busy.plat (0x42218194#32).toNat).1
        (aliasLocation busy.plat (0x42218194#32).toNat).2.bytes) := by decide

/-- The last bit of the location at 0x40010C0C: bit 7 of its byte 3. -/
theorem witness_PeripheralAliasWriteReadsThenWrites :
    inPeripheralAlias (0x422181FC#32).toNat = true ∧ (0x422181FC#32).toNat % 4 = 0 ∧
    target (0x422181FC#32).toNat = (0x40010C0F, 7) ∧
    0x40010C0C = 0x40010C0F - 0x40010C0F % withDevice.plat.bbRmwWidth.bytes ∧
    populated deviceMap 0x40010C0C withDevice.plat.bbRmwWidth.bytes = true ∧
    plainStorage deviceMap 0x40010C0C withDevice.plat.bbRmwWidth.bytes = false := by decide

/-- An alias write halfway, beside a read. -/
def halfway : State :=
  withPool (start 0x100 [] [])
    [⟨0, .writeBack 0x80 1, 0x22000008, .word⟩, ⟨1, .read (some 1), 0x20000100, .word⟩]

/-- An alias write to the device halfway. -/
def deviceHalfway : State :=
  { withDevice with cpu := { withDevice.cpu with pool := [⟨0, .writeBack 0x80 1, 0x42218194, .word⟩] } }

theorem witness_AliasWriteInTwoHalves :
    (busy.cpu.pool[2]? = some ⟨2, .write 1, 0x22000008, .word⟩ ∧
      mayComplete busy.plat busy.cpu ⟨2, .write 1, 0x22000008, .word⟩ = true ∧ inAlias (0x22000008#32).toNat = true ∧
      (0x22000008#32).toNat % 4 = 0 ∧ aliasLocation busy.plat (0x22000008#32).toNat = (0x20000000, .byte) ∧
      ∀ map ∈ admitted busy, plainStorage map 0x20000000 1 = true) ∧
    (withDevice.cpu.pool[0]? = some ⟨0, .write 1, 0x42218194, .word⟩ ∧
      mayComplete withDevice.plat withDevice.cpu ⟨0, .write 1, 0x42218194, .word⟩ = true ∧
      inAlias (0x42218194#32).toNat = true ∧ (0x42218194#32).toNat % 4 = 0 ∧
      aliasLocation withDevice.plat (0x42218194#32).toNat = (0x40010C0C, .word) ∧
      ∀ map ∈ admitted withDevice, servedByDevice map 0x40010C0C 4 = true ∧ populated map 0x40010C0C 4 = true) ∧
    (halfway.cpu.pool[1]? = some ⟨1, .read (some 1), 0x20000100, .word⟩ ∧
      Txn.isWriteBack ⟨1, .read (some 1), 0x20000100, .word⟩ = false ∧
      (⟨0, .writeBack 0x80 1, 0x22000008, .word⟩ : Txn) ∈ halfway.cpu.pool ∧
      Txn.isWriteBack ⟨0, .writeBack 0x80 1, 0x22000008, .word⟩ = true) ∧
    (halfway.mem.wf ∧ halfway.cpu.pool[0]? = some ⟨0, .writeBack 0x80 1, 0x22000008, .word⟩ ∧
      mayComplete halfway.plat halfway.cpu ⟨0, .writeBack 0x80 1, 0x22000008, .word⟩ = true ∧
      aliasLocation halfway.plat (0x22000008#32).toNat = (0x20000000, .byte) ∧
      ∀ map ∈ admitted halfway, plainStorage map 0x20000000 1 = true ∧ DistinctPlaces map 0x20000000 1) ∧
    (deviceHalfway.mem.wf ∧ deviceHalfway.cpu.pool[0]? = some ⟨0, .writeBack 0x80 1, 0x42218194, .word⟩ ∧
      mayComplete deviceHalfway.plat deviceHalfway.cpu ⟨0, .writeBack 0x80 1, 0x42218194, .word⟩ = true ∧
      aliasLocation deviceHalfway.plat (0x42218194#32).toNat = (0x40010C0C, .word) ∧
      ∀ map ∈ admitted deviceHalfway,
        servedByDevice map 0x40010C0C 4 = true ∧ populated map 0x40010C0C 4 = true) := by decide

/-! Instruction fetch. -/

/-- One address for each branch: odd, XN, unpopulated, and fetched; and one pc for each order. -/
theorem witness_FetchChecks :
    (0x101#32).toNat % 2 ≠ 0 ∧
    ((0x5FFFFFFE#32).toNat % 2 = 0 ∧ isXN (regionOf (0x5FFFFFFE#32).toNat) = true) ∧
    (isXN (regionOf (0x100#32).toNat) = false ∧ ∀ map ∈ admitted withDevice, populated map (0x100#32).toNat 2 = false) ∧
    ((0x9FFFFFFE#32).toNat % 2 = 0 ∧ isXN (regionOf (0x9FFFFFFE#32).toNat) = false ∧
      ∀ map ∈ admitted busy, populated map (0x9FFFFFFE#32).toNat 2 = true) ∧
    (faultOf (fetchHalf 0x40000000 (start 0x40000000 [] [])) = some (.xnFetch 0x40000000) ∧
      (start 0x101 [] []).cpu.pc.toNat % 2 ≠ 0 ∧
      refusalOf (fetchHalf 0x3FFFFFFE (onMap (start 0x3FFFFFFE [] []) sramMap .word)) = some (.unpopulated 0x3FFFFFFE) ∧
      isXN (regionOf (0x3FFFFFFE + 2#32 : Word).toNat) = true ∧
      isXN (regionOf (0x3FFFFFFC + 2#32 : Word).toNat) = false ∧
      ((nextOf (fetchHalf 0x3FFFFFFE (start 0x3FFFFFFE [] (cellsAt 0x3FFFFFFE [0xBF, 0xF3])))).map
        (fun r => r.map (fun f => f.1))) = some (some 0xF3BF) ∧ opensTwoHalfwords 0xF3BF = true) := by decide

/-- `busy` with one byte overwritten: since the ISB, and before an own write to it that is older than the ISB completed. -/
def overwritten (seen : List (Nat × Nat)) : State :=
  { busy with cpu := { busy.cpu with seen := seen }, history := [(0x20000101, 0xAA)] }

theorem witness_FetchReturnsAdmittedBytes :
    (∃ h t, fetchHalf 0x20000100 (overwritten []) = .next (some (h, t))) ∧
    admitted (overwritten []) = [(overwritten []).map] ∧
    staleBytes (overwritten []) (place normalMap (0x20000100#32).toNat) = [] ∧
    staleBytes (overwritten []) (place normalMap ((0x20000100#32).toNat + 1)) = [0xAA] ∧
    staleBytes (overwritten [(0x20000101, 1)]) (place normalMap ((0x20000100#32).toNat + 1)) = [] :=
  ⟨⟨_, _, rfl⟩, by decide, by decide, by decide, by decide⟩

theorem witness_SramAliasFetchNotRemapped :
    (inSramAlias (0x23FFFFFE#32).toNat = true ∧ (0x23FFFFFE#32).toNat % 2 = 0 ∧
      (∀ map ∈ admitted busy, populated map (0x23FFFFFE#32).toNat 2 = true ∧
        staleBytes busy (place map (0x23FFFFFE#32).toNat) = [] ∧
        staleBytes busy (place map ((0x23FFFFFE#32).toNat + 1)) = []) ∧
      fetchWaits busy (0x23FFFFFE#32).toNat = false) ∧
    (inSramAlias (0x22000000#32).toNat = true ∧
      ∀ map ∈ admitted withDevice, populated map (0x22000000#32).toNat 2 = false) := by decide

/-- `patching` with the outstanding write to the second halfword instead. -/
def patchingSecond : State :=
  { patching with cpu := { patching.cpu with pool := [⟨0, .write 0x8F4F, 0x20000102, .half⟩] } }

theorem witness_FetchWaitsForOwnCodeWrite :
    ((⟨0, .write 0xBF00, 0x20000100, .half⟩ : Txn) ∈ patching.cpu.pool ∧
      Txn.isWrite ⟨0, .write 0xBF00, 0x20000100, .half⟩ = true ∧ 0 < patching.cpu.isbSeq ∧
      patching.cpu.pc.toNat % 2 = 0 ∧
      overlaps (Txn.footprint patching.plat ⟨0, .write 0xBF00, 0x20000100, .half⟩) (patching.cpu.pc.toNat, 2) = true ∧
      isXN (regionOf patching.cpu.pc.toNat) = false ∧
      ∀ map ∈ admitted patching, populated map patching.cpu.pc.toNat 2 = true) ∧
    ((⟨0, .write 0x8F4F, 0x20000102, .half⟩ : Txn) ∈ patchingSecond.cpu.pool ∧ 0 < patchingSecond.cpu.isbSeq ∧
      ((nextOf (fetchHalf patchingSecond.cpu.pc patchingSecond)).map (fun r => r.map (fun f => f.1))) =
        some (some 0xF3BF) ∧ opensTwoHalfwords 0xF3BF = true ∧
      overlaps (Txn.footprint patchingSecond.plat ⟨0, .write 0x8F4F, 0x20000102, .half⟩)
        ((patchingSecond.cpu.pc + 2#32).toNat, 2) = true ∧
      isXN (regionOf (patchingSecond.cpu.pc + 2#32).toNat) = false ∧
      ∀ map ∈ admitted patchingSecond, populated map (patchingSecond.cpu.pc + 2#32).toNat 2 = true) := by decide

theorem witness_OwnCodeWriteSeenAfterIsb :
    (patching.cpu.pool[0]? = some ⟨0, .write 0xBF00, 0x20000100, .half⟩ ∧ 0 < patching.cpu.isbSeq ∧
      (nextOf (completeAt 0 patching)).map (writtenSince patching) = some [(0x20000101, 0xF3), (0x20000100, 0xBF)] ∧
      patching.mem.wf ∧ mayComplete patching.plat patching.cpu ⟨0, .write 0xBF00, 0x20000100, .half⟩ = true ∧
      inAlias (0x20000100#32).toNat = false ∧
      ∀ map ∈ admitted patching, plainStorage map (0x20000100#32).toNat 2 = true) ∧
    (busy.Inv ∧ (∃ t, play (.complete 1) busy = .next t) ∧ ∀ k, Move.complete 1 ≠ .focus k) :=
  ⟨by decide, busy_inv, ⟨_, rfl⟩, by simp⟩

theorem witness_OnlyIsbMovesFetchEpoch :
    (∃ t, exec (.dmb 15) twoWrites = .next t) ∧ (∀ option, Instr.dmb 15 ≠ .isb option) ∧
    (∃ t, play (.complete 0) twoWrites = .next t) ∧ Move.complete 0 ≠ .issue ∧ ∀ k, Move.complete 0 ≠ .focus k :=
  ⟨⟨_, rfl⟩, by simp, ⟨_, rfl⟩, by simp, by simp⟩

/-! The whole machine. -/

/-- A `DMB` at 0x1FFFFFFE, so that its two halfwords lie in two regions. -/
def spanning : State := start 0x1FFFFFFE [] (cellsAt 0x1FFFFFFE [0xBF, 0xF3, 0x5F, 0x8F])

theorem witness_StepRunsDecodedInstruction :
    spanning.cpu.finished = false ∧ betweenHalves spanning.cpu.pool = false ∧ spanning.cpu.pc.toNat % 2 = 0 ∧ spanning.agenda = [] ∧
    (∀ k ∈ [0, 2], isXN (regionOf (spanning.cpu.pc.toNat + k)) = false ∧
      fetchWaits spanning (spanning.cpu.pc.toNat + k) = false ∧
      ∀ map ∈ admitted spanning, populated map (spanning.cpu.pc.toNat + k) 2 = true) ∧
    ∀ map ∈ admitted spanning, (∀ k, k < 4 → staleBytes spanning (place map (spanning.cpu.pc.toNat + k)) = []) ∧
      [0, 1, 2, 3].map (fun k => spanning.mem.read (place map (spanning.cpu.pc.toNat + k))) = encode (.dmb 15) := by
  decide

/-- A state with the pc at the first address that cannot be advanced. -/
def atTop (tag : Option Tag) : State :=
  { start 0xFFFFFFFA [(0, 0x20000100)] [] with cpu := { (start 0xFFFFFFFA [(0, 0x20000100)] []).cpu with tag := tag } }

theorem witness_PcOverflowRefused :
    ((atTop none).cpu.pc.toNat + 4 > 0xFFFFFFFC ∧ (atTop none).cpu.pool = []) ∧
    (loadForm (.ldrexb 1 0) = some (1, 0, 0, .byte) ∧ Instr.wellFormed (.ldrexb 1 0) = true ∧
      (atTop none).cpu.pending 1 = false ∧ (atTop none).cpu.pending 0 = false ∧
      0x20000100 = ((atTop none).cpu.reg 0).toNat + 0 ∧ 0x20000100 % 1 = 0) ∧
    (storeForm (.strexb 2 1 0) = some (2, 1, 0, 0, .byte) ∧ Instr.wellFormed (.strexb 2 1 0) = true ∧
      (∀ r ∈ [2, 1, 0], (atTop (some ⟨0x20000100, .byte, true⟩)).cpu.pending r = false) ∧
      (atTop (some ⟨0x20000100, .byte, true⟩)).cpu.pc.toNat + 4 > 0xFFFFFFFC ∧
      0x20000100 = ((atTop (some ⟨0x20000100, .byte, true⟩)).cpu.reg 0).toNat + 0 ∧
      (atTop (some ⟨0x20000100, .byte, true⟩)).cpu.tag = some ⟨BitVec.ofNat 32 0x20000100, .byte, true⟩) := by decide

/-- A finished processor with a read outstanding. -/
theorem witness_FinishedProcessorFetchesNothing :
    ({ busy with cpu := { busy.cpu with finish := some 0x100 } } : State).cpu.finish = some busy.cpu.pc ∧
    ({ busy with cpu := { busy.cpu with finish := some 0x100 } } : State).agenda = [] := by decide

/-- A second processor, which holds a tag and has a read outstanding. -/
def twoProcs : State :=
  { running [0xBF, 0xF3, 0x4F, 0x8F] 0 0 with
    others := [{ Proc.launch 1 with tag := some ⟨0x20000100, .word, true⟩, seq := 1,
                                    pool := [⟨0, .read (some 1), 0x20000100, .word⟩] }] }

theorem witness_OtherProcessorsKeepTheirState :
    (∃ t, step twoProcs = .next t ∧ (∀ k rest, twoProcs.agenda ≠ .focus k :: rest) ∧ (twoProcs.others[0]?).isSome ∧
      (t.others[0]?).isSome) ∧
    (∃ t, step { twoProcs with agenda := [.issue, .focus 0] } = .next t ∧
      ∀ k rest, [Move.issue, .focus 0] ≠ .focus k :: rest) ∧
    ({ twoProcs with agenda := [.focus 0] } : State).agenda = .focus 0 :: [] :=
  ⟨⟨_, rfl, by simp [twoProcs, running, start, State.reset], by decide, by decide⟩, ⟨_, rfl, by simp⟩, rfl⟩

/-- A bus master with a write outstanding. -/
def mastered : State :=
  { running [] 0 0 with masters := [⟨9, [], 1, [⟨0, .write 0x11223344, 0x20000200, .word⟩], []⟩] }

theorem witness_MasterWriteCompletes :
    mastered.mem.wf ∧ mastered.masters[0]? = some ⟨9, [], 1, [⟨0, .write 0x11223344, 0x20000200, .word⟩], []⟩ ∧
    Txn.isWriteBack ⟨0, .write 0x11223344, 0x20000200, .word⟩ = false ∧ (0x20000200#32).toNat % 4 = 0 ∧
    inAlias (0x20000200#32).toNat = false ∧
    (∀ map ∈ mastered.mapsAdmitted 0, plainStorage map (0x20000200#32).toNat 4 = true) ∧
    mastered.procs[0]? = some mastered.cpu := by decide

theorem witness_StepKeepsInvariant : busyPlain.Inv ∧ ∃ t, step { busyPlain with agenda := [.complete 0] } = .next t :=
  ⟨busyPlain_inv, _, rfl⟩

/-- With nothing on the agenda, a step from a state that meets the invariant. -/
theorem witness_StepKeepsInvariant_running :
    (running [0x50, 0xE8, 0x00, 0x1F] 0x20000100 0).Inv ∧
    ∃ t, step (running [0x50, 0xE8, 0x00, 0x1F] 0x20000100 0) = .next t :=
  ⟨inv_of_checks rfl (by decide) (by decide) (by decide) (by decide) (by decide) (by decide) (by decide) (by decide) (by decide)
    (by decide) (by decide), _, rfl⟩

end Sys2Proof.Tests
end

section
/-! PROOFS. The memory map and plain accesses to it (20_memory.md R41, R53). -/

namespace Sys2Proof.Proofs.MemoryMap

open Sys2Proof.Machine Sys2Proof.Statements

/-! ### Word order -/

/-- The next state of a `MemWrite` to plain storage: the bytes of the value in their cells, and every other cell kept
(R53, R55, R60). -/
theorem memWrite_plain_bytes {map : MemoryMap} {s : State} {who : Nat} {a v : Word} {size : Size} (hwf : s.mem.wf)
    (haligned : a.toNat % size.bytes = 0) (halias : inAlias a.toNat = false)
    (hplain : plainStorage map a.toNat size.bytes = true) :
    ∃ t, memWrite map who a size v s = .next t ∧ BytesWritten map a.toNat size.bytes v t ∧
      BytesKeptBut map a.toNat size.bytes s t := by
  refine ⟨_, memWrite_plain haligned halias hplain, fun hdistinct j hj => ?_, fun c hc => ?_⟩
  · simpa using State.pokes_bytesOf_read hwf v hdistinct hj
  · simpa using State.pokes_read_of_ne hwf map a.toNat (bytesOf size v) c (by simpa using hc)

/-- Settles O34: the read by the bytes of `valueAt`, the write byte by byte. -/
theorem littleEndianWord : Obligations.LittleEndianWord := by
  intro s map who a v hwf haligned halias hplain hdistinct
  obtain ⟨t, hwrite, hbytes, hkept⟩ :=
    memWrite_plain_bytes (who := who) (v := v) (size := .word) hwf haligned halias hplain
  have hbyte := hbytes hdistinct
  exact ⟨memRead_plain (size := .word) haligned halias hplain, t, hwrite, hbyte 0 (by decide), hbyte 1 (by decide),
    hbyte 2 (by decide), hbyte 3 (by decide), hkept⟩

/-! ### The region table -/

section
variable {a : Nat}

theorem regionOf_eq_code (hi : a ≤ 0x1FFFFFFF) : regionOf a = .code := if_pos (by omega)

theorem regionOf_eq_sram (lo : 0x20000000 ≤ a) (hi : a ≤ 0x3FFFFFFF) : regionOf a = .sram := by
  rw [regionOf, if_neg (by omega), if_pos (by omega)]

theorem regionOf_eq_peripheral (lo : 0x40000000 ≤ a) (hi : a ≤ 0x5FFFFFFF) : regionOf a = .peripheral := by
  rw [regionOf, if_neg (by omega), if_neg (by omega), if_pos (by omega)]

theorem regionOf_eq_externalRam (lo : 0x60000000 ≤ a) (hi : a ≤ 0x9FFFFFFF) : regionOf a = .externalRam := by
  rw [regionOf, if_neg (by omega), if_neg (by omega), if_neg (by omega), if_pos (by omega)]

theorem regionOf_eq_externalDevice (lo : 0xA0000000 ≤ a) (hi : a ≤ 0xDFFFFFFF) : regionOf a = .externalDevice := by
  rw [regionOf, if_neg (by omega), if_neg (by omega), if_neg (by omega), if_neg (by omega), if_pos (by omega)]

theorem regionOf_eq_privatePeripheralBus (lo : 0xE0000000 ≤ a) (hi : a ≤ 0xE00FFFFF) :
    regionOf a = .privatePeripheralBus := by
  rw [regionOf, if_neg (by omega), if_neg (by omega), if_neg (by omega), if_neg (by omega), if_neg (by omega),
    if_pos (by omega)]

theorem regionOf_eq_mappedPeripherals (lo : 0xE0100000 ≤ a) : regionOf a = .mappedPeripherals := by
  rw [regionOf, if_neg (by omega), if_neg (by omega), if_neg (by omega), if_neg (by omega), if_neg (by omega),
    if_neg (by omega)]

end

theorem memTypeOf_eq_normal_iff (r : Region) : memTypeOf r = .normal ↔ r = .code ∨ r = .sram ∨ r = .externalRam := by
  cases r <;> decide

theorem memTypeOf_eq_stronglyOrdered_iff (r : Region) : memTypeOf r = .stronglyOrdered ↔ r = .privatePeripheralBus := by
  cases r <;> decide

/-- The executable regions are the Normal ones. -/
theorem isXN_eq_false_iff (r : Region) : isXN r = false ↔ memTypeOf r = .normal := by
  cases r <;> decide

/-- Settles O39, a row of the table at a time. -/
theorem regionTable : Obligations.RegionTable := fun a =>
  ⟨regionOf_eq_code, fun ⟨lo, hi⟩ => regionOf_eq_sram lo hi, fun ⟨lo, hi⟩ => regionOf_eq_peripheral lo hi,
    fun ⟨lo, hi⟩ => regionOf_eq_externalRam lo hi, fun ⟨lo, hi⟩ => regionOf_eq_externalDevice lo hi,
    fun ⟨lo, hi⟩ => regionOf_eq_privatePeripheralBus lo hi, fun ⟨lo, _⟩ => regionOf_eq_mappedPeripherals lo,
    memTypeOf_eq_normal_iff (regionOf a), memTypeOf_eq_stronglyOrdered_iff (regionOf a), isXN_eq_false_iff (regionOf a)⟩

end Sys2Proof.Proofs.MemoryMap
end

section
/-! PROOFS. What a DSB does by the processor's pool (40_barriers.md R132). -/

namespace Sys2Proof.Proofs.Barriers

open Sys2Proof.Machine

/-- A DSB whose option is accepted is a choice by the pool. -/
theorem exec_dsb_optionSY (s : State) :
    exec (.dsb optionSY) s =
      if s.cpu.pool.isEmpty then retire (fun p => { p with mapEpoch := s.mapHistory.length }) s else .next s :=
  guarded_of_ok (i := .dsb optionSY) s _ rfl

theorem exec_dsb_optionSY_holds {s : State} (hpool : s.cpu.pool ≠ []) : exec (.dsb optionSY) s = .next s := by
  rw [exec_dsb_optionSY, if_neg (by simpa using hpool)]

theorem exec_dsb_optionSY_retires {s : State} (hpool : s.cpu.pool = []) :
    exec (.dsb optionSY) s = retire (fun p => { p with mapEpoch := s.mapHistory.length }) s := by
  rw [exec_dsb_optionSY, if_pos (by simp [hpool])]

/-- Settles O9, by whether the pool is empty; the map epoch moves to the end of the map history. -/
theorem dsbWaitsForPool : Obligations.DsbWaitsForPool := fun _ =>
  ⟨exec_dsb_optionSY_holds, fun hpool hpc => ⟨_, (exec_dsb_optionSY_retires hpool).trans (retire_next hpc), rfl⟩⟩

end Sys2Proof.Proofs.Barriers
end

section
/-! PROOFS. Every step keeps the machine's invariant, from the parts of the state it changes (20_memory.md R91). -/

namespace Sys2Proof.Machine

/-! ### The processor in focus -/

section
variable {s : State} {p : Proc}

theorem Proc.Inv.withTag (h : p.Inv s) (tag : Option Tag) : ({ p with tag := tag } : Proc).Inv s :=
  ⟨h.pcEven, h.poolOrdered, h.poolOlder, h.dmbsOlder, h.isbOlder, h.epochPast, h.seenPast, h.mapEpochPast, h.poolSound,
    h.writeBackReady⟩

theorem Proc.Inv.advance (h : p.Inv s) : ({ p with pc := p.pc + 4#32 } : Proc).Inv s := by
  refine ⟨?_, h.poolOrdered, h.poolOlder, h.dmbsOlder, h.isbOlder, h.epochPast, h.seenPast, h.mapEpochPast, h.poolSound,
    h.writeBackReady⟩
  have := h.pcEven
  simp only [BitVec.toNat_add, BitVec.toNat_ofNat]
  omega

theorem Proc.Inv.nextSeq (h : p.Inv s) : ({ p with seq := p.seq + 1 } : Proc).Inv s :=
  ⟨h.pcEven, h.poolOrdered, fun t ht => (h.poolOlder t ht).trans p.seq.lt_succ_self,
    fun d hd => (h.dmbsOlder d hd).trans p.seq.lt_succ_self, h.isbOlder.trans p.seq.le_succ, h.epochPast, h.seenPast,
    h.mapEpochPast, h.poolSound, h.writeBackReady⟩

/-- A sound transaction that is no write back joins the pool, youngest last. -/
theorem Proc.Inv.issue (h : p.Inv s) {u : Txn} (hseq : u.seq = p.seq) (hsound : u.sound s p.mapEpoch)
    (hop : u.isWriteBack = false) : ({ p with seq := p.seq + 1, pool := p.pool ++ [u] } : Proc).Inv s := by
  have hn := h.nextSeq
  have hcases : ∀ t ∈ p.pool ++ [u], t ∈ p.pool ∨ t = u := by simp
  refine ⟨h.pcEven, ?_, fun t ht => ?_, hn.dmbsOlder, hn.isbOlder, h.epochPast, h.seenPast, h.mapEpochPast,
    fun t ht => ?_, fun t ht hw t' ht' => ?_⟩
  · exact List.pairwise_append.mpr ⟨h.poolOrdered, List.pairwise_singleton _ u, by
      simpa [hseq] using h.poolOlder⟩
  · rcases hcases t ht with ht | rfl
    · exact hn.poolOlder t ht
    · exact hseq ▸ p.seq.lt_succ_self
  · rcases hcases t ht with ht | rfl
    · exact h.poolSound t ht
    · exact hsound
  · rcases hcases t ht with hold | rfl
    · rcases hcases t' ht' with hold' | rfl
      · exact h.writeBackReady t hold hw t' hold'
      · exact mustPrecede_of_le _ _ (hseq ▸ (h.poolOlder t hold).le)
    · simp [hop] at hw

/-- A DMB orders nothing among the transactions older than it. -/
theorem mustPrecede_append_dmb (plat : Platform) (dmbs : List Nat) {d : Nat} {t t' : Txn} (h : t.seq ≤ d) :
    mustPrecede plat (dmbs ++ [d]) t' t = mustPrecede plat dmbs t' t := by
  simp [mustPrecede, Nat.not_lt.mpr h]

theorem Proc.Inv.recordDmb (h : p.Inv s) : ({ p.recordDmb with seq := p.seq + 1 } : Proc).Inv s := by
  have hn := h.nextSeq
  unfold Proc.recordDmb
  split
  · exact hn
  · refine ⟨h.pcEven, h.poolOrdered, hn.poolOlder, fun d hd => ?_, hn.isbOlder, h.epochPast, h.seenPast, h.mapEpochPast,
      h.poolSound, fun t ht hw t' ht' => ?_⟩
    · rcases List.mem_append.mp hd with hd | hd
      · exact hn.dmbsOlder d hd
      · exact List.mem_singleton.mp hd ▸ p.seq.lt_succ_self
    · exact (mustPrecede_append_dmb _ _ (h.poolOlder t ht).le).trans (h.writeBackReady t ht hw t' ht')

/-- Every update an instruction retires with keeps the processor's part, once its position is passed. -/
theorem Retires.inv {i : Instr} {update : Proc → Proc} (hr : Retires i s update) (h : s.cpu.Inv s) :
    ({ update s.cpu with seq := s.cpu.seq + 1 } : Proc).Inv s := by
  have hn := h.nextSeq
  cases hr with
  | dsb option _ hpool =>
    exact ⟨h.pcEven, h.poolOrdered, hn.poolOlder, hn.dmbsOlder, hn.isbOlder, h.epochPast, h.seenPast, le_rfl,
      by simp [hpool], h.writeBackReady⟩
  | dmb => exact h.recordDmb
  | isb =>
    exact ⟨h.pcEven, h.poolOrdered, hn.poolOlder, hn.dmbsOlder, s.cpu.seq.le_succ, le_rfl, by simp, h.mapEpochPast,
      h.poolSound, h.writeBackReady⟩
  | load rt rn offset size a s' _ ha =>
    obtain ⟨-, haligned, ⟨map, hmap, hok⟩, -⟩ := exclusiveAddress_eq_next ha
    have halias := inAlias_of_exclusiveAllowed hok (size_bytes_pos size)
    exact (h.withTag _).issue rfl ⟨haligned, by simp_all, by simp [Txn.isWriteBack], map, hmap, hok⟩ rfl
  | store rd rt rn offset size a intact s' _ ha =>
    obtain ⟨-, haligned, ⟨map, hmap, hok⟩, -⟩ := exclusiveAddress_eq_next ha
    have halias := inAlias_of_exclusiveAllowed hok (size_bytes_pos size)
    exact (h.withTag _).issue rfl ⟨haligned, by simp_all, by simp [Txn.isWriteBack], map, hmap, hok⟩ rfl

end

/-! ### The whole machine -/

/-- The invariant of a state that differs in the processors, the bus masters and the records that only grow. -/
theorem State.Inv.of_later {s t : State} (hmem : t.mem.wf ∧ (∀ c ∈ t.mem, c.1 < 2 ^ 32) ∧ ∀ map ∈ t.maps, MapInRange map)
    (hlater : Later s t) (hcpu : t.cpu.Inv t) (hothers : ∀ q ∈ t.others, q.Inv s)
    (hmasters : ∀ m ∈ t.masters, ∀ u ∈ m.pool, u.sound s 0) : t.Inv where
  memWf := hmem.1
  memInRange := hmem.2.1
  mapsInRange := hmem.2.2
  procs q hq := by
    rcases List.mem_cons.mp hq with rfl | hq
    · exact hcpu
    · exact (hothers q hq).later hlater
  masters m hm u hu := (hmasters m hm u hu).later hlater (Nat.zero_le _)

section
variable {s t : State}

theorem State.Inv.others (h : s.Inv) : ∀ q ∈ s.others, q.Inv s := fun q hq => h.procs q (by simp [State.procs, hq])

/-- A step that touches a processor, a count of draws or the bus masters leaves the machine's part alone. -/
theorem State.Inv.of_local (h : s.Inv) (n : Nat) {p : Proc} (hp : p.Inv s) {masters : List Master}
    (hm : ∀ m ∈ masters, ∀ u ∈ m.pool, u.sound s 0) :
    ({ s with draws := n, cpu := p, masters := masters } : State).Inv :=
  have hlater : Later s { s with draws := n, cpu := p, masters := masters } := Later.of_eq rfl rfl rfl rfl
  of_later ⟨h.memWf, h.memInRange, h.mapsInRange⟩ hlater (hp.later hlater) h.others hm

/-- Executing an instruction keeps the invariant. -/
theorem exec_inv {i : Instr} (h : s.Inv) (he : exec i s = .next t) : t.Inv := by
  rcases exec_cases he with rfl | ⟨update, n, -, hr, ht⟩
  · exact h
  · obtain ⟨-, rfl⟩ := retire_eq_next ht
    have hup := hr.inv h.cpu
    have hpc' : (update s.cpu).pc = s.cpu.pc := by cases hr <;> simp
    have hadv := hup.advance
    simp only [hpc'] at hadv
    exact h.of_local n hadv h.masters

/-- The processor in focus executes its next instruction, or holds. -/
theorem issue_inv (h : s.Inv) (hi : Machine.issue s = .next t) : t.Inv := by
  unfold Machine.issue at hi
  split at hi
  · cases hi; exact h
  · obtain ⟨fetched, hf, hi⟩ := andThen_eq_next.mp hi
    rcases fetched with _ | ⟨i, s'⟩
    · cases hi; exact h
    · obtain ⟨-, n, rfl⟩ := fetchInstr_eq_next hf
      exact exec_inv (h.of_local n h.cpu h.masters) hi

theorem issuePlain_inv {access : PlainAccess} {dest : Option Reg} (h : s.Inv)
    (hi : issuePlain access dest s = .next t) : t.Inv := by
  rcases issuePlain_cases hi with rfl | ⟨n, -, hsound, rfl⟩
  · exact h
  · refine h.of_local n (h.cpu.issue ?_ hsound ?_) h.masters <;> unfold PlainAccess.txn <;> split <;> rfl

theorem masterIssue_inv {m : Nat} (h : s.Inv) (hi : masterIssue m s = .next t) : t.Inv := by
  rcases masterIssue_cases hi with rfl | ⟨master, access, rest, n, hm, -, -, hsound, rfl⟩
  · exact h
  · refine h.of_local n h.cpu fun q hq u hu => ?_
    rcases List.mem_or_eq_of_mem_set hq with hq | rfl
    · exact h.masters q hq u hu
    · rcases List.mem_append.mp hu with hu | hu
      · exact h.masters master (List.mem_of_getElem? hm) u hu
      · exact List.mem_singleton.mp hu ▸ hsound

/-- What a completed transaction of any agent did keeps the part of every processor. -/
theorem completeTxn_procs {map : MemoryMap} {who n : Nat} {u : Txn} {c : Completion}
    (hc : completeTxn map who u { s with draws := n } = .next (c, t)) {q : Proc} :
    (q = t.cpu ∨ q ∈ t.others) → ∃ p ∈ s.procs, q = p ∨ ∃ w, q = p.observe who w := by
  rcases completeTxn_cases (Quiet.draws (n := n)) hc with ⟨hq, -⟩ | ⟨-, hw, -⟩
  · obtain ⟨h1, h2, -⟩ := hq.fields
    rw [h1, h2]
    exact fun h => ⟨q, List.mem_cons.mpr h, .inl rfl⟩
  · obtain ⟨h1, h2, -⟩ := hw.fields
    rw [h1, h2]
    rintro (rfl | h)
    · exact ⟨s.cpu, List.mem_cons_self, .inr ⟨_, rfl⟩⟩
    · obtain ⟨p, hp, rfl⟩ := List.mem_map.mp h
      exact ⟨p, List.mem_cons_of_mem _ hp, .inr ⟨_, rfl⟩⟩

theorem completeTxn_procs_inv {map : MemoryMap} {who n : Nat} {u : Txn} {c : Completion} (h : s.Inv)
    (hc : completeTxn map who u { s with draws := n } = .next (c, t)) {q : Proc} (hq : q = t.cpu ∨ q ∈ t.others) :
    q.Inv s := by
  obtain ⟨p, hp, rfl | ⟨w, rfl⟩⟩ := completeTxn_procs hc hq
  · exact h.procs q hp
  · exact (h.procs p hp).observe who w

/-- What completing a transaction leaves of it, and that the bus masters and the parameters stay. -/
theorem completeTxn_leaves {map : MemoryMap} {who n : Nat} {u : Txn} {c : Completion}
    (hc : completeTxn map who u { s with draws := n } = .next (c, t)) :
    t.masters = s.masters ∧ t.plat = s.plat ∧ t.agenda = s.agenda ∧ ((∃ v, c = .done v) ∨
      ∃ old v, u.op = .write v ∧ inAlias u.addr.toNat = true ∧ c = .halfway { u with op := .writeBack old v }) := by
  rcases completeTxn_cases (Quiet.draws (n := n)) hc with ⟨hq, hdone⟩ | ⟨-, hw, -, v, hdone⟩
  · obtain ⟨-, -, h3, -, -, h6, h7, -⟩ := hq.fields
    exact ⟨h3, h6, h7, hdone.imp (fun ⟨v, hv⟩ => ⟨some v, hv⟩) id⟩
  · obtain ⟨-, -, h3, h4, h5, -⟩ := hw.fields
    exact ⟨h3, h4, h5, .inl ⟨v, hdone⟩⟩

/-- An alias write whose read has completed still owes its checks nothing. -/
theorem Txn.sound.halfway {epoch : Nat} {u : Txn} {old v : Word} (h : u.sound s epoch) (hop : u.op = .write v)
    (halias : inAlias u.addr.toNat = true) : ({ u with op := .writeBack old v } : Txn).sound s epoch :=
  ⟨h.aligned, h.aliasWord, fun _ => halias, by simpa [Txn.permitted, hop] using h.permitted⟩

/-- A bus master whose transaction completed, or came halfway through an alias write, keeps its pool sound. -/
theorem Master.settleTxn_sound {master : Master} {k epoch : Nat} {u : Txn} {c : Completion}
    (h : ∀ w ∈ master.pool, w.sound s epoch) (hk : master.pool[k]? = some u) (hc : (∃ v, c = .done v) ∨
      ∃ old v, u.op = .write v ∧ inAlias u.addr.toNat = true ∧ c = .halfway { u with op := .writeBack old v }) :
    ∀ w ∈ (master.settleTxn k u c).pool, w.sound s epoch := by
  intro w hw
  rcases hc with ⟨_ | v, rfl⟩ | ⟨old, v, hop, halias, rfl⟩
  · exact h w (List.mem_of_mem_eraseIdx hw)
  · exact h w (List.mem_of_mem_eraseIdx hw)
  · rcases List.mem_or_eq_of_mem_set hw with hw | rfl
    · exact h w hw
    · exact (h u (List.mem_of_getElem? hk)).halfway hop halias

theorem completeAt_inv {k : Nat} (h : s.Inv) (hc : completeAt k s = .next t) : t.Inv := by
  rcases completeAt_cases hc with rfl | ⟨u, c, s', map, n, hk, hm, hmap, -, htxn, rfl⟩
  · exact h
  · obtain ⟨hwf, hrange, hmaps, hlater⟩ := completeTxn_memory h hmap Quiet.draws htxn
    obtain ⟨hmasters, -, -, hleft⟩ := completeTxn_leaves htxn
    have hcpu : s'.cpu.settleTxn k u c |>.Inv s' := by
      rw [completeTxn_own_cpu Quiet.draws htxn]
      exact (h.cpu.settleTxn hk hm hleft).later hlater
    have ht : Later s' { s' with cpu := (s'.cpu.settleTxn k u c).seeOwnWrite u (writtenSince s s') s'.history.length } :=
      Later.of_eq rfl rfl rfl rfl
    exact .of_later ⟨hwf, hrange, hmaps⟩ ⟨hlater.plat, hlater.history, hlater.mapHistory, hlater.lasting⟩
      ((hcpu.seeOwnWrite u _).later ht) (fun q hq => completeTxn_procs_inv h htxn (.inr hq))
      (by simpa [hmasters] using h.masters)

theorem masterComplete_inv {m k : Nat} (h : s.Inv) (hc : masterComplete m k s = .next t) : t.Inv := by
  rcases masterComplete_cases hc with rfl | ⟨master, u, c, s', map, n, hm, hk, hmap, htxn, rfl⟩
  · exact h
  · obtain ⟨hwf, hrange, hmaps, hlater⟩ := completeTxn_memory h hmap Quiet.draws htxn
    obtain ⟨hmasters, -, -, hleft⟩ := completeTxn_leaves htxn
    have ht : Later s { s' with masters := s'.masters.set m (master.settleTxn k u c) } :=
      ⟨hlater.plat, hlater.history, hlater.mapHistory, hlater.lasting⟩
    refine .of_later ⟨hwf, hrange, hmaps⟩ ht ((completeTxn_procs_inv h htxn (.inl rfl)).later ht)
      (fun q hq => completeTxn_procs_inv h htxn (.inr hq)) fun q hq => ?_
    rcases List.mem_or_eq_of_mem_set hq with hq | rfl
    · exact h.masters q (hmasters ▸ hq)
    · exact Master.settleTxn_sound (h.masters master (List.mem_of_getElem? hm)) hk hleft

theorem focusOn_inv (k : Nat) (h : s.Inv) : (focusOn k s).Inv := by
  unfold focusOn
  split
  · exact h
  · rename_i p hp
    have hlater : Later s { s with cpu := p, others := s.others.set k s.cpu } := Later.of_eq rfl rfl rfl rfl
    refine .of_later ⟨h.memWf, h.memInRange, h.mapsInRange⟩ hlater
      ((h.others p (List.mem_of_getElem? hp)).later hlater) (fun q hq => ?_) h.masters
    rcases List.mem_or_eq_of_mem_set hq with hq | rfl
    · exact h.others q hq
    · exact h.cpu

theorem State.Inv.withAgenda (h : s.Inv) (agenda : List Move) : ({ s with agenda := agenda } : State).Inv :=
  have hlater : Later s { s with agenda := agenda } := Later.of_eq rfl rfl rfl rfl
  of_later ⟨h.memWf, h.memInRange, h.mapsInRange⟩ hlater (h.cpu.later hlater) h.others h.masters

theorem play_inv {m : Move} (h : s.Inv) (hp : play m s = .next t) : t.Inv := by
  cases m with
  | issue => exact issue_inv h hp
  | complete k => exact completeAt_inv h hp
  | focus k => cases hp; exact focusOn_inv k h
  | plain access dest => exact issuePlain_inv h hp
  | masterIssue m => exact masterIssue_inv h hp
  | masterComplete m k => exact masterComplete_inv h hp

theorem settleFor_inv {fuel : Nat} (h : s.Inv) (hs : settleFor fuel s = .next t) : t.Inv := by
  induction fuel generalizing s with
  | zero => cases hs; exact h
  | succ fuel ih =>
    unfold settleFor at hs
    split at hs
    · cases hs; exact h
    · obtain ⟨s', hc, hs⟩ := andThen_eq_next.mp hs
      exact ih (completeAt_inv h hc) hs

/-- Settles O59, by the move the step plays: each keeps the parts of the processors, the bus masters and memory. -/
theorem stepKeepsInvariant : Obligations.StepKeepsInvariant := by
  intro s t h hs
  unfold step at hs
  split at hs
  · obtain ⟨s', hi, hs⟩ := andThen_eq_next.mp hs
    exact settleFor_inv (issue_inv h hi) hs
  · exact play_inv (h.withAgenda _) hs

end

end Sys2Proof.Machine
end

section
/-! PROOFS. A word selects a row exactly when it is the encoding of the row's instruction (30_encoding.md R111 to R119). -/

namespace Sys2Proof.Proofs.Encoding

/-! ### Fields of a word -/

/-- A word that matches under a mask has the match's bits in every field the mask covers. -/
theorem field_of_masked {I mask row : Word} (h : I &&& mask = row) (start len : Nat)
    (hmask : mask.extractLsb' start len = BitVec.allOnes len) : I.extractLsb' start len = row.extractLsb' start len := by
  rw [← h, BitVec.extractLsb'_and, hmask, BitVec.and_allOnes]

/-- A word matches at most one of two rows that differ where both masks look. -/
theorem not_masked_of_masked {I mask row mask' row' : Word} (h : I &&& mask = row) (hne : row &&& mask' ≠ row' &&& mask) :
    I &&& mask' ≠ row' := by
  rintro rfl
  apply hne
  rw [← h, BitVec.and_assoc, BitVec.and_comm mask, BitVec.and_assoc]

theorem append_16_16 (I : Word) : I.extractLsb' 16 16 ++ I.extractLsb' 0 16 = I :=
  BitVec.extractLsb'_append_extractLsb' (w := 16) (len := 16)

theorem append_28_4 (I : Word) : I.extractLsb' 4 28 ++ I.extractLsb' 0 4 = I :=
  BitVec.extractLsb'_append_extractLsb' (w := 28) (len := 4)

theorem append_12_4_4_12 (I : Word) :
    I.extractLsb' 20 12 ++ I.extractLsb' 16 4 ++ I.extractLsb' 12 4 ++ I.extractLsb' 0 12 = I := by
  iterate 3 rw [BitVec.extractLsb'_append_extractLsb'_eq_extractLsb' (by rfl)]
  exact BitVec.extractLsb'_eq_self

theorem append_12_4_4_4_8 (I : Word) :
    I.extractLsb' 20 12 ++ I.extractLsb' 16 4 ++ I.extractLsb' 12 4 ++ I.extractLsb' 8 4 ++ I.extractLsb' 0 8 = I := by
  iterate 4 rw [BitVec.extractLsb'_append_extractLsb'_eq_extractLsb' (by rfl)]
  exact BitVec.extractLsb'_eq_self

theorem append_12_4_4_8_4 (I : Word) :
    I.extractLsb' 20 12 ++ I.extractLsb' 16 4 ++ I.extractLsb' 12 4 ++ I.extractLsb' 4 8 ++ I.extractLsb' 0 4 = I := by
  iterate 4 rw [BitVec.extractLsb'_append_extractLsb'_eq_extractLsb' (by rfl)]
  exact BitVec.extractLsb'_eq_self

/-! ### The rows -/

/-- The word matches the row of the instruction, and the row's fields are the operands (R119). -/
def Selects (I : Word) : Instr → Prop
  | .dsb option => I &&& 0xFFFFFFF0#32 = 0xF3BF8F40#32 ∧ option = fieldOption I
  | .dmb option => I &&& 0xFFFFFFF0#32 = 0xF3BF8F50#32 ∧ option = fieldOption I
  | .isb option => I &&& 0xFFFFFFF0#32 = 0xF3BF8F60#32 ∧ option = fieldOption I
  | .strex rd rt rn imm8 =>
    I &&& 0xFFF00000#32 = 0xE8400000#32 ∧ rd = fieldRdWord I ∧ rt = fieldRt I ∧ rn = fieldRn I ∧ imm8 = fieldImm8 I
  | .ldrex rt rn imm8 => I &&& 0xFFF00F00#32 = 0xE8500F00#32 ∧ rt = fieldRt I ∧ rn = fieldRn I ∧ imm8 = fieldImm8 I
  | .strexb rd rt rn => I &&& 0xFFF00FF0#32 = 0xE8C00F40#32 ∧ rd = fieldRdNarrow I ∧ rt = fieldRt I ∧ rn = fieldRn I
  | .strexh rd rt rn => I &&& 0xFFF00FF0#32 = 0xE8C00F50#32 ∧ rd = fieldRdNarrow I ∧ rt = fieldRt I ∧ rn = fieldRn I
  | .ldrexb rt rn => I &&& 0xFFF00FFF#32 = 0xE8D00F4F#32 ∧ rt = fieldRt I ∧ rn = fieldRn I
  | .ldrexh rt rn => I &&& 0xFFF00FFF#32 = 0xE8D00F5F#32 ∧ rt = fieldRt I ∧ rn = fieldRn I

theorem selects_of_decodeWord {I : Word} {i : Instr} (h : decodeWord I = some i) : Selects I i := by
  unfold decodeWord at h
  split_ifs at h with h1 h2 h3 h4 h5 h6 h7 h8 h9 <;> cases h
  exacts [⟨h1, rfl⟩, ⟨h2, rfl⟩, ⟨h3, rfl⟩, ⟨h4, rfl, rfl, rfl, rfl⟩, ⟨h5, rfl, rfl, rfl⟩, ⟨h6, rfl, rfl, rfl⟩,
    ⟨h7, rfl, rfl, rfl⟩, ⟨h8, rfl, rfl⟩, ⟨h9, rfl, rfl⟩]

/-- The rows tried before the one that a word selects do not match, for no two rows share a word. -/
theorem decodeWord_of_selects {I : Word} {i : Instr} (h : Selects I i) : decodeWord I = some i := by
  have skip {mask row} (hrow : I &&& mask = row) (mask' row' : Word) (hne : row &&& mask' ≠ row' &&& mask) {a b : Option Instr} :
      (if I &&& mask' = row' then a else b) = b := if_neg (not_masked_of_masked hrow hne)
  cases i with
  | dsb option => obtain ⟨h, rfl⟩ := h; exact if_pos h
  | dmb option =>
    obtain ⟨h, rfl⟩ := h
    rw [decodeWord, skip h _ _ (by decide), if_pos h]
  | isb option =>
    obtain ⟨h, rfl⟩ := h
    rw [decodeWord, skip h _ _ (by decide), skip h _ _ (by decide), if_pos h]
  | strex rd rt rn imm8 =>
    obtain ⟨h, rfl, rfl, rfl, rfl⟩ := h
    rw [decodeWord, skip h _ _ (by decide), skip h _ _ (by decide), skip h _ _ (by decide), if_pos h]
  | ldrex rt rn imm8 =>
    obtain ⟨h, rfl, rfl, rfl⟩ := h
    rw [decodeWord]; iterate 4 rw [skip h _ _ (by decide)]
    exact if_pos h
  | strexb rd rt rn =>
    obtain ⟨h, rfl, rfl, rfl⟩ := h
    rw [decodeWord]; iterate 5 rw [skip h _ _ (by decide)]
    exact if_pos h
  | strexh rd rt rn =>
    obtain ⟨h, rfl, rfl, rfl⟩ := h
    rw [decodeWord]; iterate 6 rw [skip h _ _ (by decide)]
    exact if_pos h
  | ldrexb rt rn =>
    obtain ⟨h, rfl, rfl⟩ := h
    rw [decodeWord]; iterate 7 rw [skip h _ _ (by decide)]
    exact if_pos h
  | ldrexh rt rn =>
    obtain ⟨h, rfl, rfl⟩ := h
    rw [decodeWord]; iterate 8 rw [skip h _ _ (by decide)]
    exact if_pos h

theorem decodeWord_eq_some_iff {I : Word} {i : Instr} : decodeWord I = some i ↔ Selects I i :=
  ⟨selects_of_decodeWord, decodeWord_of_selects⟩

/-- A selected word is put together again from the fixed bits of its row and its fields. -/
theorem encodeWord_of_selects {I : Word} {i : Instr} (h : Selects I i) : encodeWord i = I := by
  cases i with
  | dsb option =>
    obtain ⟨h, rfl⟩ := h
    exact (congrArg (· ++ _) (field_of_masked h 4 28 rfl).symm).trans (append_28_4 I)
  | dmb option =>
    obtain ⟨h, rfl⟩ := h
    exact (congrArg (· ++ _) (field_of_masked h 4 28 rfl).symm).trans (append_28_4 I)
  | isb option =>
    obtain ⟨h, rfl⟩ := h
    exact (congrArg (· ++ _) (field_of_masked h 4 28 rfl).symm).trans (append_28_4 I)
  | strex rd rt rn imm8 =>
    obtain ⟨h, rfl, rfl, rfl, rfl⟩ := h
    refine Eq.trans ?_ (append_12_4_4_4_8 I)
    rw [field_of_masked h 20 12 rfl]; rfl
  | ldrex rt rn imm8 =>
    obtain ⟨h, rfl, rfl, rfl⟩ := h
    refine Eq.trans ?_ (append_12_4_4_4_8 I)
    rw [field_of_masked h 20 12 rfl, field_of_masked h 8 4 rfl]; rfl
  | strexb rd rt rn =>
    obtain ⟨h, rfl, rfl, rfl⟩ := h
    refine Eq.trans ?_ (append_12_4_4_8_4 I)
    rw [field_of_masked h 20 12 rfl, field_of_masked h 4 8 rfl]; rfl
  | strexh rd rt rn =>
    obtain ⟨h, rfl, rfl, rfl⟩ := h
    refine Eq.trans ?_ (append_12_4_4_8_4 I)
    rw [field_of_masked h 20 12 rfl, field_of_masked h 4 8 rfl]; rfl
  | ldrexb rt rn =>
    obtain ⟨h, rfl, rfl⟩ := h
    refine Eq.trans ?_ (append_12_4_4_12 I)
    rw [field_of_masked h 20 12 rfl, field_of_masked h 0 12 rfl]; rfl
  | ldrexh rt rn =>
    obtain ⟨h, rfl, rfl⟩ := h
    refine Eq.trans ?_ (append_12_4_4_12 I)
    rw [field_of_masked h 20 12 rfl, field_of_masked h 0 12 rfl]; rfl

/-- A field above the lower part of an appended word is a field of the upper part. -/
theorem extractLsb'_add_append {v w start len : Nat} (x : BitVec v) (y : BitVec w) :
    (x ++ y).extractLsb' (start + w) len = x.extractLsb' start len := by
  rw [BitVec.extractLsb'_append_eq_of_le (Nat.le_add_left w start), Nat.add_sub_cancel]

/-- The fixed bits of an encoded word are its row's, whatever the operands, and its fields are the operands. -/
theorem selects_encodeWord (i : Instr) : Selects (encodeWord i) i := by
  have field {x : Reg} {I : Word} {start : Nat} (h : I.extractLsb' start 4 = regBits x) :
      x = regField (I.extractLsb' start 4) := congrArg regField h.symm
  cases i with
  | dsb option =>
    refine ⟨?_, BitVec.extractLsb'_append_eq_right.symm⟩
    change _ &&& (0xFFFFFFF#28 ++ 0#4 : Word) = _
    simp only [encodeWord, BitVec.and_append, BitVec.and_zero]; rfl
  | dmb option =>
    refine ⟨?_, BitVec.extractLsb'_append_eq_right.symm⟩
    change _ &&& (0xFFFFFFF#28 ++ 0#4 : Word) = _
    simp only [encodeWord, BitVec.and_append, BitVec.and_zero]; rfl
  | isb option =>
    refine ⟨?_, BitVec.extractLsb'_append_eq_right.symm⟩
    change _ &&& (0xFFFFFFF#28 ++ 0#4 : Word) = _
    simp only [encodeWord, BitVec.and_append, BitVec.and_zero]; rfl
  | strex rd rt rn imm8 =>
    refine ⟨?_, field ?_, field ?_, field ?_, BitVec.extractLsb'_append_eq_right.symm⟩
    · change _ &&& (0xFFF#12 ++ 0#4 ++ 0#4 ++ 0#4 ++ 0#8 : Word) = _
      simp only [encodeWord, BitVec.and_append, BitVec.and_zero]; rfl
    · exact (extractLsb'_add_append _ _).trans <| BitVec.extractLsb'_append_eq_right
    · exact (extractLsb'_add_append _ _).trans <| (extractLsb'_add_append _ _).trans <| BitVec.extractLsb'_append_eq_right
    · exact (extractLsb'_add_append _ _).trans <| (extractLsb'_add_append _ _).trans <| (extractLsb'_add_append _ _).trans <| BitVec.extractLsb'_append_eq_right
  | ldrex rt rn imm8 =>
    refine ⟨?_, field ?_, field ?_, BitVec.extractLsb'_append_eq_right.symm⟩
    · change _ &&& (0xFFF#12 ++ 0#4 ++ 0#4 ++ 0xF#4 ++ 0#8 : Word) = _
      simp only [encodeWord, BitVec.and_append, BitVec.and_zero]; rfl
    · exact (extractLsb'_add_append _ _).trans <| (extractLsb'_add_append _ _).trans <| BitVec.extractLsb'_append_eq_right
    · exact (extractLsb'_add_append _ _).trans <| (extractLsb'_add_append _ _).trans <| (extractLsb'_add_append _ _).trans <| BitVec.extractLsb'_append_eq_right
  | strexb rd rt rn =>
    refine ⟨?_, field BitVec.extractLsb'_append_eq_right, field ?_, field ?_⟩
    · change _ &&& (0xFFF#12 ++ 0#4 ++ 0#4 ++ 0xFF#8 ++ 0#4 : Word) = _
      simp only [encodeWord, BitVec.and_append, BitVec.and_zero]; rfl
    · exact (extractLsb'_add_append _ _).trans <| (extractLsb'_add_append _ _).trans <| BitVec.extractLsb'_append_eq_right
    · exact (extractLsb'_add_append _ _).trans <| (extractLsb'_add_append _ _).trans <| (extractLsb'_add_append _ _).trans <| BitVec.extractLsb'_append_eq_right
  | strexh rd rt rn =>
    refine ⟨?_, field BitVec.extractLsb'_append_eq_right, field ?_, field ?_⟩
    · change _ &&& (0xFFF#12 ++ 0#4 ++ 0#4 ++ 0xFF#8 ++ 0#4 : Word) = _
      simp only [encodeWord, BitVec.and_append, BitVec.and_zero]; rfl
    · exact (extractLsb'_add_append _ _).trans <| (extractLsb'_add_append _ _).trans <| BitVec.extractLsb'_append_eq_right
    · exact (extractLsb'_add_append _ _).trans <| (extractLsb'_add_append _ _).trans <| (extractLsb'_add_append _ _).trans <| BitVec.extractLsb'_append_eq_right
  | ldrexb rt rn =>
    refine ⟨?_, field ?_, field ?_⟩
    · change _ &&& (0xFFF#12 ++ 0#4 ++ 0#4 ++ 0xFFF#12 : Word) = _
      simp only [encodeWord, BitVec.and_append, BitVec.and_zero]; rfl
    · exact (extractLsb'_add_append _ _).trans <| BitVec.extractLsb'_append_eq_right
    · exact (extractLsb'_add_append _ _).trans <| (extractLsb'_add_append _ _).trans <| BitVec.extractLsb'_append_eq_right
  | ldrexh rt rn =>
    refine ⟨?_, field ?_, field ?_⟩
    · change _ &&& (0xFFF#12 ++ 0#4 ++ 0#4 ++ 0xFFF#12 : Word) = _
      simp only [encodeWord, BitVec.and_append, BitVec.and_zero]; rfl
    · exact (extractLsb'_add_append _ _).trans <| BitVec.extractLsb'_append_eq_right
    · exact (extractLsb'_add_append _ _).trans <| (extractLsb'_add_append _ _).trans <| BitVec.extractLsb'_append_eq_right

/-- The decoder of words and the encoder are inverse to each other. -/
theorem decodeWord_eq_some_iff_encodeWord {I : Word} {i : Instr} : decodeWord I = some i ↔ encodeWord i = I :=
  ⟨fun h => encodeWord_of_selects (selects_of_decodeWord h), fun h => h ▸ decodeWord_of_selects (selects_encodeWord i)⟩

/-- Settles O3, a row at a time: the row's word selects it and no other row's instruction is read from it. -/
theorem wordSelectsTableRow : Obligations.WordSelectsTableRow := fun I => by
  have row (i : Instr) {p : Prop} (h : Selects I i ↔ p) : p ↔ decodeWord I = some i := h.symm.trans decodeWord_eq_some_iff.symm
  exact ⟨row (.dsb _) (and_iff_left rfl), row (.dmb _) (and_iff_left rfl), row (.isb _) (and_iff_left rfl),
    row (.strex ..) (and_iff_left ⟨rfl, rfl, rfl, rfl⟩), row (.ldrex ..) (and_iff_left ⟨rfl, rfl, rfl⟩),
    row (.strexb ..) (and_iff_left ⟨rfl, rfl, rfl⟩), row (.strexh ..) (and_iff_left ⟨rfl, rfl, rfl⟩),
    row (.ldrexb ..) (and_iff_left ⟨rfl, rfl⟩), row (.ldrexh ..) (and_iff_left ⟨rfl, rfl⟩)⟩

/-! ### Bytes -/

/-- Every instruction is two halfwords long (R111, R112). -/
theorem encode_opensTwoHalfwords (i : Instr) : opensTwoHalfwords ((encodeWord i).extractLsb' 16 16) = true := by
  have h : Laws.EncodesInFourBytes.Statement i := by
    cases i with
    | dsb option => exact Laws.EncodesInFourBytes.dsb option
    | dmb option => exact Laws.EncodesInFourBytes.dmb option
    | isb option => exact Laws.EncodesInFourBytes.isb option
    | strex rd rt rn imm8 => exact Laws.EncodesInFourBytes.strex rd rt rn imm8
    | ldrex rt rn imm8 => exact Laws.EncodesInFourBytes.ldrex rt rn imm8
    | strexb rd rt rn => exact Laws.EncodesInFourBytes.strexb rd rt rn
    | strexh rd rt rn => exact Laws.EncodesInFourBytes.strexh rd rt rn
    | ldrexb rt rn => exact Laws.EncodesInFourBytes.ldrexb rt rn
    | ldrexh rt rn => exact Laws.EncodesInFourBytes.ldrexh rt rn
  exact Machine.halfOfBytes_extract ((encodeWord i).extractLsb' 16 16) ▸ h.2

section
variable {hw1 hw2 : Half} (rest : List Byte) (h : opensTwoHalfwords hw1 = true)
include h

/-- The decoder reads the instruction that the word of two halfwords selects, and leaves what follows. -/
theorem decode_halfwords {i : Instr} (hi : decodeWord (hw1 ++ hw2) = some i) :
    decode (bytesOfHalf hw1 ++ bytesOfHalf hw2 ++ rest) = .ok (i, rest) := by
  simp only [bytesOfHalf, List.cons_append, List.nil_append, decode, Machine.halfOfBytes_extract, h, if_true, hi]

theorem decode_halfwords_noRow (hi : decodeWord (hw1 ++ hw2) = none) :
    decode (bytesOfHalf hw1 ++ bytesOfHalf hw2 ++ rest) = .error (.noRow (hw1 ++ hw2)) := by
  simp only [bytesOfHalf, List.cons_append, List.nil_append, decode, Machine.halfOfBytes_extract, h, if_true, hi]

end

/-- Bytes that decode are those of two halfwords, with what follows. -/
theorem decode_eq_ok {bytes rest : List Byte} {i : Instr} (h : decode bytes = .ok (i, rest)) :
    ∃ hw1 hw2, bytes = bytesOfHalf hw1 ++ bytesOfHalf hw2 ++ rest ∧ decodeWord (hw1 ++ hw2) = some i := by
  match bytes with
  | [] | [_] => cases h
  | b0 :: b1 :: tail =>
    simp only [decode] at h
    split_ifs at h
    match tail with
    | [] | [_] => cases h
    | b2 :: b3 :: tail =>
      simp only at h
      split at h
      · rename_i hi
        cases h
        exact ⟨_, _, by simp [Machine.bytesOfHalf_halfOfBytes], hi⟩
      · cases h

/-- Settles O1: the bytes are those of the word's two halfwords, and the word decodes to the instruction. -/
theorem decodeOfEncode : Obligations.DecodeOfEncode := fun i rest => by
  refine decode_halfwords rest (encode_opensTwoHalfwords i) ?_
  rw [append_16_16, decodeWord_eq_some_iff_encodeWord]

/-- Settles O2: bytes that decode are those of a word that decodes, which is the encoding. -/
theorem encodeOfDecode : Obligations.EncodeOfDecode := fun bytes i rest h => by
  obtain ⟨hw1, hw2, rfl, hi⟩ := decode_eq_ok h
  rw [encode, bytesOfWord, decodeWord_eq_some_iff_encodeWord.mp hi, BitVec.extractLsb'_append_eq_left,
    BitVec.extractLsb'_append_eq_right]

/-- Settles O4, by decoding each row's sample. -/
theorem sampleBytesDecode : Obligations.SampleBytesDecode := by
  unfold Obligations.SampleBytesDecode
  decide

end Sys2Proof.Proofs.Encoding
end

section
/-! PROOFS. The instructions and words the spec refuses (30_encoding.md R112, R121 to R123). -/

namespace Sys2Proof.Proofs.Refusals

open Sys2Proof.Machine Sys2Proof.Proofs.Encoding

/-! ### Operands -/

theorem guarded_of_not_ok {i : Instr} (s : State) (meaning : Result State) (h : operandsOk i = false) :
    guarded i s meaning = .refused (operandRefusal s.cpu.pc i) := by simp [guarded, h]

/-- Operands that are not accepted are refused before anything else (R167). -/
theorem exec_of_not_wellFormed {i : Instr} (s : State) (h : i.wellFormed = false) :
    exec i s = .refused (operandRefusal s.cpu.pc i) := by
  cases i <;> exact guarded_of_not_ok s _ h

/-- Settles O6: the option is not accepted, whatever the state. -/
theorem barrierOptionRefused : Obligations.BarrierOptionRefused := fun s option h => by
  have hbad : (option == optionSY) = false := beq_false_of_ne h
  exact ⟨exec_of_not_wellFormed (i := .dsb option) s hbad, exec_of_not_wellFormed (i := .dmb option) s hbad,
    exec_of_not_wellFormed (i := .isb option) s hbad⟩

theorem usableReg_eq_false_iff {r : Reg} : usableReg r = false ↔ r = 13 ∨ r = 15 := by
  revert r; decide

/-- The accepted operands of a Load-Exclusive (R121). -/
theorem wellFormed_load {i : Instr} {rt rn : Reg} {offset : Nat} {size : Size}
    (hi : loadForm i = some (rt, rn, offset, size)) :
    (i.wellFormed = false ↔ rt = 13 ∨ rt = 15 ∨ rn = 13 ∨ rn = 15) ∧
      ∀ pc, operandRefusal pc i = .badOperand pc (encodeWord i) := by
  have hok : loadOperandsOk rt rn = false ↔ rt = 13 ∨ rt = 15 ∨ rn = 13 ∨ rn = 15 := by
    rw [loadOperandsOk, Bool.and_eq_false_iff, usableReg_eq_false_iff, usableReg_eq_false_iff, or_assoc]
  cases i <;> simp only [loadForm, reduceCtorEq, Option.some.injEq, Prod.mk.injEq] at hi <;>
    obtain ⟨rfl, rfl, -⟩ := hi <;> exact ⟨hok, fun _ => rfl⟩

/-- The accepted operands of a Store-Exclusive (R121). -/
theorem wellFormed_store {i : Instr} {rd rt rn : Reg} {offset : Nat} {size : Size}
    (hi : storeForm i = some (rd, rt, rn, offset, size)) :
    (i.wellFormed = false ↔
      rd = 13 ∨ rd = 15 ∨ rt = 13 ∨ rt = 15 ∨ rn = 13 ∨ rn = 15 ∨ rd = rn ∨ rd = rt) ∧
      ∀ pc, operandRefusal pc i = .badOperand pc (encodeWord i) := by
  have hok : storeOperandsOk rd rt rn = false ↔
      rd = 13 ∨ rd = 15 ∨ rt = 13 ∨ rt = 15 ∨ rn = 13 ∨ rn = 15 ∨ rd = rn ∨ rd = rt := by
    simp only [storeOperandsOk, Bool.and_eq_false_iff, usableReg_eq_false_iff, bne_eq_false_iff_eq, or_assoc]
  cases i <;> simp only [storeForm, reduceCtorEq, Option.some.injEq, Prod.mk.injEq] at hi <;>
    obtain ⟨rfl, rfl, rfl, -⟩ := hi <;> exact ⟨hok, fun _ => rfl⟩

/-! An exclusive instruction with accepted operands is refused for other reasons only. -/

theorem retire_ne_badOperand (update : Proc → Proc) (s : State) (pc word : Word) :
    retire update s ≠ .refused (.badOperand pc word) := by
  unfold retire; split <;> simp

/-- A chain is refused by its first part or by its second. -/
theorem andThen_eq_refused {α β : Type} {o : Result α} {k : α → Result β} {r : Refusal} :
    andThen o k = .refused r ↔ o = .refused r ∨ ∃ a, o = .next a ∧ k a = .refused r := by
  cases o <;> simp

theorem exclusiveAddress_ne_badOperand (rn : Reg) (offset : Nat) (size : Size) (s : State) (pc word : Word) :
    exclusiveAddress rn offset size s ≠ .refused (.badOperand pc word) := by
  unfold exclusiveAddress admitAccess
  simp only
  split_ifs <;> simp

theorem loadExclusive_ne_badOperand (rt rn : Reg) (offset : Nat) (size : Size) (s : State) (pc word : Word) :
    loadExclusive rt rn offset size s ≠ .refused (.badOperand pc word) := by
  unfold loadExclusive whenReady
  split
  · simp
  · rw [ne_eq, andThen_eq_refused]
    rintro (h | ⟨r, -, h⟩)
    · exact exclusiveAddress_ne_badOperand _ _ _ _ _ _ h
    · exact retire_ne_badOperand _ _ _ _ h

theorem storeExclusive_ne_badOperand (rd rt rn : Reg) (offset : Nat) (size : Size) (s : State) (pc word : Word) :
    storeExclusive rd rt rn offset size s ≠ .refused (.badOperand pc word) := by
  unfold storeExclusive whenReady
  split
  · simp
  · rw [ne_eq, andThen_eq_refused]
    rintro (h | ⟨r, -, h⟩)
    · exact exclusiveAddress_ne_badOperand _ _ _ _ _ _ h
    · split at h
      · simp at h
      · exact retire_ne_badOperand _ _ _ _ h

/-- Settles O7: operands that are not accepted are refused so, and accepted ones are never. -/
theorem badOperandRefused : Obligations.BadOperandRefused := by
  constructor
  · intro i rt rn offset size s hi
    obtain ⟨hbad, hrefusal⟩ := wellFormed_load hi
    rw [← hbad, ← hrefusal]
    refine ⟨exec_of_not_wellFormed s, fun h => ?_⟩
    by_contra hw
    rw [exec_load s hi (by simpa using hw), hrefusal] at h
    exact loadExclusive_ne_badOperand _ _ _ _ _ _ _ h
  · intro i rd rt rn offset size s hi
    obtain ⟨hbad, hrefusal⟩ := wellFormed_store hi
    rw [← hbad, ← hrefusal]
    refine ⟨exec_of_not_wellFormed s, fun h => ?_⟩
    by_contra hw
    rw [exec_store s hi (by simpa using hw), hrefusal] at h
    exact storeExclusive_ne_badOperand _ _ _ _ _ _ _ _ h

/-! ### Words that select no row -/

section
variable {s s₁ : State} {hw1 : Half} (h1 : fetchHalf s.cpu.pc s = .next (some (hw1, s₁)))
include h1

/-- A one-halfword instruction is none of the spec's (R112, R122). -/
theorem fetchInstr_oneHalfword (hopens : opensTwoHalfwords hw1 = false) :
    fetchInstr s = .refused (.unknownInstruction s.cpu.pc [hw1]) := by
  simp [fetchInstr, fetchFirst_eq_next.mpr h1, hopens]

variable (hopens : opensTwoHalfwords hw1 = true)
include hopens

theorem fetchInstr_second_fault {f : Fault} (h2 : fetchHalf (s.cpu.pc + 2#32) s₁ = .fault f) :
    fetchInstr s = .fault f := by
  simp [fetchInstr, fetchFirst_eq_next.mpr h1, hopens, h2]

theorem fetchInstr_second_waits (h2 : fetchHalf (s.cpu.pc + 2#32) s₁ = .next none) : fetchInstr s = .next none := by
  simp [fetchInstr, fetchFirst_eq_next.mpr h1, hopens, h2]

variable {hw2 : Half} {s₂ : State} (h2 : fetchHalf (s.cpu.pc + 2#32) s₁ = .next (some (hw2, s₂)))
include h2

/-- Two halfwords are the instruction whose row their word selects (R111, R119). -/
theorem fetchInstr_row {i : Instr} (hi : decodeWord (hw1 ++ hw2) = some i) : fetchInstr s = .next (some (i, s₂)) := by
  have hd := decode_halfwords [] hopens hi
  rw [List.append_nil] at hd
  simp [fetchInstr, fetchFirst_eq_next.mpr h1, hopens, h2, hd]

theorem fetchInstr_noRow (hi : decodeWord (hw1 ++ hw2) = none) :
    fetchInstr s = .refused (.unknownInstruction s.cpu.pc [hw1, hw2]) := by
  have hd := decode_halfwords_noRow [] hopens hi
  rw [List.append_nil] at hd
  simp [fetchInstr, fetchFirst_eq_next.mpr h1, hopens, h2, hd]

end

section
variable {s : State} (hf : s.cpu.finished = false) (hb : betweenHalves s.cpu.pool = false)
include hf hb

theorem issue_of_refused {r : Refusal} (h : fetchInstr s = .refused r) : Machine.issue s = .refused r := by
  simp [Machine.issue, hf, hb, h]

theorem issue_of_fetched {i : Instr} {s' : State} (h : fetchInstr s = .next (some (i, s'))) :
    Machine.issue s = exec i s' := by
  simp [Machine.issue, hf, hb, h]

theorem step_of_fetch_refused (ha : s.agenda = []) {r : Refusal} (h : fetchInstr s = .refused r) :
    step s = .refused r := by
  simp [step, ha, issueAndSettle, issue_of_refused hf hb h]

end

/-- Settles O5: the fetch itself refuses the halfwords. -/
theorem unselectedWordsRefused : Obligations.UnselectedWordsRefused := fun _ _ _ ha hf hb h1 =>
  ⟨fun hopens => step_of_fetch_refused hf hb ha (fetchInstr_oneHalfword h1 hopens),
    fun _ _ hopens h2 hrow => step_of_fetch_refused hf hb ha (fetchInstr_noRow h1 hopens h2 hrow)⟩

end Sys2Proof.Proofs.Refusals
end

section
/-! PROOFS. What executing an instruction does, holds on or is refused for: the exclusive instructions
(41_exclusive.md R141 to R151) and the advance of the pc (10_state.md R22). -/

namespace Sys2Proof.Proofs.Exclusives

open Sys2Proof.Machine Sys2Proof.Statements

/-! ### From an exclusive instruction to its address -/

/-- An exclusive instruction is a Load- or a Store-Exclusive. -/
theorem exclusiveForm_eq_some {i : Instr} {named : List Reg} {rn : Reg} {offset : Nat} {size : Size}
    (h : exclusiveForm i = some (named, rn, offset, size)) :
    (∃ rt, loadForm i = some (rt, rn, offset, size) ∧ named = [rt, rn]) ∨
      ∃ rd rt, storeForm i = some (rd, rt, rn, offset, size) ∧ named = [rd, rt, rn] := by
  unfold exclusiveForm at h
  split at h
  · rename_i hl
    cases h
    exact .inl ⟨_, hl, rfl⟩
  · rename_i hs
    cases h
    exact .inr ⟨_, _, hs, rfl⟩
  · cases h

section
variable {s : State} {named : List Reg} {meaning : Result State}

theorem whenReady_of_pending {r : Reg} (hr : r ∈ named) (hp : s.cpu.pending r = true) :
    whenReady named s meaning = .next s := if_pos (List.any_eq_true.mpr ⟨r, hr, hp⟩)

theorem whenReady_of_ready (h : ∀ r ∈ named, s.cpu.pending r = false) : whenReady named s meaning = meaning :=
  if_neg (by simpa [Proc.anyPending] using h)

end

/-- What a Store-Exclusive does once it has its address: it is refused without the tag of that address and size, or it
spends it (R151). -/
def storeAt (rd rt : Reg) (size : Size) (s : State) (r : Word × State) : Result State :=
  match pairedIntact s.cpu.tag r.1 size with
  | none => .refused (.unpairedStoreExclusive s.cpu.pc)
  | some intact => retire (fun p => p.issueStore rd rt r.1 size intact) r.2

theorem storeAt_unpaired {rd rt : Reg} {size : Size} {s : State} {r : Word × State}
    (h : ∀ g, s.cpu.tag = some g → g.addr ≠ r.1 ∨ g.size ≠ size) :
    storeAt rd rt size s r = .refused (.unpairedStoreExclusive s.cpu.pc) := by
  have hp : pairedIntact s.cpu.tag r.1 size = none := by
    unfold pairedIntact
    split
    · rfl
    · rename_i g hg
      exact if_neg (not_and_or.mpr (h g hg))
  simp [storeAt, hp]

theorem storeAt_paired {rd rt : Reg} {size : Size} {s : State} {r : Word × State} {intact : Bool}
    (h : s.cpu.tag = some ⟨r.1, size, intact⟩) :
    storeAt rd rt size s r = retire (fun p => p.issueStore rd rt r.1 size intact) r.2 := by
  simp [storeAt, pairedIntact, h]

section
variable {i : Instr} {rd rt rn : Reg} {offset : Nat} {size : Size} {s : State} (hw : i.wellFormed = true)
include hw

/-- A Load-Exclusive whose registers are not pending goes by its address alone. -/
theorem exec_load_ready (hi : loadForm i = some (rt, rn, offset, size))
    (hready : ∀ r ∈ [rt, rn], s.cpu.pending r = false) :
    exec i s = andThen (exclusiveAddress rn offset size s) fun r => retire (fun p => p.issueLoad rt r.1 size) r.2 :=
  (exec_load s hi hw).trans (whenReady_of_ready hready)

/-- A Store-Exclusive whose registers are not pending goes by its address and its tag. -/
theorem exec_store_ready (hi : storeForm i = some (rd, rt, rn, offset, size))
    (hready : ∀ r ∈ [rd, rt, rn], s.cpu.pending r = false) :
    exec i s = andThen (exclusiveAddress rn offset size s) (storeAt rd rt size s) :=
  (exec_store s hi hw).trans (whenReady_of_ready hready)

variable {named : List Reg} (hform : exclusiveForm i = some (named, rn, offset, size))
include hform

/-- R91: an exclusive instruction holds while a register it names is pending. -/
theorem exec_exclusive_pending {r : Reg} (hr : r ∈ named) (hp : s.cpu.pending r = true) : exec i s = .next s := by
  rcases exclusiveForm_eq_some hform with ⟨rt, hi, rfl⟩ | ⟨rd, rt, hi, rfl⟩
  · exact (exec_load s hi hw).trans (whenReady_of_pending hr hp)
  · exact (exec_store s hi hw).trans (whenReady_of_pending hr hp)

variable (hready : ∀ r ∈ named, s.cpu.pending r = false)
include hready

/-- An exclusive instruction stops where its address does. -/
theorem exec_exclusive_refused {r : Refusal} (h : exclusiveAddress rn offset size s = .refused r) :
    exec i s = .refused r := by
  rcases exclusiveForm_eq_some hform with ⟨rt, hi, rfl⟩ | ⟨rd, rt, hi, rfl⟩
  · rw [exec_load_ready hw hi hready, h, andThen_refused]
  · rw [exec_store_ready hw hi hready, h, andThen_refused]

theorem exec_exclusive_fault {f : Fault} (h : exclusiveAddress rn offset size s = .fault f) :
    exec i s = .fault f := by
  rcases exclusiveForm_eq_some hform with ⟨rt, hi, rfl⟩ | ⟨rd, rt, hi, rfl⟩
  · rw [exec_load_ready hw hi hready, h, andThen_fault]
  · rw [exec_store_ready hw hi hready, h, andThen_fault]

end

/-! ### The address -/

section
variable {rn : Reg} {offset : Nat} {size : Size} {s : State}

theorem exclusiveAddress_overflow (h : effectiveAddress s.cpu rn offset > 0xFFFFFFFF) :
    exclusiveAddress rn offset size s = .refused (.addressOverflow s.cpu.pc) := by
  simp only [exclusiveAddress, h, if_true]

variable (hfit : effectiveAddress s.cpu rn offset ≤ 0xFFFFFFFF)
include hfit

theorem exclusiveAddress_unaligned (h : effectiveAddress s.cpu rn offset % size.bytes ≠ 0) :
    exclusiveAddress rn offset size s =
      .fault (.unalignedExclusive (BitVec.ofNat 32 (effectiveAddress s.cpu rn offset))) := by
  simp only [exclusiveAddress, gt_iff_lt, Nat.not_lt.mpr hfit, if_false, ne_eq, h, not_false_eq_true, if_true]

/-- An address that no map admitted allows is refused: the map it is checked by is one of them. -/
theorem exclusiveAddress_forbidden (halign : effectiveAddress s.cpu rn offset % size.bytes = 0)
    (h : ∀ map ∈ s.mapsAdmitted s.cpu.mapEpoch,
      exclusiveAllowed map (effectiveAddress s.cpu rn offset) size.bytes = false) :
    exclusiveAddress rn offset size s =
      .refused (.exclusiveNotAllowed (BitVec.ofNat 32 (effectiveAddress s.cpu rn offset))) := by
  rcases exclusiveAddress_else hfit halign with ⟨n, -, -, hx⟩ | ⟨hx, -⟩
  · obtain ⟨ha, -, ⟨map, hmap, hok⟩, -⟩ := exclusiveAddress_eq_next hx
    rw [ha, h map (State.lasting_admitted hmap)] at hok
    cases hok
  · exact hx

end

/-! ### Holds, faults and refusals -/

/-- Settles O14: the hold comes before the address. -/
theorem exclusiveHoldsOnPendingRegister : Obligations.ExclusiveHoldsOnPendingRegister :=
  fun _ _ _ _ _ _ _ hform hw hr hp => exec_exclusive_pending hw hform hr hp

/-- Settles O15: the address is checked first of all. -/
theorem addressOverflowRefused : Obligations.AddressOverflowRefused :=
  fun _ _ _ _ _ _ hform hw hready h => exec_exclusive_refused hw hform hready (exclusiveAddress_overflow h)

/-- Settles O16: an address that fits is then checked for its alignment. -/
theorem unalignedExclusiveFaults : Obligations.UnalignedExclusiveFaults :=
  fun _ _ _ _ _ _ hform hw hready hfit h => exec_exclusive_fault hw hform hready (exclusiveAddress_unaligned hfit h)

/-- Either bit-band alias region, by its bounds (R62, R63). -/
theorem inAlias_iff {a : Nat} :
    inAlias a = true ↔ (0x22000000 ≤ a ∧ a ≤ 0x23FFFFFF) ∨ (0x42000000 ≤ a ∧ a ≤ 0x43FFFFFF) := by
  simp [inAlias, inSramAlias, inPeripheralAlias]

/-- R149, by the byte that is no plain storage of a Normal region outside the aliases. -/
theorem exclusiveAllowed_eq_false_iff {map : MemoryMap} {a n : Nat} :
    exclusiveAllowed map a n = false ↔ ∃ k, k < n ∧ (bankAt map (a + k) ≠ some .storage ∨
      memTypeOf (regionOf (a + k)) ≠ .normal ∨
        (0x22000000 ≤ a + k ∧ a + k ≤ 0x23FFFFFF) ∨ (0x42000000 ≤ a + k ∧ a + k ≤ 0x43FFFFFF)) := by
  simp only [exclusiveAllowed, List.all_eq_false, List.mem_range, Bool.and_eq_true, beq_iff_eq, Bool.not_eq_true',
    ← inAlias_iff, ne_eq, not_and_or, Bool.not_eq_false, or_assoc]

/-- Settles O17: an aligned address that fits is then checked for its location. -/
theorem exclusiveOutsidePlainStorageRefused : Obligations.ExclusiveOutsidePlainStorageRefused := by
  rintro i named rn offset size s a hform hw hready rfl hfit halign h
  exact exec_exclusive_refused hw hform hready
    (exclusiveAddress_forbidden hfit halign fun map hmap => exclusiveAllowed_eq_false_iff.mpr (h map hmap))

/-! ### What is issued -/

section
variable {i : Instr} {rd rt rn : Reg} {offset : Nat} {size : Size} {s : State} {a : Nat}
  (hw : i.wellFormed = true) (ha : a = effectiveAddress s.cpu rn offset) (hfit : a ≤ 0xFFFFFFFF) (halign : a % size.bytes = 0)

section
variable (hi : loadForm i = some (rt, rn, offset, size)) (hready : ∀ r ∈ [rt, rn], s.cpu.pending r = false)
include hw ha hfit halign hi hready

/-- A Load-Exclusive that every map admitted allows retires with its read issued. -/
theorem exec_load_allowed (hok : ∀ map ∈ admitted s, exclusiveAllowed map a size.bytes = true) :
    ∃ n, Drawn s s.cpu.mapEpoch n ∧
      exec i s = retire (fun p => p.issueLoad rt (BitVec.ofNat 32 a) size) { s with draws := n } := by
  subst ha
  obtain ⟨n, h1, h2, hx⟩ := exclusiveAddress_next hfit halign hok
  exact ⟨n, ⟨h1, h2⟩, by rw [exec_load_ready hw hi hready, hx, andThen_next]⟩

/-- A Load-Exclusive at an aligned address retires with its read issued, or a map forbids it. -/
theorem exec_load_aligned :
    (∃ n, Drawn s s.cpu.mapEpoch n ∧
      exec i s = retire (fun p => p.issueLoad rt (BitVec.ofNat 32 a) size) { s with draws := n }) ∨
    exec i s = .refused (.exclusiveNotAllowed (BitVec.ofNat 32 a)) ∧ SomeMapForbids s a size := by
  subst ha
  rcases exclusiveAddress_else hfit halign with ⟨n, h1, h2, hx⟩ | ⟨hx, hforbid⟩
  · exact .inl ⟨n, ⟨h1, h2⟩, by rw [exec_load_ready hw hi hready, hx, andThen_next]⟩
  · exact .inr ⟨by rw [exec_load_ready hw hi hready, hx, andThen_refused], hforbid⟩

end

section
variable (hi : storeForm i = some (rd, rt, rn, offset, size)) (hready : ∀ r ∈ [rd, rt, rn], s.cpu.pending r = false)
include hw ha hfit halign hi hready

/-- A Store-Exclusive that every map admitted allows goes by its tag. -/
theorem exec_store_allowed (hok : ∀ map ∈ admitted s, exclusiveAllowed map a size.bytes = true) :
    ∃ n, Drawn s s.cpu.mapEpoch n ∧ exec i s = storeAt rd rt size s (BitVec.ofNat 32 a, { s with draws := n }) := by
  subst ha
  obtain ⟨n, h1, h2, hx⟩ := exclusiveAddress_next hfit halign hok
  exact ⟨n, ⟨h1, h2⟩, by rw [exec_store_ready hw hi hready, hx, andThen_next]⟩

/-- A Store-Exclusive at an aligned address goes by its tag, or a map forbids it. -/
theorem exec_store_aligned :
    (∃ n, Drawn s s.cpu.mapEpoch n ∧ exec i s = storeAt rd rt size s (BitVec.ofNat 32 a, { s with draws := n })) ∨
    exec i s = .refused (.exclusiveNotAllowed (BitVec.ofNat 32 a)) ∧ SomeMapForbids s a size := by
  subst ha
  rcases exclusiveAddress_else hfit halign with ⟨n, h1, h2, hx⟩ | ⟨hx, hforbid⟩
  · exact .inl ⟨n, ⟨h1, h2⟩, by rw [exec_store_ready hw hi hready, hx, andThen_next]⟩
  · exact .inr ⟨by rw [exec_store_ready hw hi hready, hx, andThen_refused], hforbid⟩

end

end

/-- What retiring a Load-Exclusive leaves is the state its statement names. -/
theorem retire_issueLoad {s : State} (n : Nat) (rt : Reg) (a : Nat) (size : Size) (hpc : s.cpu.pc.toNat + 4 ≤ 0xFFFFFFFC) :
    retire (fun p => p.issueLoad rt (BitVec.ofNat 32 a) size) { s with draws := n } =
      .next (AfterLoad s n rt a size) := retire_next hpc

/-- What retiring a Store-Exclusive leaves is the state its statement names: the low bits are kept (D17). -/
theorem retire_issueStore {s : State} (n : Nat) (rd rt : Reg) (a : Nat) (size : Size) (intact : Bool)
    (hpc : s.cpu.pc.toNat + 4 ≤ 0xFFFFFFFC) :
    retire (fun p => p.issueStore rd rt (BitVec.ofNat 32 a) size intact) { s with draws := n } =
      .next (AfterStore s n rd rt a size intact) := by
  refine (retire_next (s := { s with draws := n }) hpc).trans ?_
  rw [AfterStore, ← keep_eq]; rfl

/-- Settles O12, by the map the location is checked by. -/
theorem loadExclusiveIssues : Obligations.LoadExclusiveIssues := by
  intro i rt rn offset size s a hi hw hrt hrn ha hfit halign hpc
  have hready : ∀ r ∈ [rt, rn], s.cpu.pending r = false := by simp [hrt, hrn]
  simp only [← retire_issueLoad _ rt a size hpc]
  exact ⟨exec_load_allowed hw ha hfit halign hi hready, exec_load_aligned hw ha hfit halign hi hready⟩

/-- Settles O13, by the map the location is checked by; the tag is the one it is paired with. -/
theorem storeExclusiveIssues : Obligations.StoreExclusiveIssues := by
  intro i rd rt rn offset size intact s a hi hw hrd hrt hrn ha hfit halign htag hpc
  have hready : ∀ r ∈ [rd, rt, rn], s.cpu.pending r = false := by simp [hrd, hrt, hrn]
  have hissue n : storeAt rd rt size s (BitVec.ofNat 32 a, { s with draws := n }) =
      .next (AfterStore s n rd rt a size intact) :=
    (storeAt_paired htag).trans (retire_issueStore n rd rt a size intact hpc)
  simp only [← hissue]
  exact ⟨exec_store_allowed hw ha hfit halign hi hready, exec_store_aligned hw ha hfit halign hi hready⟩

/-- Settles O18: once the location is let, the tag decides. -/
theorem unpairedStoreExclusiveRefused : Obligations.UnpairedStoreExclusiveRefused := by
  intro i rd rt rn offset size s a hi hw hrd hrt hrn ha hfit halign htag
  have hready : ∀ r ∈ [rd, rt, rn], s.cpu.pending r = false := by simp [hrd, hrt, hrn]
  exact (exec_store_aligned hw ha hfit halign hi hready).imp_left fun ⟨_, _, h⟩ => h.trans (storeAt_unpaired htag)

/-! ### The top of the address space -/

theorem retire_overflow {update : Proc → Proc} {s : State} (h : s.cpu.pc.toNat + 4 > 0xFFFFFFFC) :
    retire update s = .refused (.pcOverflow s.cpu.pc) := if_pos h

theorem exec_dmb_optionSY (s : State) : exec (.dmb optionSY) s = retire Proc.recordDmb s :=
  guarded_of_ok (i := .dmb optionSY) s _ rfl

theorem exec_isb_optionSY (s : State) : exec (.isb optionSY) s =
    retire (fun p => { p with ifetchEpoch := s.history.length, isbSeq := p.seq, seen := [] }) s :=
  guarded_of_ok (i := .isb optionSY) s _ rfl

/-- Settles O54: an instruction that passes its own checks retires, and retiring is refused. -/
theorem pcOverflowRefused : Obligations.PcOverflowRefused := by
  intro s hpc
  refine ⟨fun hpool => ?_, ?_, ?_, ?_, ?_⟩
  · exact (Barriers.exec_dsb_optionSY_retires hpool).trans (retire_overflow hpc)
  · exact (exec_dmb_optionSY s).trans (retire_overflow hpc)
  · exact (exec_isb_optionSY s).trans (retire_overflow hpc)
  · intro i rt rn offset size a hi hw hrt hrn ha hfit halign
    have hready : ∀ r ∈ [rt, rn], s.cpu.pending r = false := by simp [hrt, hrn]
    exact (exec_load_aligned hw ha hfit halign hi hready).imp_left fun ⟨_, _, h⟩ => h.trans (retire_overflow hpc)
  · intro i rd rt rn offset size intact a hi hw hrd hrt hrn ha hfit halign htag
    have hready : ∀ r ∈ [rd, rt, rn], s.cpu.pending r = false := by simp [hrd, hrt, hrn]
    exact (exec_store_aligned hw ha hfit halign hi hready).imp_left fun ⟨_, _, h⟩ =>
      (h.trans (storeAt_paired htag)).trans (retire_overflow hpc)

end Sys2Proof.Proofs.Exclusives
end

section
/-! PROOFS. What executing an instruction leaves unchanged, the barriers' own part of the state, and what a move does to
the processor in focus (20_memory.md R91, 40_barriers.md). -/

namespace Sys2Proof.Proofs.Frames

open Sys2Proof.Machine Sys2Proof.Statements Sys2Proof.Proofs.Exclusives

/-! ### Executing an instruction -/

/-- The pc that a retired instruction leaves (R22). -/
theorem pc_add_four {pc : Word} (h : pc.toNat + 4 ≤ 0xFFFFFFFC) : (pc + 4#32).toNat = pc.toNat + 4 := by
  rw [BitVec.toNat_add, Nat.mod_eq_of_lt (by simpa using by omega)]; rfl

/-- Settles O21: an instruction holds or retires, and retiring touches the processor alone. -/
theorem execFrame : Obligations.ExecFrame := by
  intro i s t h
  rcases exec_cases h with rfl | ⟨update, n, ⟨hle, hfixed, hnone⟩, hr, ht⟩
  · exact ⟨rfl, ⟨rfl, rfl, rfl⟩, fun _ => rfl, rfl, rfl, rfl, rfl, rfl, rfl, rfl, rfl, ⟨le_rfl, fun _ => rfl⟩,
      fun _ => rfl, .inl rfl⟩
  · obtain ⟨hpc, rfl⟩ := retire_eq_next ht
    obtain ⟨hregs, hid, hobs, hfin, -⟩ := hr.frame s.cpu
    have hpc' := pc_add_four hpc
    exact ⟨hregs, ⟨hid, hobs, hfin⟩, fun _ => rfl, rfl, rfl, rfl, rfl, rfl, rfl, rfl, rfl, ⟨hle, hfixed⟩, hnone,
      .inr ⟨hpc', by simp only [hpc']; exact hpc, rfl⟩⟩

theorem exclusiveForm_ne_none_of_store {i : Instr} {f} (hi : storeForm i = some f) : exclusiveForm i ≠ none := by
  cases hl : loadForm i <;> simp [exclusiveForm, hl, hi]

/-- Settles O22, by the update the instruction retires with. -/
theorem hiddenStateFrame : Obligations.HiddenStateFrame := by
  intro i s t h
  rcases exec_cases h with rfl | ⟨update, n, -, hr, ht⟩
  · exact ⟨fun _ => ⟨rfl, rfl⟩, fun _ => rfl, fun _ => ⟨rfl, rfl, rfl⟩, fun _ => rfl⟩
  · obtain ⟨-, rfl⟩ := retire_eq_next ht
    cases hr with
    | dsb option hi => exact ⟨fun _ => ⟨rfl, rfl⟩, fun _ => rfl, fun _ => ⟨rfl, rfl, rfl⟩, fun hn => absurd hi (hn option)⟩
    | dmb option hi =>
      exact ⟨fun _ => by simp, fun hn => absurd hi (hn option), fun _ => by simp, fun _ => by simp⟩
    | isb option hi => exact ⟨fun _ => ⟨rfl, rfl⟩, fun _ => rfl, fun hn => absurd hi (hn option), fun _ => rfl⟩
    | load rt rn offset size a s' hi =>
      exact ⟨fun hn => by simp [exclusiveForm, hi] at hn, fun _ => rfl, fun _ => ⟨rfl, rfl, rfl⟩, fun _ => rfl⟩
    | store rd rt rn offset size a intact s' hi =>
      exact ⟨fun hn => absurd hn (exclusiveForm_ne_none_of_store hi), fun _ => rfl, fun _ => ⟨rfl, rfl, rfl⟩, fun _ => rfl⟩

/-! ### The barriers -/

/-- `s` with other registers in its processor and another memory. -/
abbrev withRegsAndMem (s : State) (regs : Vector Word 16) (m : Memory) : State :=
  { s with cpu := { s.cpu with regs := regs }, mem := m }

/-- What a barrier does: it is refused for its option, it holds, or it retires with an update that looks at the registers
and at memory as little as it changes them (R130). -/
inductive BarrierDoes (i : Instr) (s : State) : Prop where
  | refused (r : Refusal) : exec i s = .refused r → BarrierDoes i s
  | held : exec i s = .next s →
      (∀ regs m, exec i (withRegsAndMem s regs m) = .next (withRegsAndMem s regs m)) → BarrierDoes i s
  | retired (update : Proc → Proc) : exec i s = retire update s →
      (∀ regs m, exec i (withRegsAndMem s regs m) = retire update (withRegsAndMem s regs m)) →
      (∀ p, (update p).tag = p.tag ∧ (update p).pool = p.pool) →
      (∀ p regs, update { p with regs := regs } = { update p with regs := regs }) → BarrierDoes i s

theorem barrierDoes {i : Instr} (s : State) (h : isBarrier i = true) : BarrierDoes i s := by
  by_cases hw : i.wellFormed = true
  · have hok : ∀ s meaning, guarded i s meaning = meaning := fun s meaning => guarded_of_ok s meaning hw
    cases i with
    | dsb option =>
      by_cases hpool : s.cpu.pool.isEmpty = true
      · exact .retired (fun p => { p with mapEpoch := s.mapHistory.length }) ((hok ..).trans (if_pos hpool))
          (fun _ _ => (hok ..).trans (if_pos hpool)) (fun _ => ⟨rfl, rfl⟩) fun _ _ => rfl
      · exact .held ((hok ..).trans (if_neg hpool)) fun _ _ => (hok ..).trans (if_neg hpool)
    | dmb option =>
      refine .retired Proc.recordDmb (hok ..) (fun _ _ => hok ..) (fun p => by simp) fun p regs => ?_
      unfold Proc.recordDmb
      split <;> rfl
    | isb option =>
      exact .retired _ (hok ..) (fun _ _ => hok ..) (fun _ => ⟨rfl, rfl⟩) fun _ _ => rfl
    | strex rd rt rn imm8 => cases h
    | ldrex rt rn imm8 => cases h
    | strexb rd rt rn => cases h
    | strexh rd rt rn => cases h
    | ldrexb rt rn => cases h
    | ldrexh rt rn => cases h
  · exact .refused _ (Refusals.exec_of_not_wellFormed s (by simpa using hw))

/-- Settles O11: what a barrier retires with, or holds by, is the same whatever the registers and memory hold. -/
theorem barrierFrame : Obligations.BarrierFrame := by
  intro i s h
  rcases barrierDoes s h with ⟨r, hx⟩ | ⟨hx, hany⟩ | ⟨update, hx, hany, hkeep, hregs⟩
  · simp [hx]
  · refine ⟨fun f => by simp [hx], fun t ht => ?_⟩
    cases hx.symm.trans ht
    simp [SameIdentity, hany]
  · refine ⟨fun f hf => ?_, fun t ht => ?_⟩
    · rw [hx] at hf
      unfold retire at hf
      split at hf <;> cases hf
    · obtain ⟨h1, ⟨h2, h3, h4⟩, h5, h6, h7, h8, h9, h10, h11, h12, h13, -, h14, h15⟩ := execFrame i s t ht
      obtain ⟨hpc, rfl⟩ := retire_eq_next (hx.symm.trans ht)
      refine ⟨h1, (hkeep _).1, (hkeep _).2, ⟨h2, h3, h4⟩, h5, h8, h9, h10, h11, h6, h7, h12, h13, rfl, .inr rfl,
        fun regs m => ?_⟩
      refine (hany regs m).trans ((retire_next (s := withRegsAndMem s regs m) hpc).trans ?_)
      exact congrArg (fun p => (.next { s with mem := m, cpu := { p with
        pc := s.cpu.pc + 4#32, seq := s.cpu.seq + 1 } } : Result State)) (hregs s.cpu regs)

/-- Settles O10: the epoch is now and the wait is for what is outstanding, all of it older than the ISB. -/
theorem isbRenewsFetch : Obligations.IsbRenewsFetch := by
  intro s hpc holder
  refine ⟨_, (exec_isb_optionSY s).trans (retire_next hpc), rfl, fun a => staleBytes_eq_nil le_rfl, fun a => ?_⟩
  have hany : ∀ u ∈ s.cpu.pool, (u.isWrite && decide (u.seq < s.cpu.seq) && overlaps (u.footprint s.plat) (a, 2)) =
      (u.isWrite && overlaps (u.footprint s.plat) (a, 2)) := fun u hu => by simp [holder u hu]
  rw [fetchWaits, Bool.eq_iff_iff, List.any_eq_true, List.any_eq_true]
  exact exists_congr fun u => and_congr_right fun hu => by rw [← hany u hu]

/-! ### What a move does to the processor in focus -/

/-- The processor in focus after a move from `s` that is no change of focus: as it was, or having observed a write of
another agent, executed an instruction, issued a plain access, or completed a transaction. -/
inductive CpuMoved (s : State) : Move → Proc → Prop where
  | kept (m : Move) : CpuMoved s m s.cpu
  | observed (m : Move) (who : Nat) (written : Nat × Nat) : m ≠ .issue → CpuMoved s m (s.cpu.observe who written)
  | executed (i : Instr) (update : Proc → Proc) (n : Nat) : Retires i { s with draws := n } update →
      CpuMoved s .issue { update s.cpu with pc := s.cpu.pc + 4#32, seq := s.cpu.seq + 1 }
  | issued (m : Move) (u : Txn) : m ≠ .issue →
      CpuMoved s m { s.cpu with seq := s.cpu.seq + 1, pool := s.cpu.pool ++ [u] }
  | completed (m : Move) (k : Nat) (u : Txn) (c : Completion) (written : List Host.Cell) (now : Nat) : m ≠ .issue →
      s.history.length ≤ now → CpuMoved s m ((s.cpu.settleTxn k u c).seeOwnWrite u written now)

/-- What completing a transaction of any agent does to the processors: nothing, or they observe its write. -/
theorem completeTxn_observed {map : MemoryMap} {who n : Nat} {u : Txn} {s t : State} {c : Completion}
    (h : completeTxn map who u { s with draws := n } = .next (c, t)) :
    s.history.length ≤ t.history.length ∧ ((t.cpu = s.cpu ∧ t.others = s.others) ∨
      ∃ written, t.cpu = s.cpu.observe who written ∧ t.others = s.others.map (Proc.observe who written)) := by
  rcases completeTxn_cases (Quiet.draws (n := n)) h with ⟨hq, -⟩ | ⟨-, hw, -⟩
  · obtain ⟨hcpu, hothers, -, -, hhist, -⟩ := hq.fields
    exact ⟨by rw [hhist], .inl ⟨hcpu, hothers⟩⟩
  · obtain ⟨hcpu, hothers, -, -, -, hhist⟩ := hw.fields
    exact ⟨hhist, .inr ⟨_, hcpu, hothers⟩⟩

/-- The other processors after a move: as they were, or having observed a write. -/
def OthersMoved (s t : State) : Prop :=
  t.others = s.others ∨ ∃ who written, t.others = s.others.map (Proc.observe who written)

/-- An instruction the processor executes, or a hold; a fetch and a check may draw. -/
theorem issue_cases {s t : State} (h : Machine.issue s = .next t) :
    (∃ n, t = { s with draws := n }) ∨ ∃ i update m n, Retires i { s with draws := m } update ∧
      t = { s with draws := n, cpu := { update s.cpu with pc := s.cpu.pc + 4#32, seq := s.cpu.seq + 1 } } := by
  unfold Machine.issue at h
  split at h
  · cases h; exact .inl ⟨s.draws, rfl⟩
  · obtain ⟨fetched, hf, h⟩ := andThen_eq_next.mp h
    rcases fetched with _ | ⟨i, s'⟩
    · cases h; exact .inl ⟨s.draws, rfl⟩
    · obtain ⟨-, m, rfl⟩ := fetchInstr_eq_next hf
      rcases exec_cases h with rfl | ⟨update, n, -, hr, ht⟩
      · exact .inl ⟨m, rfl⟩
      · exact .inr ⟨i, update, m, n, hr, (retire_eq_next ht).2⟩

/-- What a move that is no change of focus does to the processors. -/
theorem play_cases {m : Move} {s t : State} (h : play m s = .next t) (hm : ∀ k, m ≠ .focus k) :
    CpuMoved s m t.cpu ∧ OthersMoved s t := by
  cases m with
  | issue =>
    rcases issue_cases h with ⟨n, rfl⟩ | ⟨i, update, m, n, hr, rfl⟩
    · exact ⟨.kept _, .inl rfl⟩
    · exact ⟨.executed i update m hr, .inl rfl⟩
  | complete k =>
    rcases completeAt_cases h with rfl | ⟨u, c, s', map, n, hk, -, -, -, htxn, rfl⟩
    · exact ⟨.kept _, .inl rfl⟩
    · obtain ⟨hhist, hobs⟩ := completeTxn_observed htxn
      refine ⟨?_, hobs.imp And.right fun ⟨w, h⟩ => ⟨_, w, h.2⟩⟩
      simp only [completeTxn_own_cpu Quiet.draws htxn]
      exact .completed _ k u c _ _ (by simp) hhist
  | focus k => exact absurd rfl (hm k)
  | plain access dest =>
    rcases issuePlain_cases h with rfl | ⟨n, -, -, rfl⟩
    · exact ⟨.kept _, .inl rfl⟩
    · exact ⟨.issued _ _ (by simp), .inl rfl⟩
  | masterIssue j =>
    rcases masterIssue_cases h with rfl | ⟨master, access, rest, n, -, -, -, -, rfl⟩
    · exact ⟨.kept _, .inl rfl⟩
    · exact ⟨.kept _, .inl rfl⟩
  | masterComplete j k =>
    rcases masterComplete_cases h with rfl | ⟨master, u, c, s', map, n, -, -, -, htxn, rfl⟩
    · exact ⟨.kept _, .inl rfl⟩
    · rcases (completeTxn_observed htxn).2 with ⟨hcpu, hothers⟩ | ⟨w, hcpu, hothers⟩
      · exact ⟨hcpu ▸ .kept _, .inl hothers⟩
      · exact ⟨hcpu ▸ .observed _ _ _ (by simp), .inr ⟨_, w, hothers⟩⟩

/-- A completion drops a DMB from the record only with the last transaction older than it (R131). -/
theorem settleTxn_mem_dmbs {p : Proc} {k d : Nat} {u old : Txn} {c : Completion} (hd : d ∈ p.dmbs)
    (hold : old ∈ (p.settleTxn k u c).pool) (hlt : old.seq < d) : d ∈ (p.settleTxn k u c).dmbs := by
  obtain ⟨hpool, hdmbs⟩ := Proc.settleTxn_pool p k u c
  rw [hdmbs]
  rw [hpool] at hold
  cases c with
  | halfway t' => exact hd
  | done v => exact List.mem_filter.mpr ⟨hd, List.any_eq_true.mpr ⟨old, hold, by simpa using hlt⟩⟩

theorem retires_mem_dmbs {i : Instr} {s : State} {update : Proc → Proc} (h : Retires i s update) {p : Proc} {d : Nat}
    (hd : d ∈ p.dmbs) : d ∈ (update p).dmbs := by
  cases h with
  | dmb option =>
    unfold Proc.recordDmb
    split
    · exact hd
    · exact List.mem_append_left _ hd
  | dsb => exact hd
  | isb => exact hd
  | load => exact hd
  | store => exact hd

/-- No move drops a DMB from the record while a transaction older than it is outstanding (R131). -/
theorem CpuMoved.mem_dmbs {s : State} {m : Move} {p : Proc} (h : CpuMoved s m p) {d : Nat} {old : Txn}
    (hd : d ∈ s.cpu.dmbs) (hold : old ∈ p.pool) (hlt : old.seq < d) : d ∈ p.dmbs := by
  cases h with
  | kept => exact hd
  | observed => simpa using hd
  | executed i update n hr => exact retires_mem_dmbs hr hd
  | issued => exact hd
  | completed =>
    rw [Proc.seeOwnWrite_pool] at hold
    rw [Proc.seeOwnWrite_dmbs]
    exact settleTxn_mem_dmbs hd hold hlt

/-- The four reasons why a transaction waits for an older one (R91). -/
theorem mustPrecede_eq_true_iff {plat : Platform} {dmbs : List Nat} {old young : Txn} :
    mustPrecede plat dmbs old young = true ↔ old.seq < young.seq ∧
      (overlaps (old.footprint plat) (young.footprint plat) = true ∨ (∃ d ∈ dmbs, old.seq < d ∧ d < young.seq) ∨
        (old.memType plat = .stronglyOrdered ∧ young.memType plat = .stronglyOrdered) ∨
        (old.memType plat, young.memType plat) ∈ plat.orderTable) := by
  simp [mustPrecede, or_assoc]

/-- Settles O8: the DMB retires with its record, every move keeps the record, and the record blocks completion. -/
theorem dmbOrdersTransactions : Obligations.DmbOrdersTransactions := by
  refine ⟨fun s hpc => ?_, fun m s t d old hp hm hd hold hlt => ?_, fun s k d old young hk hold hd hlt hlt' => ?_⟩
  · refine (exec_dmb_optionSY s).trans ((retire_next hpc).trans ?_)
    unfold Proc.recordDmb
    cases hpool : s.cpu.pool <;> simp [hpool]
  · exact (play_cases hp hm).1.mem_dmbs hd hold hlt
  · exact completeAt_blocked hk hold
      (mustPrecede_eq_true_iff.mpr ⟨hlt.trans hlt', .inr (.inl ⟨d, hd, hlt, hlt'⟩)⟩)

theorem CpuMoved.ifetchEpoch {s : State} {m : Move} {p : Proc} (h : CpuMoved s m p) (hm : m ≠ .issue) :
    p.ifetchEpoch = s.cpu.ifetchEpoch := by
  cases h with
  | kept => rfl
  | observed => simp
  | executed => exact absurd rfl hm
  | issued => rfl
  | completed _ k u c => simpa using (Proc.settleTxn_frame s.cpu k u c).2.2.2.2.2.2.1

/-- Settles O52: the update of an instruction that is no ISB keeps the epoch, and so does every other move. -/
theorem onlyIsbMovesFetchEpoch : Obligations.OnlyIsbMovesFetchEpoch :=
  ⟨fun i s t h hi => ((hiddenStateFrame i s t h).2.2.1 hi).1, fun _ _ _ hp hissue hm => (play_cases hp hm).1.ifetchEpoch hissue⟩

end Sys2Proof.Proofs.Frames
end

section
/-! PROOFS. The order of completions (20_memory.md R82 to R84, R91), and that a pool empties (40_barriers.md R132). -/

namespace Sys2Proof.Proofs.Ordering

open Sys2Proof.Machine Sys2Proof.Proofs.Frames

/-! ### Which transactions wait for which -/

/-- Settles O29, by the first reason to wait. -/
theorem overlappingCompleteInProgramOrder : Obligations.OverlappingCompleteInProgramOrder :=
  fun _ _ _ _ hk hold hlt hov => completeAt_blocked hk hold (mustPrecede_eq_true_iff.mpr ⟨hlt, .inl hov⟩)

/-- A transaction to the Private Peripheral Bus is Strongly-ordered: its address is in no alias region (R41). -/
theorem memType_privatePeripheralBus (plat : Platform) {t : Txn}
    (h : 0xE0000000 ≤ t.addr.toNat ∧ t.addr.toNat ≤ 0xE00FFFFF) : t.memType plat = .stronglyOrdered := by
  have halias : ¬ inAlias t.addr.toNat = true := by rw [Exclusives.inAlias_iff]; omega
  simp only [Txn.memType, Txn.footprint, Machine.footprint, location, if_neg halias,
    MemoryMap.regionOf_eq_privatePeripheralBus h.1 h.2]
  rfl

/-- Settles O30, by the third reason to wait. -/
theorem stronglyOrderedCompleteInProgramOrder : Obligations.StronglyOrderedCompleteInProgramOrder :=
  fun _ _ _ _ hk hold hlt h h' => completeAt_blocked hk hold (mustPrecede_eq_true_iff.mpr
    ⟨hlt, .inr (.inr (.inl ⟨memType_privatePeripheralBus _ h, memType_privatePeripheralBus _ h'⟩))⟩)

/-- Settles O31: none of the four reasons to wait applies. -/
theorem otherwiseNoOrder : Obligations.OtherwiseNoOrder := by
  intro plat dmbs old young htable hov hdmb hso
  rw [Bool.eq_false_iff, ne_eq, mustPrecede_eq_true_iff]
  rintro ⟨-, h | ⟨d, hd, h⟩ | h | h⟩
  · simp [hov] at h
  · exact hdmb d hd h
  · exact hso h
  · simp [htable] at h

/-! ### Some transaction may complete -/

theorem mayComplete_iff {plat : Platform} {p : Proc} {t : Txn} :
    mayComplete plat p t = true ↔ (t.isWriteBack = true ∨ ∀ w ∈ p.pool, w.isWriteBack = false) ∧
      ∀ t' ∈ p.pool, mustPrecede plat p.dmbs t' t = false := by
  simp [mayComplete, keepsPair, betweenHalves]

/-- A write back waits for nothing (R69). -/
theorem mayComplete_writeBack {s : State} {p : Proc} (h : p.Inv s) {t : Txn} (ht : t ∈ p.pool)
    (hw : t.isWriteBack = true) : mayComplete s.plat p t = true :=
  mayComplete_iff.mpr ⟨.inl hw, h.writeBackReady t ht hw⟩

/-- With no write back outstanding the oldest transaction waits for nothing. -/
theorem mayComplete_oldest {plat : Platform} {p : Proc} {t : Txn} {rest : List Txn} (hpool : p.pool = t :: rest)
    (hordered : p.pool.Pairwise (fun t u => t.seq < u.seq)) (hw : ∀ w ∈ p.pool, w.isWriteBack = false) :
    mayComplete plat p t = true := by
  refine mayComplete_iff.mpr ⟨.inr hw, fun t' ht' => mustPrecede_of_le _ _ ?_⟩
  rw [hpool] at ht' hordered
  rcases List.mem_cons.mp ht' with rfl | ht'
  · exact le_rfl
  · exact (List.rel_of_pairwise_cons hordered ht').le

/-- Settles O32: a write back, and without one the oldest transaction. -/
theorem someTransactionMayComplete : Obligations.SomeTransactionMayComplete := by
  intro s h hne
  by_cases hw : ∃ t ∈ s.cpu.pool, t.isWriteBack = true
  · obtain ⟨t, ht, hw⟩ := hw
    obtain ⟨k, hk⟩ := List.getElem?_of_mem ht
    exact ⟨k, t, hk, mayComplete_writeBack h.cpu ht hw⟩
  · obtain ⟨t, rest, hpool⟩ := List.exists_cons_of_ne_nil hne
    exact ⟨0, t, by simp [hpool], mayComplete_oldest hpool h.cpu.poolOrdered (by simpa using hw)⟩

/-! ### Settling empties the pool -/

/-- How many completions a pool takes at most: two for an alias write, of which a write back is the second (R69). -/
def work (pool : List Txn) : Nat := (pool.map fun t => if t.isWriteBack then 1 else 2).sum

theorem work_le (pool : List Txn) : work pool ≤ 2 * pool.length := by
  induction pool with
  | nil => simp [work]
  | cons t pool ih =>
    simp only [work, List.map_cons, List.sum_cons, List.length_cons] at ih ⊢
    split <;> omega

theorem work_eraseIdx {pool : List Txn} {k : Nat} {t : Txn} (hk : pool[k]? = some t) :
    work (pool.eraseIdx k) < work pool := by
  induction pool generalizing k with
  | nil => simp at hk
  | cons u pool ih =>
    cases k with
    | zero => simp only [work, List.eraseIdx_cons_zero, List.map_cons, List.sum_cons]; split <;> omega
    | succ k =>
      have := ih (k := k) (by simpa using hk)
      simpa [work] using this

theorem work_set_writeBack {pool : List Txn} {k : Nat} {t t' : Txn} (hk : pool[k]? = some t)
    (ht : t.isWriteBack = false) (ht' : t'.isWriteBack = true) : work (pool.set k t') < work pool := by
  induction pool generalizing k with
  | nil => simp at hk
  | cons u pool ih =>
    cases k with
    | zero =>
      cases (by simpa using hk : u = t)
      simp [work, ht, ht']
    | succ k =>
      have := ih (k := k) (by simpa using hk)
      simpa [work] using this

/-- A completion leaves less to do. -/
theorem work_settleTxn {p : Proc} {k : Nat} {u : Txn} {c : Completion} (hk : p.pool[k]? = some u)
    (hc : (∃ v, c = .done v) ∨
      ∃ old v, u.op = .write v ∧ inAlias u.addr.toNat = true ∧ c = .halfway { u with op := .writeBack old v }) :
    work (p.settleTxn k u c).pool < work p.pool := by
  rw [(Proc.settleTxn_pool p k u c).1]
  rcases hc with ⟨v, rfl⟩ | ⟨old, v, hop, -, rfl⟩
  · exact work_eraseIdx hk
  · exact work_set_writeBack hk (by simp [Txn.isWriteBack, hop]) rfl

section
variable {s : State} (h : s.Inv)
include h

/-- A sound transaction completes by the map chosen, for one that permits it is preferred (R168). -/
theorem completeAt_answers {k : Nat} {u : Txn} (hk : s.cpu.pool[k]? = some u) (hm : mayComplete s.plat s.cpu u = true) :
    ∃ t, completeAt k s = .next t ∧ work t.cpu.pool < work s.cpu.pool ∧ t.cpu.pc = s.cpu.pc ∧ t.cpu.tag = s.cpu.tag := by
  obtain ⟨map, n, -, hpermitted, -, -, heq⟩ := completeAt_next hk hm
  have hsound := h.cpu.poolSound u (List.mem_of_getElem? hk)
  obtain ⟨good, hgood, hok⟩ := hsound.permitted
  obtain ⟨⟨c, s'⟩, hr⟩ := completeTxn_next (s := s) (who := s.cpu.id) (s₀ := { s with draws := n }) rfl hsound
    (hpermitted ⟨good, State.lasting_admitted hgood, hok⟩)
  have hcpu := completeTxn_own_cpu Quiet.draws hr
  obtain ⟨-, -, -, hleft⟩ := completeTxn_leaves hr
  obtain ⟨-, -, -, hpc, htag, -⟩ := Proc.settleTxn_frame s.cpu k u c
  rw [hr, andThen_next] at heq
  exact ⟨_, heq, by simpa [hcpu] using work_settleTxn hk hleft, by simpa [hcpu] using hpc, by simpa [hcpu] using htag⟩

theorem completeAt_never_stops (k : Nat) : ∃ t, completeAt k s = .next t := by
  cases hk : s.cpu.pool[k]? with
  | none => exact ⟨s, by simp [completeAt, hk]⟩
  | some u =>
    by_cases hm : mayComplete s.plat s.cpu u = true
    · exact (completeAt_answers h hk hm).imp fun _ => And.left
    · exact ⟨s, by simp [completeAt, hk, hm]⟩

theorem masterComplete_never_stops (m k : Nat) : ∃ t, masterComplete m k s = .next t := by
  unfold masterComplete
  split
  · exact ⟨s, rfl⟩
  · rename_i master hmaster
    split
    · exact ⟨s, rfl⟩
    · rename_i u hk
      split
      · have hsound := h.masters master (List.mem_of_getElem? hmaster) u (List.mem_of_getElem? hk)
        obtain ⟨good, hgood, hok⟩ := hsound.permitted
        obtain ⟨-, hpermitted, n, -, -, hstate⟩ := chooseMap_cases (u.permitted s.plat) 0 s
        obtain ⟨r, hr⟩ := completeTxn_next (s := s) (who := master.id) (s₀ := { s with draws := n }) rfl hsound
          (hpermitted ⟨good, State.lasting_admitted hgood, hok⟩)
        simp [hstate, hr]
      · exact ⟨s, rfl⟩

end

/-- Settling takes a transaction that may complete, if something is outstanding. -/
theorem findIdx_mayComplete {s : State} (h : s.Inv) (hne : s.cpu.pool ≠ []) :
    ∃ k u, s.cpu.pool.findIdx? (mayComplete s.plat s.cpu) = some k ∧ s.cpu.pool[k]? = some u ∧
      mayComplete s.plat s.cpu u = true := by
  obtain ⟨j, u, hj, hm⟩ := someTransactionMayComplete s h hne
  cases hfind : s.cpu.pool.findIdx? (mayComplete s.plat s.cpu) with
  | none =>
    have := List.findIdx?_eq_none_iff.mp hfind u (List.mem_of_getElem? hj)
    simp [hm] at this
  | some k =>
    obtain ⟨hlt, hk, -⟩ := List.findIdx?_eq_some_iff_getElem.mp hfind
    exact ⟨k, _, rfl, List.getElem?_eq_getElem hlt, hk⟩

theorem pool_eq_nil_of_work {pool : List Txn} (h : work pool = 0) : pool = [] := by
  cases pool with
  | nil => rfl
  | cons t pool =>
    simp only [work, List.map_cons, List.sum_cons] at h
    split at h <;> omega

/-- With as much fuel as there is to do, settling empties the pool and keeps the pc and the tag. -/
theorem settleFor_empties {fuel : Nat} {s : State} (h : s.Inv) (hfuel : work s.cpu.pool ≤ fuel) :
    ∃ t, settleFor fuel s = .next t ∧ t.cpu.pool = [] ∧ t.cpu.pc = s.cpu.pc ∧ t.cpu.tag = s.cpu.tag := by
  induction fuel generalizing s with
  | zero => exact ⟨s, rfl, pool_eq_nil_of_work (Nat.le_zero.mp hfuel), rfl, rfl⟩
  | succ fuel ih =>
    by_cases hpool : s.cpu.pool = []
    · exact ⟨s, settleFor_nil _ s hpool, hpool, rfl, rfl⟩
    · obtain ⟨k, u, hfind, hk, hm⟩ := findIdx_mayComplete h hpool
      obtain ⟨s', hs', hwork, hpc, htag⟩ := completeAt_answers h hk hm
      obtain ⟨t, ht, hempty, hpc', htag'⟩ := ih (completeAt_inv h hs') (by omega)
      exact ⟨t, by simp [settleFor, hfind, hs', ht], hempty, hpc'.trans hpc, htag'.trans htag⟩

/-- Settles O33: the checks were made at issue, and each completion leaves less to do. -/
theorem settleEmptiesPool : Obligations.SettleEmptiesPool := fun _ h =>
  ⟨completeAt_never_stops h, masterComplete_never_stops h, settleFor_empties h (work_le _)⟩

end Sys2Proof.Proofs.Ordering
end

section
/-! PROOFS. Instruction fetch: its checks, the bytes it returns and what it waits for (20_memory.md R61, R71, R87, R93). -/

namespace Sys2Proof.Proofs.Fetch

open Sys2Proof.Machine Sys2Proof.Statements Sys2Proof.Proofs.Frames Sys2Proof.Proofs.Refusals

/-! ### One halfword -/

section
variable {a : Word} {s : State}

theorem fetchHalf_odd (s : State) (h : a.toNat % 2 ≠ 0) : fetchHalf a s = .refused (.oddFetchAddress a) := if_pos h

theorem fetchHalf_xn (s : State) (heven : a.toNat % 2 = 0) (h : isXN (regionOf a.toNat) = true) :
    fetchHalf a s = .fault (.xnFetch a) :=
  (if_neg (by simp [heven])).trans (if_pos h)

/-- The choice of a map looks at no agenda. -/
theorem chooseMap_agenda (ok : MemoryMap → Bool) (epoch : Nat) (s : State) (agenda : List Move) :
    chooseMap ok epoch { s with agenda := agenda } =
      ((chooseMap ok epoch s).1, { (chooseMap ok epoch s).2 with agenda := agenda }) := by
  have hmaps : ({ s with agenda := agenda } : State).mapsAdmitted epoch = s.mapsAdmitted epoch := rfl
  unfold chooseMap
  rw [hmaps]
  split <;> rfl

/-- A fetch from an even address that is not XN goes by one of the maps admitted: it is refused where that map has nothing,
it waits where it must, and else it answers the bytes there if no other is admitted; and it looks at no agenda. -/
theorem fetchHalf_by_map (heven : a.toNat % 2 = 0) (hxn : isXN (regionOf a.toNat) = false) :
    ∃ map ∈ admitted s, ∃ n, (admitted s = [s.map] → n = s.draws) ∧
      (populated map a.toNat 2 = false → fetchHalf a s = .refused (.unpopulated a)) ∧
      (populated map a.toNat 2 = true → ∃ r, fetchHalf a s = .next r) ∧
      (populated map a.toNat 2 = true → fetchWaits s a.toNat = true → fetchHalf a s = .next none) ∧
      (populated map a.toNat 2 = true → fetchWaits s a.toNat = false → staleBytes s (place map a.toNat) = [] →
        staleBytes s (place map (a.toNat + 1)) = [] → ∀ agenda, fetchHalf a { s with agenda := agenda } =
          .next (some (halfOfBytes (s.byteAt map a.toNat) (s.byteAt map (a.toNat + 1)),
            { s with agenda := agenda, draws := n }))) := by
  obtain ⟨hmap, -, n, -, hfixed, hstate⟩ := chooseMap_cases (fun _ => true) s.cpu.mapEpoch s
  have hodd : ¬ a.toNat % 2 ≠ 0 := by simp [heven]
  refine ⟨_, hmap, n, hfixed, fun hp => ?_, fun hp => ?_, fun hp hw => ?_, fun hp hw hlow hhigh agenda => ?_⟩
  · simp [fetchHalf, heven, hxn, hp]
  · simp only [fetchHalf, hodd, if_false, hxn, Bool.false_eq_true, hp, if_true]
    split <;> exact ⟨_, rfl⟩
  · simp [fetchHalf, heven, hxn, hp, hw]
  · have hw' : fetchWaits { s with agenda := agenda } a.toNat = false := hw
    simp only [fetchHalf, hodd, if_false, hxn, Bool.false_eq_true, chooseMap_agenda, hp, if_true, hw', hstate]
    rw [fetchByte_current (by exact hlow), fetchByte_current (by exact hhigh)]
    rfl

/-- A fetch that answers a halfword passed its checks, by the map chosen. -/
theorem fetchHalf_passed {t : State} {h : Half} (hf : fetchHalf a s = .next (some (h, t))) :
    a.toNat % 2 = 0 ∧ isXN (regionOf a.toNat) = false ∧ fetchWaits s a.toNat = false ∧
      populated (chooseMap (fun _ => true) s.cpu.mapEpoch s).1 a.toNat 2 = true := by
  simp only [fetchHalf] at hf
  split_ifs at hf with h1 h2 h3 h4
  · simp at hf
  · exact ⟨not_not.mp h1, by simpa using h2, by simpa using h4, h3⟩

/-- The pc's parity is that of the second halfword's address. -/
theorem even_add_two (h : a.toNat % 2 = 0) : (a + 2#32).toNat % 2 = 0 := by
  simp only [BitVec.toNat_add, BitVec.toNat_ofNat]
  omega

theorem fetchWaits_of_mem {a : Nat} {u : Txn} (hu : u ∈ s.cpu.pool) (hw : u.isWrite = true)
    (hseq : u.seq < s.cpu.isbSeq) (hov : overlaps (u.footprint s.plat) (a, 2) = true) : fetchWaits s a = true :=
  List.any_eq_true.mpr ⟨u, hu, by simp [hw, hseq, hov]⟩

end

/-! ### The checks -/

theorem fetchInstr_of_fault {s : State} {f : Fault} (h : fetchHalf s.cpu.pc s = .fault f) : fetchInstr s = .fault f := by
  simp [fetchInstr, fetchFirst, h]

theorem fetchInstr_of_odd {s : State} (h : s.cpu.pc.toNat % 2 ≠ 0) :
    fetchInstr s = .refused (.oddFetchAddress s.cpu.pc) := by
  simp [fetchInstr, fetchFirst, fetchHalf_odd s h]

/-- Where the first halfword is unpopulated, XN of the second is reported first (R167). -/
theorem fetchInstr_of_unpopulated {s : State} (h : fetchHalf s.cpu.pc s = .refused (.unpopulated s.cpu.pc)) :
    fetchInstr s = if isXN (regionOf (s.cpu.pc + 2#32).toNat) = true then .fault (.xnFetch (s.cpu.pc + 2#32))
      else .refused (.unpopulated s.cpu.pc) := by
  simp only [fetchInstr, fetchFirst, h, true_and]
  split <;> rfl

/-- Settles O47, a check at a time; the checks of a halfword do not look at the state but for the map. -/
theorem fetchChecks : Obligations.FetchChecks := by
  refine ⟨fun s a => ?_, fun s => ⟨fun f => fetchInstr_of_fault, fetchInstr_of_odd, fetchInstr_of_unpopulated,
    fun hw1 s₁ h1 hopens hxn => ?_⟩⟩
  · split_ifs with hodd hxn
    · exact fetchHalf_odd s hodd
    · exact fetchHalf_xn s (not_not.mp hodd) hxn
    · obtain ⟨map, hmap, n, -, hnone, hsome, -⟩ := fetchHalf_by_map (s := s) (not_not.mp hodd) (by simpa using hxn)
      refine ⟨fun h => hnone (h map hmap), fun h => hsome (h map hmap), ?_⟩
      cases hp : populated map a.toNat 2 with
      | false => exact .inl (hnone hp)
      | true => exact .inr (hsome hp)
  · exact fetchInstr_second_fault h1 hopens (fetchHalf_xn s₁ (even_add_two (fetchHalf_passed h1).1) hxn)

/-! ### The bytes -/

theorem extract_low_halfOfBytes (low high : Byte) : (halfOfBytes low high).extractLsb' 0 8 = low :=
  BitVec.extractLsb'_append_eq_right

theorem extract_high_halfOfBytes (low high : Byte) : (halfOfBytes low high).extractLsb' 8 8 = high :=
  BitVec.extractLsb'_append_eq_left

/-- Settles O48, a byte at a time; with one map and nothing stale the fetch draws nothing. -/
theorem fetchReturnsAdmittedBytes : Obligations.FetchReturnsAdmittedBytes := by
  intro s t a h hf
  obtain ⟨-, ⟨n, rfl⟩, map, hmap, low, high, rfl, hlow, hhigh⟩ := fetchHalf_eq_next hf
  refine ⟨rfl, ⟨map, hmap, fun k hk => ?_⟩, fun hone hlow' hhigh' => ?_⟩
  · interval_cases k
    · simp only [Nat.mul_zero, Nat.add_zero, extract_low_halfOfBytes]
      exact hlow.imp_right staleBytes_mem
    · simp only [Nat.mul_one, extract_high_halfOfBytes]
      exact hhigh.imp_right staleBytes_mem
  · obtain ⟨heven, hxn, hwaits, hp⟩ := fetchHalf_passed hf
    rw [chooseMap_settled hone] at hp
    rw [fetchHalf_current heven hxn hone hp hwaits hlow' hhigh'] at hf
    simp only [Host.Outcome.next.injEq, Option.some.injEq, Prod.mk.injEq] at hf
    exact ⟨hf.1.symm, hf.2.symm⟩

/-- Settles O49: the map shows the alias address itself, and that is where the bytes are. -/
theorem sramAliasFetchNotRemapped : Obligations.SramAliasFetchNotRemapped := by
  intro s a halias heven
  have hrange : 0x22000000 ≤ a.toNat ∧ a.toNat ≤ 0x23FFFFFF := by simpa [inSramAlias] using halias
  have hxn : isXN (regionOf a.toNat) = false := by
    rw [MemoryMap.regionOf_eq_sram (by omega) (by omega)]; rfl
  obtain ⟨map, hmap, n, -, hnone, -, -, hbytes⟩ := fetchHalf_by_map (s := s) heven hxn
  refine ⟨fun h hwaits => ?_, fun h => hnone (h map hmap)⟩
  obtain ⟨hp, hlow, hhigh⟩ := h map hmap
  exact ⟨map, hmap, n, hbytes hp hwaits hlow hhigh s.agenda⟩

/-! ### The wait for own writes -/

/-- A processor whose fetch waits holds, as does one that fetches nothing at all. -/
theorem issue_of_waits {s : State} (h : fetchInstr s = .next none) : Machine.issue s = .next s := by
  unfold Machine.issue
  split
  · rfl
  · simp [h]

theorem fetchInstr_first_waits {s : State} (h : fetchHalf s.cpu.pc s = .next none) : fetchInstr s = .next none := by
  simp [fetchInstr, fetchFirst, h]

/-- A populated halfword that overlaps an own write from before the latest ISB is waited for. -/
theorem fetchHalf_waits {s : State} {a : Word} {u : Txn} (hu : u ∈ s.cpu.pool) (hw : u.isWrite = true)
    (hseq : u.seq < s.cpu.isbSeq) (hov : overlaps (u.footprint s.plat) (a.toNat, 2) = true)
    (heven : a.toNat % 2 = 0) (hxn : isXN (regionOf a.toNat) = false)
    (hp : ∀ map ∈ admitted s, populated map a.toNat 2 = true) : fetchHalf a s = .next none := by
  obtain ⟨map, hmap, n, -, -, -, hwaits, -⟩ := fetchHalf_by_map (s := s) heven hxn
  exact hwaits (hp map hmap) (fetchWaits_of_mem hu hw hseq hov)

/-- Settles O50: whichever halfword waits, the fetch of the instruction does. -/
theorem fetchWaitsForOwnCodeWrite : Obligations.FetchWaitsForOwnCodeWrite := by
  intro s u hu hw hseq heven
  refine ⟨fun hov hxn hp => issue_of_waits (fetchInstr_first_waits (fetchHalf_waits hu hw hseq hov heven hxn hp)),
    fun hw1 s₁ h1 hopens hov hxn hp => issue_of_waits (fetchInstr_second_waits h1 hopens ?_)⟩
  obtain ⟨-, ⟨n, rfl⟩, -⟩ := fetchHalf_eq_next h1
  exact fetchHalf_waits hu hw hseq hov (even_add_two heven) hxn hp

end Sys2Proof.Proofs.Fetch
end

section
/-! PROOFS. The whole machine: what a step runs, what it leaves of the other processors, and reset (20_memory.md R91, R96,
60_exceptions.md R174, 70_reset_and_hazards.md R184, 10_state.md R31). -/

namespace Sys2Proof.Proofs.WholeMachine

open Sys2Proof.Machine Sys2Proof.Statements Sys2Proof.Proofs.Frames

/-! ### The instruction at the pc -/

/-- The halfwords of an encoding, from its bytes: by whichever maps they were fetched they select the instruction. -/
theorem decodeWord_of_bytes {i : Instr} {b0 b1 b2 b3 : Byte} (h : [b0, b1, b2, b3] = encode i) :
    opensTwoHalfwords (halfOfBytes b0 b1) = true ∧ decodeWord (halfOfBytes b0 b1 ++ halfOfBytes b2 b3) = some i := by
  have h' : [b0, b1, b2, b3] =
      bytesOfHalf ((encodeWord i).extractLsb' 16 16) ++ bytesOfHalf ((encodeWord i).extractLsb' 0 16) := h
  simp only [bytesOfHalf, List.cons_append, List.nil_append] at h'
  cases h'
  rw [halfOfBytes_extract, halfOfBytes_extract, Encoding.append_16_16, Encoding.decodeWord_eq_some_iff_encodeWord]
  exact ⟨Encoding.encode_opensTwoHalfwords i, rfl⟩

/-- The bytes that a map shows at the pc are those of the instruction. -/
abbrev ShowsInstr (s : State) (i : Instr) (map : MemoryMap) : Prop :=
  [s.byteAt map s.cpu.pc.toNat, s.byteAt map (s.cpu.pc.toNat + 1), s.byteAt map (s.cpu.pc.toNat + 2),
    s.byteAt map (s.cpu.pc.toNat + 3)] = encode i

/-- What is fetched at the pc, whatever the agenda: the instruction whose bytes every map admitted shows there. -/
theorem fetchInstr_shown {s : State} {i : Instr} (heven : s.cpu.pc.toNat % 2 = 0)
    (hchecks : ∀ k, k = 0 ∨ k = 2 → isXN (regionOf (s.cpu.pc.toNat + k)) = false ∧
      fetchWaits s (s.cpu.pc.toNat + k) = false ∧ ∀ map ∈ admitted s, populated map (s.cpu.pc.toNat + k) 2 = true)
    (hbytes : ∀ map ∈ admitted s, (∀ k, k < 4 → staleBytes s (place map (s.cpu.pc.toNat + k)) = []) ∧ ShowsInstr s i map) :
    ∃ n, (admitted s = [s.map] → n = s.draws) ∧ ∀ agenda,
      fetchInstr { s with agenda := agenda } = .next (some (i, { s with agenda := agenda, draws := n })) := by
  obtain ⟨hxn, hwaits, hp⟩ := hchecks 0 (.inl rfl)
  obtain ⟨hxn', hwaits', hp'⟩ := hchecks 2 (.inr rfl)
  have hpc : (s.cpu.pc + 2#32).toNat = s.cpu.pc.toNat + 2 := by
    have := lt_of_not_isXN hxn
    rw [BitVec.toNat_add]
    exact Nat.mod_eq_of_lt (by simp; omega)
  obtain ⟨map, hmap, n, hone, -, -, -, hfirst⟩ := Fetch.fetchHalf_by_map (s := s) heven hxn
  obtain ⟨map', hmap', n', hone', -, -, -, hsecond⟩ :=
    Fetch.fetchHalf_by_map (a := s.cpu.pc + 2#32) (s := { s with draws := n }) (Fetch.even_add_two heven) (by rwa [hpc])
  rw [hpc] at hsecond
  obtain ⟨hstale, hshown⟩ := hbytes map hmap
  obtain ⟨hstale', hshown'⟩ := hbytes map' hmap'
  have hfirst := hfirst (hp map hmap) hwaits (hstale 0 (by decide)) (hstale 1 (by decide))
  have hsecond := hsecond (hp' map' hmap') hwaits' (hstale' 2 (by decide)) (hstale' 3 (by decide))
  have hmixed : [s.byteAt map s.cpu.pc.toNat, s.byteAt map (s.cpu.pc.toNat + 1), s.byteAt map' (s.cpu.pc.toNat + 2),
      s.byteAt map' (s.cpu.pc.toNat + 3)] = encode i := by
    have := hshown.trans hshown'.symm
    simp only [List.cons.injEq] at this
    rw [← hshown', this.1, this.2.1]
  obtain ⟨hopens, hdecode⟩ := decodeWord_of_bytes hmixed
  refine ⟨n', fun h => (hone' h).trans (hone h), fun agenda => ?_⟩
  exact Refusals.fetchInstr_row (s := { s with agenda := agenda }) (hfirst agenda) hopens (hsecond agenda) hdecode

/-- Settles O53: the fetch answers the instruction, whatever the agenda, and the step executes it. -/
theorem stepRunsDecodedInstruction : Obligations.StepRunsDecodedInstruction := by
  intro s i hfin hhalves heven hchecks hbytes
  obtain ⟨n, hone, hfetch⟩ := fetchInstr_shown heven hchecks hbytes
  have hissue agenda : Machine.issue { s with agenda := agenda } = exec i { s with agenda := agenda, draws := n } :=
    Refusals.issue_of_fetched (s := { s with agenda := agenda }) hfin hhalves (hfetch agenda)
  refine ⟨n, hone, fun ha => ?_, hissue⟩
  have hstep : step s = andThen (Machine.issue s) settle := by simp only [step, ha, issueAndSettle]
  exact hstep.trans (congrArg (andThen · settle) (hissue s.agenda))

/-! ### A finished processor -/

/-- Settles O55: a finished processor issues nothing, so that only its settling is left of a step. -/
theorem finishedProcessorFetchesNothing : Obligations.FinishedProcessorFetchesNothing := by
  intro s h
  have hissue : ∀ s : State, s.cpu.finish = some s.cpu.pc → Machine.issue s = .next s := fun s h =>
    if_pos (by simp [Proc.finished, h])
  refine ⟨hissue s h, fun rest => hissue { s with agenda := rest } h, fun ha => ?_⟩
  simp [step, ha, issueAndSettle, hissue s h]

/-! ### The other processors -/

/-- What a step leaves of a processor that is not in focus. -/
def KeptByOthers (p q : Proc) : Prop :=
  q.regs = p.regs ∧ q.pc = p.pc ∧ q.seq = p.seq ∧ q.pool.length = p.pool.length ∧ q.dmbs = p.dmbs ∧
    q.ifetchEpoch = p.ifetchEpoch ∧ q.isbSeq = p.isbSeq ∧ q.seen = p.seen ∧ q.mapEpoch = p.mapEpoch ∧ q.id = p.id ∧
    q.exclObserved = p.exclObserved ∧ q.finish = p.finish

theorem KeptByOthers.refl (p : Proc) : KeptByOthers p p := by simp [KeptByOthers]

theorem KeptByOthers.trans {p q r : Proc} (h : KeptByOthers p q) (h' : KeptByOthers q r) : KeptByOthers p r := by
  unfold KeptByOthers at *
  simp_all

theorem KeptByOthers.observe (p : Proc) (who : Nat) (written : Nat × Nat) : KeptByOthers p (p.observe who written) := by
  simp [KeptByOthers]

/-- Each processor not in focus is replaced by one that keeps all that `KeptByOthers` names. -/
def OthersKept (s t : State) : Prop := ∃ f : Proc → Proc, t.others = s.others.map f ∧ ∀ p, KeptByOthers p (f p)

theorem OthersKept.of_eq {s t : State} (h : t.others = s.others) : OthersKept s t :=
  ⟨id, by rw [h, List.map_id], KeptByOthers.refl⟩

theorem OthersKept.trans {s s' t : State} (h : OthersKept s s') (h' : OthersKept s' t) : OthersKept s t := by
  obtain ⟨f, hf, hkept⟩ := h
  obtain ⟨g, hg, hkept'⟩ := h'
  exact ⟨g ∘ f, by rw [hg, hf, List.map_map], fun p => (hkept p).trans (hkept' (f p))⟩

theorem OthersMoved.kept {s t : State} (h : OthersMoved s t) : OthersKept s t := by
  rcases h with h | ⟨who, written, h⟩
  · exact .of_eq h
  · exact ⟨_, h, fun p => KeptByOthers.observe p who written⟩

theorem settleFor_othersKept {fuel : Nat} {s t : State} (h : settleFor fuel s = .next t) : OthersKept s t := by
  induction fuel generalizing s with
  | zero => cases h; exact .of_eq rfl
  | succ fuel ih =>
    unfold settleFor at h
    split at h
    · cases h; exact .of_eq rfl
    · rename_i k _
      obtain ⟨s', hc, h⟩ := andThen_eq_next.mp h
      exact (OthersMoved.kept (play_cases (m := .complete k) hc (by simp)).2).trans (ih h)

theorem step_othersKept {s t : State} (h : step s = .next t) (hfocus : ∀ k rest, s.agenda ≠ .focus k :: rest) :
    OthersKept s t := by
  unfold step at h
  split at h
  · obtain ⟨s', hi, h⟩ := andThen_eq_next.mp h
    exact (OthersMoved.kept (play_cases (m := .issue) hi (by simp)).2).trans (settleFor_othersKept h)
  · rename_i m rest ha
    exact OthersMoved.kept (s := { s with agenda := rest }) (play_cases h fun k hk => hfocus k rest (hk ▸ ha)).2

/-- Settles O56: a move leaves the other processors or lets them observe, and a focus swaps two. -/
theorem otherProcessorsKeepTheirState : Obligations.OtherProcessorsKeepTheirState := by
  refine ⟨fun s t h hfocus => ?_, fun s k p rest ha hk => ?_⟩
  · obtain ⟨f, hf, hkept⟩ := step_othersKept h hfocus
    refine ⟨by rw [hf, List.length_map], fun k p q hp hq => ?_⟩
    rw [hf, List.getElem?_map, hp, Option.map_some, Option.some.injEq] at hq
    exact hq ▸ hkept p
  · simp [step, ha, play, focusOn, hk]

/-! ### Reset -/

/-- Settles O58: nothing is outstanding, and the map at reset shows each byte in its own cell. -/
theorem resetMeetsInvariant : Obligations.ResetMeetsInvariant where
  memWf := by decide
  memInRange := by simp [State.reset]
  mapsInRange := by
    simp [State.maps, State.reset, Config.platform, MapInRange, Config.memoryMap]
  procs := by
    have hcpu : (Proc.launch 0).Inv State.reset := by
      constructor <;> simp [Proc.launch, State.reset]
    simpa [State.procs, State.reset] using hcpu
  masters := by simp [State.reset]

theorem memTypeOf_regionOf_eq_normal_iff {a : Nat} :
    memTypeOf (regionOf a) = .normal ↔ a < 0x40000000 ∨ (0x60000000 ≤ a ∧ a < 0xA0000000) := by
  unfold regionOf
  split_ifs <;> simp only [memTypeOf, reduceCtorEq, true_iff, false_iff] <;> omega

/-- What the map at reset puts at an address: in a Normal region plain storage in its own cell, and elsewhere nothing
(log 3). -/
theorem bankOf_memoryMap (a : Nat) : (bankOf Config.memoryMap a = none ∧ memTypeOf (regionOf a) ≠ .normal) ∨
    ∃ b, bankOf Config.memoryMap a = some b ∧ b.kind = .storage ∧ b.store = b.base ∧ b.base ≤ a ∧
      memTypeOf (regionOf a) = .normal := by
  rw [ne_eq, memTypeOf_regionOf_eq_normal_iff]
  cases h : bankOf Config.memoryMap a with
  | none =>
    simp only [bankOf, List.find?_eq_none, Config.memoryMap] at h
    simp at h
    exact .inl ⟨rfl, by omega⟩
  | some b =>
    have hmem := List.mem_of_find?_eq_some h
    have hin : b.base ≤ a ∧ a < b.base + b.size := by simpa using List.find?_some h
    simp only [Config.memoryMap, List.mem_cons, List.not_mem_nil, or_false] at hmem
    refine .inr ⟨b, rfl, ?_⟩
    rcases hmem with rfl | rfl | rfl <;> simp only [true_and] at hin ⊢ <;> omega

/-- Settles O60, a field at a time, and the map at an address by its bank. -/
theorem resetState : Obligations.ResetState := by
  refine ⟨by decide, by decide, rfl, ⟨rfl, rfl⟩, by decide, rfl, fun _ => rfl, rfl, rfl, fun a _ => ?_⟩
  change (bankAt Config.memoryMap a = _ ↔ _) ∧ place Config.memoryMap a = a
  rcases bankOf_memoryMap a with ⟨h, hr⟩ | ⟨b, h, hkind, hstore, hbase, hr⟩
  · simp [bankAt, place, h, hr]
  · simp [bankAt, place, h, hr, hkind, hstore, hbase]

end Sys2Proof.Proofs.WholeMachine
end

section
/-! PROOFS. Completing a transaction: reads, plain writes and Store-Exclusives (20_memory.md R59, R60, R91, 41_exclusive.md
R152, R153). -/

namespace Sys2Proof.Proofs.Completion

open Sys2Proof.Machine Sys2Proof.Statements Sys2Proof.Proofs.Frames

/-! ### Plain storage written -/

/-- `s` with the low bytes of `v` written by agent `who` at `a` in plain storage, as the map shows it, observed, and the
map switched where the write is one that does so (R60, R88, R91). -/
def stored (map : MemoryMap) (who a : Nat) (size : Size) (v : Word) (s : State) : State :=
  ((s.pokes map a (bytesOf size v)).observeWrite who (a, size.bytes)).switchMap a size v

section
variable {map : MemoryMap} {who a : Nat} {size : Size} {v : Word} {s : State}

theorem memWrite_stored {a : Word} (haligned : a.toNat % size.bytes = 0) (halias : inAlias a.toNat = false)
    (hplain : plainStorage map a.toNat size.bytes = true) :
    memWrite map who a size v s = .next (stored map who a.toNat size v s) := memWrite_plain haligned halias hplain

@[simp] theorem stored_cpu : (stored map who a size v s).cpu = s.cpu.observe who (a, size.bytes) := by simp [stored]
@[simp] theorem stored_others :
    (stored map who a size v s).others = s.others.map (Proc.observe who (a, size.bytes)) := by simp [stored]
@[simp] theorem stored_masters : (stored map who a size v s).masters = s.masters := by simp [stored]
@[simp] theorem stored_devices : (stored map who a size v s).devices = s.devices := by simp [stored]
@[simp] theorem stored_plat : (stored map who a size v s).plat = s.plat := by simp [stored]
@[simp] theorem stored_agenda : (stored map who a size v s).agenda = s.agenda := by simp [stored]
@[simp] theorem stored_draws : (stored map who a size v s).draws = s.draws := by simp [stored]
@[simp] theorem stored_mem : (stored map who a size v s).mem = (s.pokes map a (bytesOf size v)).mem := by simp [stored]
@[simp] theorem stored_history :
    (stored map who a size v s).history = (s.pokes map a (bytesOf size v)).history := by simp [stored]

/-- The bytes of memory that a write leaves (R53, R55), for a state that has the memory of `stored`. -/
theorem bytes_of_stored (hwf : s.mem.wf) {t : State} (ht : t.mem = (s.pokes map a (bytesOf size v)).mem) :
    BytesKeptBut map a size.bytes s t ∧ BytesWritten map a size.bytes v t := by
  refine ⟨fun c hc => ?_, fun hdistinct j hj => ?_⟩ <;> rw [ht]
  · exact State.pokes_read_of_ne hwf map a _ c (by simpa using hc)
  · exact State.pokes_bytesOf_read hwf v hdistinct hj

end

/-- A value read from plain storage is the bytes there, extended with zeros. -/
theorem isValueAt_valueAt (s : State) (map : MemoryMap) (a : Nat) (size : Size) :
    IsValueAt (valueAt (s.byteAt map) a size) s map a size.bytes :=
  ⟨fun j hj => valueAt_extract _ a size j hj, valueAt_lt _ a size⟩

/-! ### The processor after a completion -/

section
variable {p : Proc} {k : Nat} {u : Txn}

theorem settleTxn_done_regs (h : u.dest = none) (value : Option Word) :
    (p.settleTxn k u (.done value)).regs = p.regs := by
  simp [Proc.settleTxn, h]

theorem settleTxn_done_reg {r : Reg} (h : u.dest = some r) (v : Word) :
    (p.settleTxn k u (.done (some v))).reg r = v := by
  simp [Proc.settleTxn, h]

end

/-- The state of the processor in focus once its transaction `u` completed as `c` and left the state `s'`. -/
def settled (s : State) (k : Nat) (u : Txn) (c : Completion) (s' : State) : State :=
  { s' with cpu := (s'.cpu.settleTxn k u c).seeOwnWrite u (writtenSince s s') s'.history.length }

section
variable {s s' : State} {k : Nat} {u : Txn} {c : Completion}

/-- A transaction that may complete does so by a map that is admitted, as `completeTxn` says. -/
theorem completeAt_settled (hk : s.cpu.pool[k]? = some u) (hm : mayComplete s.plat s.cpu u = true) :
    ∃ map ∈ admitted s, ∃ n, Drawn s s.cpu.mapEpoch n ∧
      ((∃ map ∈ admitted s, u.permitted s.plat map = true) → u.permitted s.plat map = true) ∧
      ∀ c s', completeTxn map s.cpu.id u { s with draws := n } = .next (c, s') →
        completeAt k s = .next (settled s k u c s') := by
  obtain ⟨map, n, hmap, hpermitted, hle, hfixed, heq⟩ := completeAt_next hk hm
  exact ⟨map, hmap, n, ⟨hle, hfixed⟩, hpermitted, fun c s' h => by rw [heq, h]; rfl⟩

@[simp] theorem settled_mem : (settled s k u c s').mem = s'.mem := rfl
@[simp] theorem settled_others : (settled s k u c s').others = s'.others := rfl
@[simp] theorem settled_draws : (settled s k u c s').draws = s'.draws := rfl
@[simp] theorem settled_reg (r : Reg) : (settled s k u c s').cpu.reg r = (s'.cpu.settleTxn k u c).reg r := by
  simp [settled]
@[simp] theorem settled_regs : (settled s k u c s').cpu.regs = (s'.cpu.settleTxn k u c).regs := by simp [settled]
@[simp] theorem settled_pool : (settled s k u c s').cpu.pool = (s'.cpu.settleTxn k u c).pool := by simp [settled]

theorem settled_done_pool {v : Option Word} (hcpu : s'.cpu = s.cpu) :
    (settled s k u (.done v) s').cpu.pool = s.cpu.pool.eraseIdx k := by
  rw [settled_pool, (Proc.settleTxn_pool _ _ _ _).1, hcpu]

end

/-! ### Reads and plain writes -/

/-- A read of plain storage outside the aliases answers the value there and changes nothing. -/
theorem completeTxn_read {map : MemoryMap} {who : Nat} {u : Txn} {r : Reg} {s : State}
    (hop : u.op = .read (some r) ∧ plainStorage map u.addr.toNat u.size.bytes = true ∨
      u.op = .loadExcl r ∧ exclusiveAllowed map u.addr.toNat u.size.bytes = true)
    (haligned : u.addr.toNat % u.size.bytes = 0) (halias : inAlias u.addr.toNat = false) :
    completeTxn map who u s = .next (.done (some (valueAt (s.byteAt map) u.addr.toNat u.size)), s) := by
  rcases hop with ⟨hop, hplain⟩ | ⟨hop, hok⟩
  · simp [completeTxn, hop, memRead_plain haligned halias hplain]
  · simp [completeTxn, hop, exclusiveAccess, hok, memRead_plain haligned halias (plainStorage_of_exclusiveAllowed hok)]

/-- Settles O24: the value of the read goes to the register the transaction names. -/
theorem readCompletionWritesRegister : Obligations.ReadCompletionWritesRegister := by
  intro s k u r hk hop hm haligned halias
  obtain ⟨map, hmap, n, -, -, hnext⟩ := completeAt_settled hk hm
  have hread := completeTxn_read (who := s.cpu.id) (s := { s with draws := n })
    (hop.imp (And.imp_right (· map hmap)) (And.imp_right (· map hmap))) haligned halias
  have hdest : u.dest = some r := by rcases hop with ⟨hop, -⟩ | ⟨hop, -⟩ <;> simp [Txn.dest, hop]
  refine ⟨_, map, hmap, hnext _ _ hread, ?_, settled_done_pool rfl, rfl⟩
  rw [settled_reg, settleTxn_done_reg hdest]
  exact isValueAt_valueAt s map u.addr.toNat u.size

/-- A plain write to plain storage outside the aliases is stored. -/
theorem completeTxn_write {map : MemoryMap} {who : Nat} {u : Txn} {v : Word} {s : State} (hop : u.op = .write v)
    (haligned : u.addr.toNat % u.size.bytes = 0) (halias : inAlias u.addr.toNat = false)
    (hplain : plainStorage map u.addr.toNat u.size.bytes = true) :
    completeTxn map who u s = .next (.done none, stored map who u.addr.toNat u.size v s) := by
  simp [completeTxn, hop, halias, memWrite_stored haligned halias hplain]

/-- Settles O26: the write is stored, and no register is its destination. -/
theorem plainWriteCompletes : Obligations.PlainWriteCompletes := by
  intro s k u v hwf hk hop hm haligned halias hplain
  obtain ⟨map, hmap, n, -, -, hnext⟩ := completeAt_settled hk hm
  have hwrite := completeTxn_write (who := s.cpu.id) (s := { s with draws := n }) hop haligned halias (hplain map hmap)
  refine ⟨_, map, hmap, hnext _ _ hwrite, settled_done_pool (by simp), ?_,
    bytes_of_stored (s := { s with draws := n }) hwf (by simp)⟩
  rw [settled_regs, settleTxn_done_regs (by simp [Txn.dest, hop])]
  simp

/-- Settles O57: a bus master's must-precede relation is empty, and its write is stored. -/
theorem masterWriteCompletes : Obligations.MasterWriteCompletes := by
  intro s m k master u v hwf hmaster hk hop hhalves haligned halias hplain
  obtain ⟨hmap, -, n, -, -, hstate⟩ := chooseMap_cases (u.permitted s.plat) 0 s
  have hm : mayCompleteMaster master.pool u = true := by
    simpa [mayCompleteMaster, keepsPair, betweenHalves] using .inr hhalves
  have hwrite := completeTxn_write (who := master.id) (s := { s with draws := n }) hop haligned halias (hplain _ hmap)
  refine ⟨_, _, hmap, by simp only [masterComplete, hmaster, hk, hm, if_true, hstate, hwrite]; rfl, ?_, ?_, ?_,
    bytes_of_stored (s := { s with draws := n }) hwf (by simp)⟩
  · simp [Master.settleTxn]
  · simp [State.procs]
  · intro j p q hp hq
    have hprocs : (stored (chooseMap (u.permitted s.plat) 0 s).1 master.id u.addr.toNat u.size v { s with draws := n }).procs =
        s.procs.map (Proc.observe master.id (u.addr.toNat, u.size.bytes)) := by simp [State.procs]
    have hq : _ = some q := (congrArg (·[j]?) hprocs).symm.trans hq
    rw [List.getElem?_map, hp] at hq
    cases hq
    simp

/-! ### The outcome of a Store-Exclusive -/

section
variable {map : MemoryMap} {who : Nat} {u : Txn} {v : Word} {rd : Reg} {s : State}

/-- R153: with `intact` lost the status is 1, nothing is written and nothing is drawn. -/
theorem completeTxn_storeExcl_lost (hop : u.op = .storeExcl v rd false) :
    completeTxn map who u s = .next (.done (some 1#32), s) := by
  simp [completeTxn, hop, completeStoreExcl, statusWord]

/-- R153: with `intact` a drawn failure is status 1 and no write. -/
theorem completeTxn_storeExcl_fails (hop : u.op = .storeExcl v rd true) (hfails : Config.storeExclusiveFails s.draws = true) :
    completeTxn map who u s = .next (.done (some 1#32), { s with draws := s.draws + 1 }) := by
  simp [completeTxn, hop, completeStoreExcl, statusWord, hfails]

/-- R153: with `intact` a drawn success is status 0 and the write, where the map lets it. -/
theorem completeTxn_storeExcl_writes (hop : u.op = .storeExcl v rd true)
    (hfails : Config.storeExclusiveFails s.draws = false) (haligned : u.addr.toNat % u.size.bytes = 0)
    (hok : exclusiveAllowed map u.addr.toNat u.size.bytes = true) :
    completeTxn map who u s =
      .next (.done (some 0#32), stored map who u.addr.toNat u.size v { s with draws := s.draws + 1 }) := by
  have hwrite := memWrite_stored (who := who) (v := v) (s := { s with draws := s.draws + 1 }) haligned
    (inAlias_of_exclusiveAllowed hok (size_bytes_pos u.size)) (plainStorage_of_exclusiveAllowed hok)
  simp [completeTxn, hop, completeStoreExcl, statusWord, hfails, exclusiveAccess, hok, hwrite]

end

/-- Settles O27, by `intact` and then by the draw; the checks were made when it was issued. -/
theorem storeExclusiveOutcome : Obligations.StoreExclusiveOutcome := by
  intro s k u v rd intact h hk hop hm
  obtain ⟨map, hmap, n, ⟨hle, hfixed⟩, hpermitted, hnext⟩ := completeAt_settled hk hm
  have hsound := h.cpu.poolSound u (List.mem_of_getElem? hk)
  have hdest : u.dest = some rd := by simp [Txn.dest, hop]
  have hok : exclusiveAllowed map u.addr.toNat u.size.bytes = true := by
    obtain ⟨good, hgood, hok⟩ := hsound.permitted
    simpa [Txn.permitted, hop] using hpermitted ⟨good, State.lasting_admitted hgood, hok⟩
  have hstatus (v : Word) (s' : State) : (settled s k u (.done (some v)) s').cpu.reg rd = v := by
    rw [settled_reg, settleTxn_done_reg hdest]
  cases intact with
  | false =>
    refine ⟨_, n, hnext _ _ (completeTxn_storeExcl_lost hop), settled_done_pool rfl, hle, hfixed, ?_⟩
    rw [if_pos rfl]
    exact ⟨hstatus _ _, rfl, rfl⟩
  | true =>
    cases hfails : Config.storeExclusiveFails n with
    | true =>
      refine ⟨_, n, hnext _ _ (completeTxn_storeExcl_fails hop hfails), settled_done_pool rfl, hle, hfixed, ?_⟩
      rw [if_neg (by simp), if_pos hfails]
      exact ⟨rfl, hstatus _ _, rfl⟩
    | false =>
      refine ⟨_, n, hnext _ _ (completeTxn_storeExcl_writes hop hfails hsound.aligned hok),
        settled_done_pool (by simp), hle, hfixed, ?_⟩
      rw [if_neg (by simp), if_neg (by simp [hfails])]
      exact ⟨by simp, hstatus _ _, map, hmap, hok, bytes_of_stored (s := { s with draws := n + 1 }) h.memWf (by simp)⟩

/-! ### What a completion leaves unchanged -/

/-- Settles O23, by whether the completion wrote. -/
theorem completionFrame : Obligations.CompletionFrame := by
  intro s t k u h hk hc
  rcases completeAt_cases hc with rfl | ⟨u', c, s', map, n, hk', -, hmap, -, htxn, rfl⟩
  · exact ⟨fun _ _ => rfl, ⟨t.map, by simp [State.mapsAdmitted, State.lastingMaps], fun _ _ => rfl⟩,
      fun _ => ⟨rfl, rfl, rfl, rfl, rfl⟩, rfl, rfl, rfl, rfl, rfl, rfl, ⟨rfl, rfl, rfl⟩, rfl, rfl, rfl⟩
  · cases hk.symm.trans hk'
    have hcpu := completeTxn_own_cpu Quiet.draws htxn
    obtain ⟨hmasters, hplat, hagenda, -⟩ := completeTxn_leaves htxn
    obtain ⟨hid, hobs, hfin, hpc, htag, hseq, hepoch, hisb, -, hmapEpoch⟩ := Proc.settleTxn_frame s.cpu k u c
    have hbytes : BytesKeptBut map (u.footprint s.plat).1 (u.footprint s.plat).2 s s' ∧ (u.isWrite = false →
        s'.mem = s.mem ∧ s'.others = s.others ∧ s'.history = s.history ∧ s'.map = s.map ∧ s'.mapHistory = s.mapHistory) := by
      rcases completeTxn_cases Quiet.draws htxn with ⟨hq, -⟩ | ⟨hwrites, hw, -⟩
      · obtain ⟨-, hothers, -, hmem, hhist, -, -, hm, hmh⟩ := hq.fields
        exact ⟨fun _ _ => by rw [hmem], fun _ => ⟨hmem, hothers, hhist, hm, hmh⟩⟩
      · rw [Txn.footprint_eq_writes (h.cpu.poolSound u (List.mem_of_getElem? hk))]
        exact ⟨(hw.memory h.memWf).2, fun hno => by simp [hwrites] at hno⟩
    refine ⟨fun r hr => ?_, ⟨map, hmap, hbytes.1⟩, hbytes.2, ?_⟩
    · simpa [hcpu] using Proc.settleTxn_reg s.cpu k u c r hr
    · simp [hcpu, hid, hobs, hfin, hpc, htag, hseq, hepoch, hisb, hmapEpoch, hmasters, hplat, hagenda, SameIdentity]

/-! ### Observed writes -/

section
variable {who : Nat} {written : Nat × Nat} {p : Proc}

theorem observe_of_observed (h : who ≠ p.id ∧ who ∈ p.exclObserved) : p.observe who written =
    { p with tag := p.tag.map (Tag.observe written), pool := p.pool.map (Txn.observe written) } := by
  simp [Proc.observe, h]

theorem observe_of_not_observed (h : ¬ (who ≠ p.id ∧ who ∈ p.exclObserved)) : p.observe who written = p :=
  if_neg (by simpa using h)

theorem tag_observe (g : Tag) :
    g.observe written = if overlaps written (g.addr.toNat, g.size.bytes) then { g with intact := false } else g := by
  unfold Tag.observe
  split <;> simp_all

theorem txn_observe_overlapping {u : Txn} {w : Word} {rd : Reg} {intact : Bool} (hop : u.op = .storeExcl w rd intact)
    (hov : overlaps written (u.addr.toNat, u.size.bytes) = true) :
    u.observe written = { u with op := .storeExcl w rd false } := by
  simp [Txn.observe, hop, hov]

theorem txn_observe_of_not {u : Txn}
    (h : overlaps written (u.addr.toNat, u.size.bytes) = false ∨ ∀ w rd intact, u.op ≠ .storeExcl w rd intact) :
    u.observe written = u := by
  obtain ⟨seq, op, a, size⟩ := u
  cases op with
  | storeExcl v rd intact =>
    rcases h with h | h
    · simpa [Txn.observe] using fun _ => h
    · exact absurd rfl (h v rd intact)
  | _ => rfl

end

/-- Settles O28, by whether the processor observes the writer; a write observed touches `intact` alone. -/
theorem observedWriteEndsExclusive : Obligations.ObservedWriteEndsExclusive := by
  intro s t map who a size v f hw
  have hwrote : ∃ lo width, Wrote map who lo width s t ∧ f = (lo, width.bytes) := by
    rcases hw with ⟨hw, rfl⟩ | ⟨old, hw, rfl⟩
    · exact ⟨_, _, (memWrite_wrote (Quiet.refl s) hw).1, rfl⟩
    · exact ⟨_, _, directWrite_wrote (Quiet.refl s) hw, rfl⟩
  obtain ⟨lo, width, hwrote, rfl⟩ := hwrote
  obtain ⟨hcpu, hothers, -⟩ := hwrote.fields
  have hprocs : t.procs = s.procs.map (Proc.observe who (lo, width.bytes)) := by simp [State.procs, hcpu, hothers]
  refine ⟨by rw [hprocs, List.length_map], fun j p q hp hq => ?_⟩
  rw [hprocs, List.getElem?_map, hp] at hq
  cases hq
  split_ifs with hobs
  · rw [observe_of_observed hobs]
    refine ⟨rfl, by simp, by simp +contextual, fun g hg => by simp [hg, tag_observe], fun k u hk => ?_⟩
    simp only [List.getElem?_map, hk, Option.map_some, Option.some.injEq]
    exact ⟨fun w rd intact => txn_observe_overlapping, txn_observe_of_not⟩
  · exact observe_of_not_observed hobs

end Sys2Proof.Proofs.Completion
end

section
/-! PROOFS. A processor sees its own earlier writes after an ISB (20_memory.md R87, R93, 40_barriers.md R133). -/

namespace Sys2Proof.Proofs.OwnWrites

open Sys2Proof.Machine Sys2Proof.Statements Sys2Proof.Proofs.Frames Sys2Proof.Proofs.Completion

/-! ### Epochs only rise -/

section
variable {s : State} {p : Proc}

theorem epochOf_congr {p q : Proc} (hseen : q.seen = p.seen) (hepoch : q.ifetchEpoch = p.ifetchEpoch) (cell : Nat) :
    q.epochOf cell = p.epochOf cell := by
  unfold Proc.epochOf
  rw [hseen, hepoch]

/-- An epoch is a moment that has been. -/
theorem epochOf_le_history (h : p.Inv s) (cell : Nat) : p.epochOf cell ≤ s.history.length := by
  unfold Proc.epochOf
  split
  · exact h.epochPast
  · rename_i c hc
    exact max_le h.epochPast (h.seenPast c (List.mem_of_find?_eq_some hc))

theorem epochOf_le_seeOwnWrite {u : Txn} {written : List Host.Cell} {now cell : Nat} (h : p.epochOf cell ≤ now) :
    p.epochOf cell ≤ (p.seeOwnWrite u written now).epochOf cell := by
  by_cases hu : u.seq < p.isbSeq
  · by_cases hc : ∃ c ∈ written, c.1 = cell
    · obtain ⟨c, hc, rfl⟩ := hc
      exact h.trans (Proc.le_epochOf_seeOwnWrite hu hc)
    · have hnone : (written.map fun c => (c.1, now)).find? (fun c => c.1 == cell) = none := by
        simpa [List.find?_eq_none] using fun a b hab e => hc ⟨(a, b), hab, e⟩
      simp only [Proc.seeOwnWrite, if_pos hu, Proc.epochOf, List.find?_append, hnone, Option.none_or]
      exact le_rfl
  · simp only [Proc.seeOwnWrite, if_neg hu]
    exact le_rfl

/-- No move of the processor moves back what a fetch of it sees. -/
theorem CpuMoved.epochOf_le (h : s.cpu.Inv s) {m : Move} (hm : CpuMoved s m p) (cell : Nat) :
    s.cpu.epochOf cell ≤ p.epochOf cell := by
  cases hm with
  | kept => exact le_rfl
  | observed => rw [Proc.observe_epochOf]
  | executed i update n hr =>
    cases hr with
    | isb => exact epochOf_le_history h cell
    | dmb => exact (epochOf_congr (by simp) (by simp) cell).ge
    | dsb => exact le_rfl
    | load => exact le_rfl
    | store => exact le_rfl
  | issued => exact le_rfl
  | completed _ k u c written now _ hnow =>
    obtain ⟨-, -, -, -, -, -, hepoch, -, hseen, -⟩ := Proc.settleTxn_frame s.cpu k u c
    have hsettled := epochOf_congr hseen hepoch cell
    rw [← hsettled]
    exact epochOf_le_seeOwnWrite (hsettled ▸ (epochOf_le_history h cell).trans hnow)

end

/-! ### A completed own write -/

/-- Once an own write from before the latest ISB has completed, nothing older is fetched at the cells it wrote. -/
theorem staleBytes_of_writtenSince {s t : State} {k : Nat} {u : Txn} (hk : s.cpu.pool[k]? = some u)
    (hseq : u.seq < s.cpu.isbSeq) (hc : completeAt k s = .next t) {c : Host.Cell} (hcell : c ∈ writtenSince s t) :
    staleBytes t c.1 = [] := by
  rcases completeAt_cases hc with rfl | ⟨u', c', s', map, n, hk', -, -, -, htxn, rfl⟩
  · simp [writtenSince] at hcell
  · cases hk.symm.trans hk'
    have hisb : u.seq < (s'.cpu.settleTxn k u c').isbSeq := by
      rw [completeTxn_own_cpu Quiet.draws htxn, (Proc.settleTxn_frame s.cpu k u c').2.2.2.2.2.2.2.1]
      exact hseq
    exact staleBytes_eq_nil (Proc.le_epochOf_seeOwnWrite hisb hcell)

/-- A plain write that completes outside the aliases is aligned. -/
theorem aligned_of_completeTxn_write {map : MemoryMap} {who : Nat} {u : Txn} {v : Word} {s : State} {r}
    (hop : u.op = .write v) (halias : inAlias u.addr.toNat = false) (h : completeTxn map who u s = .next r) :
    u.addr.toNat % u.size.bytes = 0 := by
  simp only [completeTxn, hop, halias, Bool.false_eq_true, if_false] at h
  obtain ⟨s', hw, -⟩ := andThen_eq_next.mp h
  obtain ⟨_, hcheck, -⟩ := andThen_eq_next.mp hw
  exact (checkAccess_eq_next.mp hcheck).1

/-- The cells that a stored value went to are among those written. -/
theorem mem_writtenSince_stored {map : MemoryMap} {who a n : Nat} {size : Size} {v : Word} {s t : State}
    (ht : t.history = (stored map who a size v { s with draws := n }).history) {j : Nat} (hj : j < size.bytes) :
    ∃ c ∈ writtenSince s t, c.1 = place map (a + j) := by
  obtain ⟨w, hw, hcells⟩ := State.pokes_history { s with draws := n } map a (bytesOf size v)
  have hwritten : writtenSince s t = w := by simp [writtenSince, ht, hw]
  rw [hwritten]
  exact hcells j (by simpa using hj)

/-- Settles O51: the completion puts the cells it wrote on record, and no move lowers an epoch. -/
theorem ownCodeWriteSeenAfterIsb : Obligations.OwnCodeWriteSeenAfterIsb := by
  refine ⟨fun s t k u hk hseq hc => ⟨fun c => staleBytes_of_writtenSince hk hseq hc, fun v hwf hop hm halias hplain => ?_⟩,
    fun m s t cell h hp hm => CpuMoved.epochOf_le h.cpu (play_cases hp hm).1 cell⟩
  obtain ⟨map, n, hmap, -, -, -, heq⟩ := completeAt_next hk hm
  obtain ⟨r, hr, ht⟩ := andThen_eq_next.mp (heq.symm.trans hc)
  have haligned := aligned_of_completeTxn_write hop halias hr
  rw [completeTxn_write hop haligned halias (hplain map hmap)] at hr
  cases hr
  cases ht
  refine ⟨map, hmap, (bytes_of_stored (s := { s with draws := n }) hwf (by simp)).2, fun j hj => ?_⟩
  obtain ⟨c, hcell, hplace⟩ := mem_writtenSince_stored rfl hj
  exact hplace ▸ staleBytes_of_writtenSince hk hseq hc hcell

end Sys2Proof.Proofs.OwnWrites
end

section
/-! PROOFS. Memory, devices and the refusals of a plain access (20_memory.md R55 to R60, R73, R77). -/

namespace Sys2Proof.Proofs.Accesses

open Sys2Proof.Machine Sys2Proof.Statements Sys2Proof.Proofs.Completion

/-! ### The canonical form -/

theorem read_cons_self (k : Nat) (v : Byte) (m : Memory) : Memory.read ((k, v) :: m) k = v := by simp [Memory.read]

theorem read_cons_of_ne {k a : Nat} (h : a ≠ k) (v : Byte) (m : Memory) : Memory.read ((k, v) :: m) a = m.read a := by
  simp [Memory.read, h]

/-- What is left of a canonical memory is canonical, and its cells lie above the first. -/
theorem wf_cons {k : Nat} {v : Byte} {m : Memory} (h : Memory.wf ((k, v) :: m)) :
    m.wf ∧ (∀ c ∈ m, k < c.1) ∧ v ≠ unlistedByte := by
  obtain ⟨hsorted, hlisted⟩ := h
  obtain ⟨hlow, hsorted⟩ := List.pairwise_cons.mp hsorted
  exact ⟨⟨hsorted, fun c hc => hlisted c (List.mem_cons_of_mem _ hc)⟩, hlow, hlisted _ List.mem_cons_self⟩

/-- A canonical memory reads something at its first cell that a memory of higher cells does not. -/
theorem read_ne_of_lt {k : Nat} {v : Byte} {m m' : Memory} (h : Memory.wf ((k, v) :: m)) (h' : ∀ c ∈ m', k < c.1) :
    Memory.read ((k, v) :: m) k ≠ m'.read k := by
  rw [read_cons_self, Memory.read_of_lt m' k h']
  exact (wf_cons h).2.2

/-- Settles O36, by induction: the first cells agree, for one that came first alone would be read. -/
theorem canonicalMemoryDetermined : Obligations.CanonicalMemoryDetermined := by
  intro m
  induction m with
  | nil =>
    rintro (_ | ⟨⟨k, v⟩, m'⟩) - h' hread
    · rfl
    · exact absurd (hread k).symm (read_ne_of_lt h' (by simp))
  | cons c m ih =>
    obtain ⟨k, v⟩ := c
    rintro (_ | ⟨⟨k', v'⟩, m'⟩) h h' hread
    · exact absurd (hread k) (read_ne_of_lt h (by simp))
    · obtain ⟨hwf, hlow, -⟩ := wf_cons h
      obtain ⟨hwf', hlow', -⟩ := wf_cons h'
      have hk : k = k' := by
        rcases Nat.lt_trichotomy k k' with hlt | heq | hlt
        · exact absurd (hread k) (read_ne_of_lt h (by simpa using ⟨hlt, fun a b hab => hlt.trans (hlow' (a, b) hab)⟩))
        · exact heq
        · exact absurd (hread k').symm
            (read_ne_of_lt h' (by simpa using ⟨hlt, fun a b hab => hlt.trans (hlow (a, b) hab)⟩))
      subst hk
      have hv : v = v' := by simpa only [read_cons_self] using hread k
      subst hv
      rw [ih m' hwf hwf' fun a => ?_]
      by_cases ha : a = k
      · rw [ha, Memory.read_of_lt m k hlow, Memory.read_of_lt m' k hlow']
      · simpa only [read_cons_of_ne ha] using hread a

/-! ### A read after a write -/

/-- A value read where the bytes are those of `v` from its `j`-th on is that part of `v`, extended with zeros. -/
theorem valueAt_part {byte : Nat → Byte} {v : Word} {a j : Nat} {size : Size}
    (h : ∀ i, i < size.bytes → byte (a + i) = v.extractLsb' (8 * (j + i)) 8) :
    valueAt byte a size = BitVec.ofNat 32 (v.toNat / 2 ^ (8 * j) % 2 ^ (8 * size.bytes)) := by
  have hshift : v.toNat / 2 ^ (8 * j) = (v >>> (8 * j)).toNat := by
    rw [BitVec.toNat_ushiftRight, Nat.shiftRight_eq_div_pow]
  rw [hshift, ← keep_eq]
  apply BitVec.eq_of_getLsbD_eq
  intro b _
  rw [keep_getLsbD]
  by_cases hb : b < 8 * size.bytes
  · rw [valueAt_getLsbD _ _ _ _ hb, h _ (by omega), BitVec.getLsbD_extractLsb', BitVec.getLsbD_ushiftRight,
      show 8 * (j + b / 8) + b % 8 = 8 * j + b by omega]
    simp [hb, Nat.mod_lt]
  · rw [valueAt_getLsbD_of_ge _ _ _ _ (by omega)]
    simp [hb]

theorem plainStorage_part {map : MemoryMap} {a n j m : Nat} (h : plainStorage map a n = true) (hj : j + m ≤ n) :
    plainStorage map (a + j) m = true := by
  simp only [plainStorage, List.all_eq_true, List.mem_range] at h ⊢
  exact fun k hk => by simpa [Nat.add_assoc] using h (j + k) (by omega)

/-- Settles O35: the write is stored, so that each byte read is one of the value written. -/
theorem readAfterWrite : Obligations.ReadAfterWrite := by
  intro s t map who a v size hwf halias hplain hdistinct hw
  obtain ⟨_, hcheck, -⟩ := andThen_eq_next.mp hw
  have haligned := (checkAccess_eq_next.mp hcheck).1
  rw [memWrite_stored haligned halias hplain] at hw
  cases hw
  have hbytes := (bytes_of_stored (v := v) (map := map) (a := a.toNat) (size := size) hwf
    (stored_mem (s := s) (who := who))).2 hdistinct
  have hread (j : Nat) (part : Size) (hj : j + part.bytes ≤ size.bytes) (hpart : (a + BitVec.ofNat 32 j).toNat = a.toNat + j)
      (haligned : (a.toNat + j) % part.bytes = 0) (halias : inAlias (a.toNat + j) = false) :
      memRead map (a + BitVec.ofNat 32 j) part (stored map who a.toNat size v s) =
        .next (BitVec.ofNat 32 (v.toNat / 2 ^ (8 * j) % 2 ^ (8 * part.bytes)), stored map who a.toNat size v s) := by
    rw [← hpart] at haligned halias
    rw [memRead_plain haligned halias (by rw [hpart]; exact plainStorage_part hplain hj), hpart]
    rw [valueAt_part (v := v) (j := j) fun i hi => ?_]
    rw [Nat.add_assoc]
    exact hbytes (j + i) (by omega)
  have hin : ∀ j, j < 4 → a.toNat % 4 = 0 → (a + BitVec.ofNat 32 j).toNat = a.toNat + j ∧ inAlias (a.toNat + j) = false := by
    intro j hj hal
    have := a.isLt
    refine ⟨by rw [BitVec.toNat_add, BitVec.toNat_ofNat]; omega, ?_⟩
    rw [Bool.eq_false_iff, ne_eq, Exclusives.inAlias_iff] at halias ⊢
    omega
  refine ⟨by simpa using hread 0 size (by simp) (by simp) (by simpa using haligned) (by simpa using halias), ?_⟩
  rintro rfl j hj
  obtain ⟨hadd, halias'⟩ := hin j hj haligned
  exact ⟨hread j .byte (by simp only [Size.bytes]; omega) hadd (by simp [Size.bytes, Nat.mod_one]) halias',
    fun heven => hread j .half (by simp only [Size.bytes]; omega) hadd (by simp only [Size.bytes] at *; omega) halias'⟩

/-! ### Devices -/

section
variable {map : MemoryMap} {a : Nat} {size : Size} {s : State} (hp : populated map a size.bytes = true)
  (hdev : servedByDevice map a size.bytes = true)
include hp hdev

/-- The read of a location that a device serves is answered by it, and goes on its record (R59). -/
theorem directRead_device :
    directRead map a size s = .next (size.keep (Config.deviceRead s.devices (BitVec.ofNat 32 a) size),
      { s with devices := ⟨BitVec.ofNat 32 a, size, none⟩ :: s.devices }) := by
  simp [directRead, hp, hdev]

/-- The write of a location that a device serves reaches it and changes no byte of memory (R60). -/
theorem directWrite_device (who : Nat) (v : Word) :
    ∃ t, directWrite map who a size v s = .next t ∧ t.mem = s.mem ∧
      t.devices = ⟨BitVec.ofNat 32 a, size, some (size.keep v)⟩ :: s.devices ∧ 
      t.cpu = s.cpu.observe who (a, size.bytes) := by
  simp [directWrite, hp, hdev]

end

/-- A populated location outside the Normal regions that is not plain storage is a device's (R59, log 31). -/
theorem servedByDevice_of_not_plain {map : MemoryMap} {a n : Nat} (hr : memTypeOf (regionOf a) ≠ .normal)
    (hplain : plainStorage map a n = false) : servedByDevice map a n = true := by
  simp [servedByDevice, hr, hplain]

/-- Settles O37: outside the aliases the location is the address itself. -/
theorem deviceAccessReachesDevice : Obligations.DeviceAccessReachesDevice := by
  intro s map who a v size haligned halias hp hr hplain
  have hdev := servedByDevice_of_not_plain hr hplain
  have hcheck := checkAccess_next haligned (by simp [halias])
  obtain ⟨t, ht, hmem, hdevices, -⟩ := directWrite_device (s := s) hp hdev who v
  rw [BitVec.ofNat_toNat, BitVec.setWidth_eq, keep_eq] at hdevices
  refine ⟨?_, t, by simp [memWrite, hcheck, halias, ht], hdevices, hmem⟩
  simp [memRead, hcheck, halias, directRead_device hp hdev, ← keep_eq]

/-! ### Refusals -/

theorem directRead_unpopulated {map : MemoryMap} {a : Nat} {size : Size} (s : State)
    (h : populated map a size.bytes = false) : directRead map a size s = .refused (.unpopulated (BitVec.ofNat 32 a)) := by
  simp [directRead, h]

theorem directWrite_unpopulated {map : MemoryMap} {who a : Nat} {size : Size} {v : Word} (s : State)
    (h : populated map a size.bytes = false) :
    directWrite map who a size v s = .refused (.unpopulated (BitVec.ofNat 32 a)) := by
  simp [directWrite, h]

theorem checkAccess_misaligned {a : Word} {size : Size} (h : a.toNat % size.bytes ≠ 0) :
    checkAccess a size = .refused (.misalignedPlainAccess a) := if_pos h

theorem checkAccess_narrowAlias {a : Word} {size : Size} (haligned : a.toNat % size.bytes = 0)
    (halias : inAlias a.toNat = true) (hsize : size ≠ .word) : checkAccess a size = .refused (.nonWordAlias a) := by
  simp [checkAccess, haligned, halias, hsize]

/-- What refuses a check refuses a read and a write. -/
theorem access_refused {map : MemoryMap} {who : Nat} {a v : Word} {size : Size} {s : State} {r : Refusal}
    (h : checkAccess a size = .refused r) :
    memRead map a size s = .refused r ∧ memWrite map who a size v s = .refused r := by
  simp [memRead, memWrite, h]

/-- The location of an alias word, by its region (R69). -/
theorem aliasLocation_eq {plat : Platform} {a b k lo n : Nat} (halias : inAlias a = true) (ht : target a = (b, k))
    (hsram : inSramAlias a = true → lo = b ∧ n = 1)
    (hper : inPeripheralAlias a = true → lo = b - b % plat.bbRmwWidth.bytes ∧ n = plat.bbRmwWidth.bytes) :
    (aliasLocation plat a).1 = lo ∧ (aliasLocation plat a).2.bytes = n := by
  simp only [aliasLocation, ht]
  split_ifs with hs
  · exact ⟨(hsram hs).1.symm, (hsram hs).2.symm⟩
  · obtain ⟨h1, h2⟩ := hper (by simpa [inAlias, hs] using halias)
    exact ⟨h1.symm, h2.symm⟩

/-- Settles O38, a check at a time. -/
theorem plainAccessRefusals : Obligations.PlainAccessRefusals := by
  intro s map who a v size
  refine ⟨fun h => access_refused (checkAccess_misaligned h),
    fun haligned halias hsize => access_refused (checkAccess_narrowAlias haligned halias hsize),
    fun haligned halias hp => ?_, fun b k lo n haligned halias ht hsram hper hp => ?_⟩
  · have hcheck := checkAccess_next haligned (by simp [halias])
    simp [memRead, memWrite, hcheck, halias, directRead_unpopulated s hp, directWrite_unpopulated s hp]
  · have hcheck : checkAccess a .word = .next () := checkAccess_next haligned fun _ => rfl
    obtain ⟨rfl, rfl⟩ := aliasLocation_eq halias ht hsram hper
    simp [memRead, memWrite, hcheck, halias, aliasRead, aliasWriteBack, directRead_unpopulated s hp,
      directWrite_unpopulated s hp]

end Sys2Proof.Proofs.Accesses
end

section
/-! PROOFS. The bit-band aliases (20_memory.md R62 to R69). -/

namespace Sys2Proof.Proofs.BitBanding

open Sys2Proof.Machine Sys2Proof.Statements Sys2Proof.Proofs.Completion Sys2Proof.Proofs.Accesses

/-! ### The alias map -/

theorem aliasWordOf_sram {j : Nat} (hj : j ≤ 0xFFFFF) (k : Nat) :
    aliasWordOf (0x20000000 + j) k = 0x22000000 + (j * 32 + k * 4) := by
  have h : inSramBitBand (0x20000000 + j) = true := by simp only [inSramBitBand, decide_eq_true_eq]; omega
  rw [aliasWordOf, if_pos h, bitWordAddr, Nat.add_sub_cancel_left]

theorem aliasWordOf_peripheral (j k : Nat) :
    aliasWordOf (0x40000000 + j) k = 0x42000000 + (j * 32 + k * 4) := by
  have h : ¬ inSramBitBand (0x40000000 + j) = true := by simp only [inSramBitBand, decide_eq_true_eq]; omega
  rw [aliasWordOf, if_neg h, bitWordAddr, Nat.add_sub_cancel_left]

/-- Settles O41, by the formula of either region. -/
theorem aliasWordFormula : Obligations.AliasWordFormula := by
  intro j k hj hk
  rw [aliasWordOf_sram hj, aliasWordOf_peripheral]
  omega

theorem target_sram {a : Nat} (h : inSramAlias a = true) :
    target a = (0x20000000 + (a - 0x22000000) / 32, (a - 0x22000000) / 4 % 8) := if_pos h

theorem target_peripheral {a : Nat} (h : inPeripheralAlias a = true) :
    target a = (0x40000000 + (a - 0x42000000) / 32, (a - 0x42000000) / 4 % 8) := by
  have hs : ¬ inSramAlias a = true := by
    simp only [inSramAlias, inPeripheralAlias, decide_eq_true_eq] at h ⊢
    omega
  exact if_neg hs

theorem inSramBitBand_iff {a : Nat} : inSramBitBand a = true ↔ ∃ j, j ≤ 0xFFFFF ∧ a = 0x20000000 + j := by
  simp only [inSramBitBand, decide_eq_true_eq]
  exact ⟨fun h => ⟨a - 0x20000000, by omega⟩, fun ⟨j, h⟩ => by omega⟩

theorem inPeripheralBitBand_iff {a : Nat} : inPeripheralBitBand a = true ↔ ∃ j, j ≤ 0xFFFFF ∧ a = 0x40000000 + j := by
  simp only [inPeripheralBitBand, decide_eq_true_eq]
  exact ⟨fun h => ⟨a - 0x40000000, by omega⟩, fun ⟨j, h⟩ => by omega⟩

/-- Settles O42, in either region by its formula. -/
theorem aliasTargetInverse : Obligations.AliasTargetInverse := by
  refine ⟨fun b k hb hk => ?_, fun a ha h4 => ?_⟩
  · rcases hb with hb | hb
    · obtain ⟨j, hj, rfl⟩ := inSramBitBand_iff.mp hb
      rw [aliasWordOf_sram hj, target_sram (by simp only [inSramAlias, decide_eq_true_eq]; omega)]
      simp only [Prod.mk.injEq]
      omega
    · obtain ⟨j, hj, rfl⟩ := inPeripheralBitBand_iff.mp hb
      rw [aliasWordOf_peripheral, target_peripheral (by simp only [inPeripheralAlias, decide_eq_true_eq]; omega)]
      simp only [Prod.mk.injEq]
      omega
  · rcases Bool.or_eq_true_iff.mp ha with hs | hp
    · have hrange := hs
      simp only [inSramAlias, decide_eq_true_eq] at hrange
      rw [target_sram hs, inSramBitBand_iff, aliasWordOf_sram (by omega)]
      exact ⟨.inl ⟨_, by omega, rfl⟩, by omega, by simp only; omega⟩
    · have hrange := hp
      simp only [inPeripheralAlias, decide_eq_true_eq] at hrange
      rw [target_peripheral hp, inPeripheralBitBand_iff, aliasWordOf_peripheral]
      exact ⟨.inr ⟨_, by omega, rfl⟩, by omega, by simp only; omega⟩

/-! ### Reading an alias word -/

section
variable {plat : Platform} {a : Nat} {b k lo : Nat}

/-- The location of a peripheral alias word, and where its bit lies there (R69). -/
theorem aliasLocation_peripheral (h : inPeripheralAlias a = true) (ht : target a = (b, k))
    (hlo : lo = b - b % plat.bbRmwWidth.bytes) :
    aliasLocation plat a = (lo, plat.bbRmwWidth) ∧ aliasBit plat a = 8 * (b - lo) + k := by
  have hs : ¬ inSramAlias a = true := by
    simp only [inSramAlias, inPeripheralAlias, decide_eq_true_eq] at h ⊢
    omega
  have hloc : aliasLocation plat a = (lo, plat.bbRmwWidth) := by
    rw [aliasLocation, ht, if_neg hs, hlo]
  exact ⟨hloc, by rw [aliasBit, hloc, ht]⟩

/-- What a peripheral alias word reaches lies in the Peripheral region (R63). -/
theorem memType_aliasLocation_peripheral (h : inPeripheralAlias a = true) (ht : target a = (b, k))
    (hlo : lo = b - b % plat.bbRmwWidth.bytes) : memTypeOf (regionOf lo) ≠ .normal := by
  have hrange := h
  simp only [inPeripheralAlias, decide_eq_true_eq] at hrange
  rw [target_peripheral h, Prod.mk.injEq] at ht
  have hb := ht.1
  have hlo' : 0x40000000 ≤ lo ∧ lo ≤ 0x5FFFFFFF := by
    cases hw : plat.bbRmwWidth <;> simp only [hw, Size.bytes] at hlo <;> omega
  rw [MemoryMap.regionOf_eq_peripheral hlo'.1 hlo'.2]
  decide

end

section
variable {s : State} {map : MemoryMap} {a : Word} (halias : inAlias a.toNat = true) (haligned : a.toNat % 4 = 0)
include halias haligned

theorem memRead_alias {r : Word × State} (h : aliasRead map a s = .next r) :
    memRead map a .word s = .next (if r.1.getLsbD (aliasBit s.plat a.toNat) then 1#32 else 0#32, r.2) := by
  have hcheck : checkAccess a .word = .next () := checkAccess_next haligned fun _ => rfl
  simp only [memRead, hcheck, andThen_next, halias, if_true, h]

theorem memWrite_alias (who : Nat) (v : Word) {r : Word × State} (h : aliasRead map a s = .next r) :
    memWrite map who a .word v s = aliasWriteBack map who a r.1 v r.2 := by
  have hcheck : checkAccess a .word = .next () := checkAccess_next haligned fun _ => rfl
  simp only [memWrite, hcheck, andThen_next, halias, if_true, h]

end

/-- The target bit of the value at an alias word's location is that of the target byte (R65). -/
theorem valueAt_aliasBit (byte : Nat → Byte) (plat : Platform) (a : Nat) :
    (valueAt byte (aliasLocation plat a).1 (aliasLocation plat a).2).getLsbD (aliasBit plat a) =
      (byte (target a).1).getLsbD (target a).2 := by
  obtain ⟨hle, -, -, hdiv, hmod, hlt⟩ := aliasBit_facts plat a
  rw [valueAt_getLsbD _ _ _ _ hlt, hdiv, hmod, Nat.add_sub_cancel' hle]

/-- Settles O43, for storage by the target byte and for a device by its answer. -/
theorem aliasReadReturnsBit : Obligations.AliasReadReturnsBit := by
  refine ⟨fun s map a halias haligned hplain => ?_, fun s map a b k lo hper haligned ht hlo hp hplain => ?_⟩
  · rw [memRead_alias halias haligned (directRead_plain hplain), valueAt_aliasBit]
    rfl
  · obtain ⟨hloc, hbit⟩ := aliasLocation_peripheral (plat := s.plat) hper ht hlo
    have hdev := servedByDevice_of_not_plain (memType_aliasLocation_peripheral hper ht hlo) hplain
    have hread : aliasRead map a s = _ := (by rw [aliasRead, hloc] : _ = directRead map lo s.plat.bbRmwWidth s).trans
      (directRead_device hp hdev)
    rw [memRead_alias (by simp [inAlias, hper]) haligned hread, hbit]

/-! ### Writing an alias word -/

section
variable {plat : Platform} {a : Nat} {old v : Word}

/-- The value that the write back of an alias word carries: what was read with the target bit replaced (R68). -/
theorem replaceBit_aliasBit_getLsbD {j : Nat} (hj : j < 32) :
    (replaceBit old (aliasBit plat a) v).getLsbD j = if j = aliasBit plat a then v.getLsbD 0 else old.getLsbD j := by
  have hbits := size_bits_le (aliasLocation plat a).2
  have hbit := (aliasBit_facts plat a).2.2.2.2.2
  exact replaceBit_getLsbD _ _ _ _ (by omega) hj

/-- The bits that a write back leaves at the location: those read, with the target bit replaced. -/
theorem writtenBack_getLsbD {map : MemoryMap} {t : State}
    (h : BytesWritten map (aliasLocation plat a).1 (aliasLocation plat a).2.bytes (replaceBit old (aliasBit plat a) v) t)
    (hdistinct : DistinctPlaces map (aliasLocation plat a).1 (aliasLocation plat a).2.bytes) {j : Nat}
    (hj : j < 8 * (aliasLocation plat a).2.bytes) :
    (t.mem.read (place map ((aliasLocation plat a).1 + j / 8))).getLsbD (j % 8) =
      if j = aliasBit plat a then v.getLsbD 0 else old.getLsbD j := by
  have hbits := size_bits_le (aliasLocation plat a).2
  rw [h hdistinct (j / 8) (by omega), BitVec.getLsbD_extractLsb', show 8 * (j / 8) + j % 8 = j by omega,
    replaceBit_aliasBit_getLsbD (by omega)]
  simp [Nat.mod_lt]

end

theorem aliasWriteBack_stored {map : MemoryMap} {who : Nat} {a old v : Word} {s : State}
    (hplain : plainStorage map (aliasLocation s.plat a.toNat).1 (aliasLocation s.plat a.toNat).2.bytes = true) :
    aliasWriteBack map who a old v s = .next (stored map who (aliasLocation s.plat a.toNat).1
      (aliasLocation s.plat a.toNat).2 (replaceBit old (aliasBit s.plat a.toNat) v) s) := directWrite_plain hplain

section
variable {s : State} {map : MemoryMap} {a v : Word}
  (hplain : plainStorage map (aliasLocation s.plat a.toNat).1 (aliasLocation s.plat a.toNat).2.bytes = true)
include hplain

/-- The bytes that an alias write to plain storage leaves at its location, and that it leaves all others. -/
theorem memWrite_alias_plain (hwf : s.mem.wf) (halias : inAlias a.toNat = true) (haligned : a.toNat % 4 = 0)
    (who : Nat) : ∃ t, memWrite map who a .word v s = .next t ∧
      BytesKeptBut map (aliasLocation s.plat a.toNat).1 (aliasLocation s.plat a.toNat).2.bytes s t ∧
      BytesWritten map (aliasLocation s.plat a.toNat).1 (aliasLocation s.plat a.toNat).2.bytes
        (replaceBit (valueAt (s.byteAt map) (aliasLocation s.plat a.toNat).1 (aliasLocation s.plat a.toNat).2)
          (aliasBit s.plat a.toNat) v) t :=
  ⟨_, (memWrite_alias halias haligned who v (directRead_plain hplain)).trans (aliasWriteBack_stored hplain),
    bytes_of_stored hwf stored_mem⟩

end

/-- Writing the location's own value back with the target bit replaced changes that bit of the target byte alone. -/
theorem byte_writtenBack {s t : State} {map : MemoryMap} {plat : Platform} {a : Nat} {v : Word}
    (hwritten : BytesWritten map (aliasLocation plat a).1 (aliasLocation plat a).2.bytes
      (replaceBit (valueAt (s.byteAt map) (aliasLocation plat a).1 (aliasLocation plat a).2) (aliasBit plat a) v) t)
    (hdistinct : DistinctPlaces map (aliasLocation plat a).1 (aliasLocation plat a).2.bytes) {i j : Nat}
    (hi : i < (aliasLocation plat a).2.bytes) (hj : j < 8) :
    (t.mem.read (place map ((aliasLocation plat a).1 + i))).getLsbD j =
      if (aliasLocation plat a).1 + i = (target a).1 ∧ j = (target a).2 then v.getLsbD 0
      else (s.mem.read (place map ((aliasLocation plat a).1 + i))).getLsbD j := by
  obtain ⟨hle, -, hk, hdiv, hmod, -⟩ := aliasBit_facts plat a
  have hbits := writtenBack_getLsbD hwritten hdistinct (j := 8 * i + j) (by omega)
  have hiff : 8 * i + j = aliasBit plat a ↔ (aliasLocation plat a).1 + i = (target a).1 ∧ j = (target a).2 := by omega
  rw [valueAt_getLsbD _ _ _ _ (by omega), show (8 * i + j) / 8 = i by omega, show (8 * i + j) % 8 = j by omega] at hbits
  simpa only [hiff, State.byteAt_eq] using hbits

/-- Settles O44: the location is written back with one bit changed, so that each of its other bits stays. -/
theorem aliasWriteSetsOneBit : Obligations.AliasWriteSetsOneBit := by
  intro s map who a v hwf halias haligned hplain hdistinct
  obtain ⟨t, hwrite, hkept, hwritten⟩ := memWrite_alias_plain (v := v) hplain hwf halias haligned who
  obtain ⟨hle, hlt, -⟩ := aliasBit_facts s.plat a.toNat
  refine ⟨t, hwrite, fun j hj => ?_, fun c hc => ?_⟩
  · have htarget := byte_writtenBack hwritten hdistinct
      (i := (target a.toNat).1 - (aliasLocation s.plat a.toNat).1) (by omega) hj
    rw [Nat.add_sub_cancel' hle] at htarget
    simpa using htarget
  · by_cases hin : ∃ i, i < (aliasLocation s.plat a.toNat).2.bytes ∧ c = place map ((aliasLocation s.plat a.toNat).1 + i)
    · obtain ⟨i, hi, rfl⟩ := hin
      refine BitVec.eq_of_getLsbD_eq fun j hj => ?_
      rw [byte_writtenBack hwritten hdistinct hi hj, if_neg fun h => hc (by rw [h.1])]
    · exact hkept c fun i hi hci => hin ⟨i, hi, hci⟩

/-- Settles O45: one read and one write of the device, with the target bit changed between them. -/
theorem peripheralAliasWriteReadsThenWrites : Obligations.PeripheralAliasWriteReadsThenWrites := by
  intro s map who a v b k lo old hper haligned ht hlo hp hplain hold
  obtain ⟨hloc, hbit⟩ := aliasLocation_peripheral (plat := s.plat) hper ht hlo
  have hdev := servedByDevice_of_not_plain (memType_aliasLocation_peripheral hper ht hlo) hplain
  have hread : aliasRead map a s = _ := (by rw [aliasRead, hloc] : _ = directRead map lo s.plat.bbRmwWidth s).trans
    (directRead_device hp hdev)
  rw [memWrite_alias (by simp [inAlias, hper]) haligned who v hread, aliasWriteBack, ← hold]
  simp only [hloc]
  obtain ⟨t, hw, hmem, hdevices, -⟩ := directWrite_device (s := { s with devices := ⟨BitVec.ofNat 32 lo, s.plat.bbRmwWidth, none⟩ :: s.devices })
    hp hdev who (replaceBit old (aliasBit s.plat a.toNat) v)
  refine ⟨t, _, hw, hmem, hdevices, fun j hj => ?_⟩
  have hlt : aliasBit s.plat a.toNat < 8 * s.plat.bbRmwWidth.bytes := by
    have := (aliasBit_facts s.plat a.toNat).2.2.2.2.2
    rwa [hloc] at this
  rw [keep_getLsbD, replaceBit_aliasBit_getLsbD hj, hbit]
  by_cases hin : j < 8 * s.plat.bbRmwWidth.bytes
  · simp [hin]
  · have hne : ¬ j = 8 * (b - lo) + k := by omega
    simp [hin, hne, hold, keep_getLsbD]

end Sys2Proof.Proofs.BitBanding
end

section
/-! PROOFS. Memory map switching (20_memory.md R88). -/

namespace Sys2Proof.Proofs.MapSwitching

open Sys2Proof.Machine Sys2Proof.Statements

/-- A write hits a rule exactly where its address, size and kept bits are the rule's. -/
theorem hitsRule_iff {r : MapRule} {a : Nat} {size : Size} {v : Word} :
    hitsRule a size v r = true ↔ Fits r a size v := by
  simp only [hitsRule, Fits, keep_eq, Bool.and_eq_true, beq_iff_eq, and_assoc]
  exact and_congr eq_comm (and_congr_left' eq_comm)

section
variable {s : State} {a : Nat} {size : Size} {v : Word}

/-- A write that no rule fits leaves the map and its history. -/
theorem switchMap_of_no_fit (h : ∀ r ∈ s.plat.mapSwitch, ¬ Fits r a size v) : s.switchMap a size v = s :=
  State.switchMap_none s a size v (List.find?_eq_none.mpr fun r hr => by simpa [hitsRule_iff] using h r hr)

/-- The first rule that a write fits, found among the rules. -/
theorem find_hitsRule {rules before after : List MapRule} {r : MapRule} (hrules : rules = before ++ r :: after)
    (hbefore : ∀ r' ∈ before, ¬ Fits r' a size v) (hfits : Fits r a size v) :
    rules.find? (hitsRule a size v) = some r := by
  refine List.find?_eq_some_iff_append.mpr ⟨hitsRule_iff.mpr hfits, before, after, hrules, fun r' hr' => ?_⟩
  simpa [← hitsRule_iff] using hbefore r' hr'

theorem switchMap_of_fit {r : MapRule} (h : s.plat.mapSwitch.find? (hitsRule a size v) = some r) :
    s.switchMap a size v = { s with map := r.map, mapHistory := s.map :: s.mapHistory } := by
  simp [State.switchMap, h]

end

/-- A write outside the aliases ends with the switch of the map, from the map and history before it. -/
theorem memWrite_switches {s t : State} {map : MemoryMap} {who : Nat} {a v : Word} {size : Size}
    (halias : inAlias a.toNat = false) (h : memWrite map who a size v s = .next t) :
    ∃ w : State, t = w.switchMap a.toNat size v ∧ w.plat = s.plat ∧ w.map = s.map ∧ w.mapHistory = s.mapHistory := by
  obtain ⟨_, -, h⟩ := andThen_eq_next.mp h
  rw [if_neg (by simp [halias])] at h
  rcases (directWrite_eq_next h).2 with ⟨-, rfl⟩ | ⟨-, rfl⟩
  · exact ⟨_, rfl, by simp⟩
  · exact ⟨_, rfl, by simp⟩

/-- The map that a switch replaces may be used until the agent's next DSB. -/
theorem replaced_admitted {t : State} {old : MemoryMap} {history : List MemoryMap} {epoch : Nat}
    (h : t.mapHistory = old :: history) (he : epoch ≤ history.length) : old ∈ t.mapsAdmitted epoch := by
  refine State.lasting_admitted ?_
  rw [State.lastingMaps, h, List.length_cons, Nat.succ_sub he, List.take_succ_cons]
  simp

theorem mem_comingMaps {s : State} {map : MemoryMap} : map ∈ s.comingMaps ↔
    ∃ r ∈ s.plat.mapSwitch, r.map = map ∧ ∃ u ∈ s.outstanding, u.maySwitch s.plat r = true := by
  simp only [State.comingMaps, List.mem_map, List.mem_filter, List.any_eq_true]
  exact ⟨fun ⟨r, ⟨hr, hu⟩, e⟩ => ⟨r, hr, e, hu⟩, fun ⟨r, hr, e, hu⟩ => ⟨r, ⟨hr, hu⟩, e⟩⟩

/-- Settles O40: the first rule that fits, the history since the epoch, and the rules of outstanding writes. -/
theorem memoryMapSwitch : Obligations.MemoryMapSwitch := by
  refine ⟨fun s t map who a v size halias hw => ?_, fun s t hpool hx map hmap => ?_,
    fun s u v before after r epoch hu hop hrules hbefore hfits => ?_, fun s epoch h => mapsAdmitted_of_fixed h.1 h.2 epoch⟩
  · obtain ⟨w, rfl, hplat, hm, hh⟩ := memWrite_switches halias hw
    rw [← hplat, ← hm, ← hh]
    refine ⟨fun hno => by rw [switchMap_of_no_fit hno]; exact ⟨rfl, rfl⟩, fun before r after hrules hbefore hfits => ?_⟩
    rw [switchMap_of_fit (find_hitsRule hrules hbefore hfits)]
    exact ⟨rfl, rfl, fun epoch he => replaced_admitted rfl he⟩
  · obtain ⟨-, rfl⟩ := retire_eq_next ((Barriers.exec_dsb_optionSY_retires hpool).symm.trans hx)
    rcases List.mem_append.mp hmap with hmap | hmap
    · simp only [State.lastingMaps, Nat.sub_self, List.take_zero, List.mem_singleton] at hmap
      exact .inl hmap
    · exact .inr (mem_comingMaps.mp hmap)
  · have hfind := find_hitsRule hrules hbefore hfits
    refine List.mem_append_right _ (mem_comingMaps.mpr ⟨r, hrules ▸ by simp, rfl, u, hu, ?_⟩)
    rcases hop with ⟨hop, halias⟩ | ⟨rd, hop⟩
    · simp [Txn.maySwitch, hop, halias, switchesBy, hfind]
    · simp [Txn.maySwitch, hop, switchesBy, hfind]

end Sys2Proof.Proofs.MapSwitching
end

section
/-! PROOFS. Plain accesses: their issue, and the two halves of an alias write (20_memory.md R57, R69, R91). -/

namespace Sys2Proof.Proofs.PlainAccesses

open Sys2Proof.Machine Sys2Proof.Statements Sys2Proof.Proofs.Completion Sys2Proof.Proofs.Accesses Sys2Proof.Proofs.BitBanding

/-! ### Issue -/

section
variable {epoch : Nat} {ok : MemoryMap → Bool} {r : Refusal} {s : State}

/-- The check of a location refuses where no map admitted is `ok`. -/
theorem admitAccess_refused (h : ∀ map ∈ s.mapsAdmitted epoch, ok map = false) : admitAccess epoch ok r s = .refused r := by
  rcases admitAccess_else (epoch := epoch) (ok := ok) (r := r) (s := s) with ⟨n, -, -, hx⟩ | ⟨hx, -⟩
  · obtain ⟨⟨map, hmap, hok⟩, -⟩ := admitAccess_eq_next hx
    rw [h map (State.lasting_admitted hmap)] at hok
    cases hok
  · exact hx

end

/-- What follows the checks of a plain access, said of whatever is done with the state they leave. -/
theorem plainChecks_of_admitPlain {s : State} {epoch : Nat} {access : PlainAccess} {k : State → Result State}
    {after : Nat → State} (hk : ∀ n, k { s with draws := n } = .next (after n)) :
    PlainChecks s epoch access (andThen (admitPlain epoch access.addr access.size s) k) after := by
  unfold PlainChecks admitPlain
  split_ifs with halign halias
  · rw [checkAccess_misaligned halign]; rfl
  · rw [checkAccess_narrowAlias (not_not.mp halign) halias.1 halias.2]; rfl
  · intro lo n hfoot
    rw [Machine.footprint, Prod.mk.injEq] at hfoot
    rw [checkAccess_next (not_not.mp halign) fun h => by_contra fun hne => halias ⟨h, hne⟩, andThen_next, hfoot.1]
    have hok (map : MemoryMap) : reachable s.plat access.addr.toNat access.size map = populated map lo n := by
      rw [reachable, hfoot.1, hfoot.2]
    refine ⟨fun h => ?_, fun h => ?_, ?_⟩
    · obtain ⟨d, hle, hfixed, hx⟩ := admitAccess_next (.unpopulated (BitVec.ofNat 32 lo)) fun map hmap =>
        (hok map).trans (h map hmap)
      exact ⟨d, ⟨hle, hfixed⟩, by rw [hx, andThen_next, hk]⟩
    · rw [admitAccess_refused fun map hmap => (hok map).trans (h map hmap), andThen_refused]
    · rcases admitAccess_else (epoch := epoch) (s := s) (r := .unpopulated (BitVec.ofNat 32 lo))
        (ok := reachable s.plat access.addr.toNat access.size) with ⟨d, hle, hfixed, hx⟩ | ⟨hx, -⟩
      · exact .inl ⟨d, ⟨hle, hfixed⟩, by rw [hx, andThen_next, hk]⟩
      · exact .inr (by rw [hx, andThen_refused])

theorem issuePlain_waits {access : PlainAccess} {dest : Option Reg} {s : State}
    (h : s.cpu.finished = true ∨ betweenHalves s.cpu.pool = true ∨
      (access.txn s.cpu.seq dest).dest.any s.cpu.pending = true) : issuePlain access dest s = .next s :=
  if_pos (by simpa [or_assoc] using h)

/-- Settles O25: the waits, and else the checks before the access joins its pool. -/
theorem plainAccessIssues : Obligations.PlainAccessIssues := by
  refine ⟨fun s access dest => ⟨fun hfin hhalves hready => ?_, fun r hr hread hdest => ?_, fun h => ?_⟩,
    fun s m master access rest hm htodo => ⟨fun hhalves => ?_, fun hhalves => ?_⟩⟩
  · have hdest : (access.txn s.cpu.seq dest).dest.any s.cpu.pending = false := by
      unfold PlainAccess.txn
      split
      · rename_i hread
        cases dest with
        | none => rfl
        | some r => exact hready hread r rfl
      · rfl
    simp only [play, issuePlain, hfin, hhalves, hdest, Bool.or_self, Bool.false_eq_true, if_false]
    exact plainChecks_of_admitPlain fun n => rfl
  · exact issuePlain_waits (.inr (.inr (by simp [PlainAccess.txn, hread, hdest, Txn.dest, hr])))
  · exact issuePlain_waits (h.imp_right .inl)
  · simp [play, masterIssue, hm, htodo, hhalves]
  · simp only [play, masterIssue, hm, htodo, hhalves, Bool.false_eq_true, if_false]
    exact plainChecks_of_admitPlain fun n => by simp only [Master.issueNext, htodo]; rfl

/-! ### The two halves of an alias write -/

theorem seeOwnWrite_nil (p : Proc) (u : Txn) (now : Nat) : p.seeOwnWrite u [] now = p := by
  unfold Proc.seeOwnWrite
  split <;> rfl

/-- A completion that moved only draws and the devices' record wrote no cell that a fetch would have to see. -/
theorem settled_quiet (s : State) (k : Nat) (u : Txn) (c : Completion) (n : Nat) (devices : List DeviceAccess) :
    settled s k u c { s with draws := n, devices := devices } =
      { s with draws := n, devices := devices, cpu := s.cpu.settleTxn k u c } := by
  have hnone : writtenSince s { s with draws := n, devices := devices } = [] := by simp [writtenSince]
  rw [settled, hnone, seeOwnWrite_nil]

/-- The first half of an alias write answers the read of its location. -/
theorem completeTxn_aliasWrite {map : MemoryMap} {who lo : Nat} {width : Size} {u : Txn} {v : Word} {s : State}
    (hop : u.op = .write v) (hsize : u.size = .word) (halias : inAlias u.addr.toNat = true)
    (haligned : u.addr.toNat % 4 = 0) (hloc : aliasLocation s.plat u.addr.toNat = (lo, width)) {r : Word × State}
    (h : directRead map lo width s = .next r) :
    completeTxn map who u s = .next (.halfway { u with op := .writeBack r.1 v }, r.2) := by
  have hcheck : checkAccess u.addr u.size = .next () := checkAccess_next (by rw [hsize]; exact haligned) fun _ => hsize
  have hread : aliasRead map u.addr s = .next r := by rw [aliasRead, hloc]; exact h
  simp [completeTxn, hop, halias, hcheck, hread]

theorem betweenHalves_of_mem {pool : List Txn} {w : Txn} (hw : w ∈ pool) (h : w.isWriteBack = true) :
    betweenHalves pool = true := List.any_eq_true.mpr ⟨w, hw, h⟩

/-- While a write back is outstanding nothing else of its processor completes (R69). -/
theorem completeAt_betweenHalves {s : State} {k : Nat} {u w : Txn} (hk : s.cpu.pool[k]? = some u)
    (hu : u.isWriteBack = false) (hw : w ∈ s.cpu.pool) (h : w.isWriteBack = true) : completeAt k s = .next s := by
  simp [completeAt, hk, mayComplete, keepsPair, hu, betweenHalves_of_mem hw h]

/-- The second half of an alias write is the write back of its location. -/
theorem completeTxn_writeBack {map : MemoryMap} {who : Nat} {u : Txn} {old v : Word} {s t : State}
    (hop : u.op = .writeBack old v) (h : aliasWriteBack map who u.addr old v s = .next t) :
    completeTxn map who u s = .next (.done none, t) := by
  simp [completeTxn, hop, h]

/-- Settles O46, a half at a time, and between them the hold. -/
theorem aliasWriteInTwoHalves : Obligations.AliasWriteInTwoHalves := by
  refine ⟨fun s k u v lo width hk hop hsize hm halias haligned hloc => ?_,
    fun s k u w hk hu hw h => completeAt_betweenHalves hk hu hw h, fun s w hw h => ?_,
    fun s k u old v lo width hwf hk hop hm hloc => ?_⟩
  · obtain ⟨map, hmap, n, -, -, hnext⟩ := completeAt_settled hk hm
    have hfirst := fun {r} => completeTxn_aliasWrite (map := map) (who := s.cpu.id) (s := { s with draws := n }) (r := r)
      hop hsize halias haligned hloc
    refine ⟨fun hplain => ?_, fun hdev => ?_⟩
    · refine ⟨_, n, ⟨map, hmap, isValueAt_valueAt s map lo width⟩, ?_⟩
      rw [hnext _ _ (hfirst (directRead_plain (hplain map hmap)))]
      exact congrArg _ (settled_quiet s k u _ n s.devices)
    · obtain ⟨hdev, hp⟩ := hdev map hmap
      refine ⟨_, n, rfl, ?_⟩
      rw [hnext _ _ (hfirst (directRead_device hp hdev))]
      exact congrArg _ (settled_quiet s k u _ n _)
  · have hhalves := betweenHalves_of_mem hw h
    exact ⟨if_pos (by simp [hhalves]), fun access dest => issuePlain_waits (.inr (.inl hhalves))⟩
  · obtain ⟨map, hmap, n, -, -, hnext⟩ := completeAt_settled hk hm
    obtain ⟨rfl, rfl⟩ : (aliasLocation s.plat u.addr.toNat).1 = lo ∧ (aliasLocation s.plat u.addr.toNat).2 = width := by
      simp [hloc]
    refine ⟨fun hplain => ?_, fun hdev => ?_⟩
    · obtain ⟨hplain, hdistinct⟩ := hplain map hmap
      have hwrite := aliasWriteBack_stored (who := s.cpu.id) (s := { s with draws := n }) (a := u.addr) (old := old)
        (v := v) hplain
      obtain ⟨hkept, hwritten⟩ := bytes_of_stored (s := { s with draws := n }) hwf (stored_mem (map := map)
        (who := s.cpu.id) (size := (aliasLocation s.plat u.addr.toNat).2)
        (v := replaceBit old (aliasBit s.plat u.addr.toNat) v))
      exact ⟨_, map, hmap, hnext _ _ (completeTxn_writeBack hop hwrite), settled_done_pool (by simp), hkept,
        stored_devices, fun j hj => writtenBack_getLsbD hwritten hdistinct hj⟩
    · obtain ⟨hdev, hp⟩ := hdev map hmap
      obtain ⟨t, ht, hmem, hdevices, hcpu⟩ := directWrite_device (s := { s with draws := n }) hp hdev s.cpu.id
        (replaceBit old (aliasBit s.plat u.addr.toNat) v)
      refine ⟨_, _, hnext _ _ (completeTxn_writeBack hop ht), settled_done_pool (by simpa using hcpu), hmem, hdevices,
        fun j hj => ?_⟩
      have hbits := size_bits_le (aliasLocation s.plat u.addr.toNat).2
      rw [keep_getLsbD, replaceBit_aliasBit_getLsbD (by omega)]
      simp only [hj, decide_true, Bool.true_and]
      rfl

end Sys2Proof.Proofs.PlainAccesses
end

section
/-! PROOFS. A whole step on an exclusive instruction: it is fetched, executed and settled (41_exclusive.md R142 to R153). -/

namespace Sys2Proof.Proofs.ExclusiveSteps

open Sys2Proof.Machine Sys2Proof.Statements Sys2Proof.Proofs.Exclusives Sys2Proof.Proofs.Completion
  Sys2Proof.Proofs.MapSwitching Sys2Proof.Proofs.PlainAccesses

/-! ### The maps admitted once a transaction has joined the pool -/

/-- `s'` is `s` with `u` in the pool of the processor in focus, as far as the maps admitted go. -/
structure Joined (s s' : State) (u : Txn) : Prop where
  pool : s'.cpu.pool = s.cpu.pool ++ [u]
  others : s'.others = s.others
  masters : s'.masters = s.masters
  plat : s'.plat = s.plat
  map : s'.map = s.map
  mapHistory : s'.mapHistory = s.mapHistory

section
variable {s s' : State} {u : Txn} (h : Joined s s' u)
include h

theorem Joined.mem_outstanding {w : Txn} : w ∈ s'.outstanding ↔ w ∈ s.outstanding ∨ w = u := by
  simp only [State.outstanding, State.procs, List.flatMap_cons, h.pool, h.others, h.masters, List.mem_append,
    List.mem_singleton]
  tauto

theorem Joined.lastingMaps (epoch : Nat) : s'.lastingMaps epoch = s.lastingMaps epoch := by
  simp only [State.lastingMaps, h.map, h.mapHistory]

/-- The maps admitted are those there were and those the new transaction may switch to (U7). -/
theorem Joined.mem_mapsAdmitted {map : MemoryMap} {epoch : Nat} : map ∈ s'.mapsAdmitted epoch ↔
    map ∈ s.mapsAdmitted epoch ∨ ∃ r ∈ s.plat.mapSwitch, r.map = map ∧ u.maySwitch s.plat r = true := by
  simp only [State.mapsAdmitted, List.mem_append, h.lastingMaps, mem_comingMaps, h.plat, h.mem_outstanding]
  constructor
  · rintro (hmap | ⟨r, hr, e, w, hw | rfl, hswitch⟩)
    · exact .inl (.inl hmap)
    · exact .inl (.inr ⟨r, hr, e, w, hw, hswitch⟩)
    · exact .inr ⟨r, hr, e, hswitch⟩
  · rintro ((hmap | ⟨r, hr, e, w, hw, hswitch⟩) | ⟨r, hr, e, hswitch⟩)
    · exact .inl hmap
    · exact .inr ⟨r, hr, e, w, .inl hw, hswitch⟩
    · exact .inr ⟨r, hr, e, u, .inr rfl, hswitch⟩

/-- A transaction that may switch to no map leaves the maps admitted as they were. -/
theorem Joined.mapsAdmitted_eq (hno : ∀ r ∈ s.plat.mapSwitch, u.maySwitch s.plat r = false) (epoch : Nat) :
    s'.mapsAdmitted epoch = s.mapsAdmitted epoch := by
  have hcoming : s'.comingMaps = s.comingMaps := by
    simp only [State.comingMaps, h.plat]
    congr 1
    refine List.filter_congr fun r hr => ?_
    rw [Bool.eq_iff_iff, List.any_eq_true, List.any_eq_true]
    simp only [h.mem_outstanding]
    refine ⟨?_, fun ⟨w, hw, hs⟩ => ⟨w, .inl hw, hs⟩⟩
    rintro ⟨w, hw | rfl, hs⟩
    · exact ⟨w, hw, hs⟩
    · simp [hno r hr] at hs
  rw [State.mapsAdmitted, hcoming, h.lastingMaps, State.mapsAdmitted]

end

/-! ### The one transaction outstanding completes -/

section
variable {s s' : State} {u : Txn} (hpool : s.cpu.pool = [u])
include hpool

/-- Settling the only transaction completes it, by a map that is admitted. -/
theorem settle_only : ∃ map ∈ admitted s, ∃ n, Drawn s s.cpu.mapEpoch n ∧
    ((∃ map ∈ admitted s, u.permitted s.plat map = true) → u.permitted s.plat map = true) ∧
    ∀ v s', completeTxn map s.cpu.id u { s with draws := n } = .next (.done v, s') → s'.cpu = s.cpu →
      settle s = .next (settled s 0 u (.done v) s') := by
  obtain ⟨map, hmap, n, hdrawn, hpermitted, hnext⟩ :=
    completeAt_settled (k := 0) (by simp [hpool]) (mayComplete_single (plat := s.plat) hpool)
  refine ⟨map, hmap, n, hdrawn, hpermitted, fun v s' h hcpu => settle_single hpool (hnext _ _ h) ?_⟩
  rw [settled_done_pool hcpu, hpool]
  rfl

/-- The processor once its only transaction completed: nothing is outstanding, so that no DMB stays on record (R131). -/
theorem settleTxn_only {r : Reg} (hdest : u.dest = some r) (v : Word) : s.cpu.settleTxn 0 u (.done (some v)) =
    { s.cpu with pool := [], dmbs := [], regs := s.cpu.regs.set r.val v r.isLt } := by
  simp [Proc.settleTxn, hdest, hpool, Proc.setReg]

end

/-! ### The step -/

/-- A step on a fetched instruction executes it and settles. -/
theorem step_fetched {s s' : State} {i : Instr} (hf : Fetches s i s') (hpool : s.cpu.pool = []) :
    (∃ m, s' = { s with draws := m }) ∧ s.cpu.pc.toNat + 4 ≤ 0xFFFFFFFC ∧ step s = andThen (exec i s') settle := by
  obtain ⟨ha, hfin, hfetch⟩ := hf
  obtain ⟨hpc, hdraws⟩ := fetchInstr_eq_next hfetch
  refine ⟨hdraws, by omega, ?_⟩
  simp only [step, ha, issueAndSettle, Refusals.issue_of_fetched hfin (by simp [hpool, betweenHalves]) hfetch]

theorem pending_of_pool_nil {p : Proc} (h : p.pool = []) (r : Reg) : p.pending r = false := by simp [Proc.pending, h]

theorem toNat_address {a : Nat} (hfit : a ≤ 0xFFFFFFFF) : (BitVec.ofNat 32 a).toNat = a := by
  rw [BitVec.toNat_ofNat]; omega

/-- The read of a Load-Exclusive is no write that switches the map. -/
theorem afterLoad_joined (s : State) (m n : Nat) (rt : Reg) (a : Nat) (size : Size) :
    Joined s (AfterLoad { s with draws := m } n rt a size) ⟨s.cpu.seq, .loadExcl rt, BitVec.ofNat 32 a, size⟩ :=
  ⟨rfl, rfl, rfl, rfl, rfl, rfl⟩

/-- Settling a Load-Exclusive issued with nothing else outstanding. -/
theorem settle_afterLoad {s : State} {m n a : Nat} {rt : Reg} {size : Size} (hpool : s.cpu.pool = [])
    (hfit : a ≤ 0xFFFFFFFF) (halign : a % size.bytes = 0)
    (hok : ∃ map ∈ admitted s, exclusiveAllowed map a size.bytes = true) :
    ∃ map ∈ admitted s, ∃ d, n ≤ d ∧ (admitted s = [s.map] → d = n) ∧ exclusiveAllowed map a size.bytes = true ∧
      settle (AfterLoad { s with draws := m } n rt a size) = .next { s with draws := d, cpu := { s.cpu with
        regs := s.cpu.regs.set rt.val (valueAt (s.byteAt map) a size) rt.isLt,
        tag := some ⟨BitVec.ofNat 32 a, size, true⟩, pc := s.cpu.pc + 4#32, seq := s.cpu.seq + 1, dmbs := [] } } := by
  have ha := toNat_address hfit
  have hjoined := afterLoad_joined s m n rt a size
  have hsame : admitted (AfterLoad { s with draws := m } n rt a size) = admitted s :=
    hjoined.mapsAdmitted_eq (fun _ _ => rfl) _
  obtain ⟨map, hmap, d, ⟨hle, hfixed⟩, hpermitted, hsettle⟩ :=
    settle_only (s := AfterLoad { s with draws := m } n rt a size) (hjoined.pool.trans (by rw [hpool]; rfl))
  have hpermits (map : MemoryMap) : (Txn.mk s.cpu.seq (.loadExcl rt) (BitVec.ofNat 32 a) size).permitted s.plat map =
      exclusiveAllowed map a size.bytes := by simp [Txn.permitted, ha]
  obtain ⟨good, hgood, hallowed⟩ := hok
  have hok : exclusiveAllowed map a size.bytes = true :=
    (hpermits map).symm.trans (hpermitted ⟨good, hsame ▸ hgood, (hpermits good).trans hallowed⟩)
  have hread := completeTxn_read (map := map) (who := s.cpu.id) (r := rt)
    (u := ⟨s.cpu.seq, .loadExcl rt, BitVec.ofNat 32 a, size⟩)
    (s := { AfterLoad { s with draws := m } n rt a size with draws := d })
    (.inr ⟨rfl, by simpa [ha] using hok⟩) (by simpa [ha] using halign)
    (by simpa [ha] using inAlias_of_exclusiveAllowed hok (size_bytes_pos size))
  refine ⟨map, hsame ▸ hmap, d, hle, fun hone => hfixed (hsame.trans hone), hok, (hsettle _ _ hread rfl).trans ?_⟩
  refine congrArg _ ((settled_quiet _ 0 _ _ d s.devices).trans ?_)
  rw [settleTxn_only (hjoined.pool.trans (by rw [hpool]; rfl)) rfl]
  simp only [AfterLoad, ha, hpool]
  rfl

theorem exclusiveForm_of_loadForm {i : Instr} {rt rn : Reg} {offset : Nat} {size : Size}
    (hi : loadForm i = some (rt, rn, offset, size)) : exclusiveForm i = some ([rt, rn], rn, offset, size) := by
  simp [exclusiveForm, hi]

theorem exclusiveForm_of_storeForm {i : Instr} {rd rt rn : Reg} {offset : Nat} {size : Size}
    (hi : storeForm i = some (rd, rt, rn, offset, size)) : exclusiveForm i = some ([rd, rt, rn], rn, offset, size) := by
  cases i <;> simp_all [storeForm, exclusiveForm, loadForm]

/-- Where a step on an exclusive instruction stops before anything is issued (R167). -/
theorem step_exclusive_stops {i : Instr} {named : List Reg} {rn : Reg} {offset a : Nat} {size : Size} {s s' : State}
    (hform : exclusiveForm i = some (named, rn, offset, size)) (hw : i.wellFormed = true) (hf : Fetches s i s')
    (hpool : s.cpu.pool = []) (ha : a = (s.cpu.reg rn).toNat + offset) :
    (a > 0xFFFFFFFF → step s = .refused (.addressOverflow s.cpu.pc)) ∧
    (a ≤ 0xFFFFFFFF → a % size.bytes ≠ 0 → step s = .fault (.unalignedExclusive (BitVec.ofNat 32 a))) ∧
    (a ≤ 0xFFFFFFFF → a % size.bytes = 0 → (∀ map ∈ admitted s, exclusiveAllowed map a size.bytes = false) →
      step s = .refused (.exclusiveNotAllowed (BitVec.ofNat 32 a))) := by
  obtain ⟨⟨m, rfl⟩, -, hstep⟩ := step_fetched hf hpool
  have hready : ∀ r ∈ named, ({ s with draws := m } : State).cpu.pending r = false :=
    fun r _ => pending_of_pool_nil hpool r
  subst ha
  refine ⟨fun hover => ?_, fun hfit hmis => ?_, fun hfit halign hforbid => ?_⟩
  · rw [hstep, exec_exclusive_refused hw hform hready (exclusiveAddress_overflow hover), andThen_refused]
  · rw [hstep, exec_exclusive_fault hw hform hready (exclusiveAddress_unaligned hfit hmis), andThen_fault]
    rfl
  · rw [hstep, exec_exclusive_refused hw hform hready (exclusiveAddress_forbidden hfit halign hforbid), andThen_refused]
    rfl

/-- Settles O19: the checks in their order, and else the read that was issued completes. -/
theorem loadExclusiveStep : Obligations.LoadExclusiveStep := by
  intro i rt rn offset size s s' a hi hw hf hpool ha
  have hform := exclusiveForm_of_loadForm hi
  obtain ⟨hoverflows, hunaligned, hforbidden⟩ := step_exclusive_stops hform hw hf hpool ha
  obtain ⟨⟨m, rfl⟩, hpc, hstep⟩ := step_fetched hf hpool
  split_ifs with hover hmis hforbid
  · exact hoverflows hover
  · exact hunaligned (not_lt.mp hover) hmis
  · exact hforbidden (not_lt.mp hover) (not_not.mp hmis) hforbid
  have hfit := not_lt.mp hover
  have halign := not_not.mp hmis
  rcases exec_load_aligned (s := { s with draws := m }) hw ha hfit halign hi
    (fun r _ => pending_of_pool_nil hpool r) with ⟨n, ⟨hn, hnfixed⟩, hexec⟩ | ⟨hexec, hmap⟩
  · obtain ⟨map, hmap, d, hd, hdfixed, hok, hsettle⟩ :=
      settle_afterLoad (m := m) (n := n) (rt := rt) hpool hfit halign (by simpa using hforbid)
    rw [retire_issueLoad (s := { s with draws := m }) n rt a size hpc] at hexec
    refine .inr ⟨_, by rw [hstep, hexec, andThen_next, hsettle], ⟨map, hmap, hok, ?_⟩, fun q hq => ?_,
      hn.trans hd, fun hone => (hdfixed hone).trans (hnfixed hone), rfl⟩
    · exact (Proc.setReg_reg_self s.cpu rt _).symm ▸ isValueAt_valueAt s map a size
    · exact Proc.setReg_reg_of_ne s.cpu rt q _ hq
  · exact .inl ⟨by rw [hstep, hexec, andThen_refused], hmap⟩

/-! ### A Store-Exclusive: its low bits and the map they may switch -/

theorem keep_keep (size : Size) (v : Word) : size.keep (size.keep v) = size.keep v := by
  apply BitVec.eq_of_getLsbD_eq
  intro j hj
  simp [keep_getLsbD]

theorem keep_extractLsb' {size : Size} {j : Nat} (hj : j < size.bytes) (v : Word) :
    (size.keep v).extractLsb' (8 * j) 8 = v.extractLsb' (8 * j) 8 := by
  apply BitVec.eq_of_getLsbD_eq
  intro b hb
  simp [keep_getLsbD, show 8 * j + b < 8 * size.bytes by omega]

section
variable {s : State} {map : MemoryMap} {a : Nat} {size : Size} {v : Word}

theorem switches_keep : Switches s a size (size.keep v) map ↔ Switches s a size v map := by
  simp only [Switches, Fits, ← keep_eq, keep_keep]

theorem bytesWritten_keep {n : Nat} (hn : n ≤ size.bytes) :
    BytesWritten map a n (size.keep v) s ↔ BytesWritten map a n v s :=
  forall_congr' fun _ => forall_congr' fun j => forall_congr' fun hj => by rw [keep_extractLsb' (hj.trans_le hn)]

/-- A rule that a write may switch by is the first that fits it. -/
theorem switches_of_switchesBy {r : MapRule} (h : switchesBy s.plat a size v r = true) : Switches s a size v r.map := by
  have h := eq_of_beq h
  exact ⟨r, List.mem_of_find?_eq_some h, hitsRule_iff.mp (List.find?_some h), rfl⟩

/-- A write leaves the map where no rule fits it, and else switches by one that does (R88). -/
theorem stored_map (shown : MemoryMap) (who : Nat) :
    ((stored shown who a size v s).map = s.map ∧ (stored shown who a size v s).mapHistory = s.mapHistory ∧
      ∀ map, ¬ Switches s a size v map) ∨
    (Switches s a size v (stored shown who a size v s).map ∧
      (stored shown who a size v s).mapHistory = s.map :: s.mapHistory) := by
  cases hfind : s.plat.mapSwitch.find? (hitsRule a size v) with
  | none =>
    have hno : ∀ r ∈ s.plat.mapSwitch, ¬ Fits r a size v := fun r hr hfits =>
      List.find?_eq_none.mp hfind r hr (hitsRule_iff.mpr hfits)
    rw [stored, switchMap_of_no_fit (by simpa using hno)]
    exact .inl ⟨by simp, by simp, fun map ⟨r, hr, hfits, _⟩ => hno r hr hfits⟩
  | some r =>
    rw [stored, switchMap_of_fit (r := r) (by simpa using hfind)]
    exact .inr ⟨switches_of_switchesBy (beq_iff_eq.mpr hfind), by simp⟩

/-- What storing the low bits of `v` leaves, told of a state with the memory, map and processors of `s`. -/
theorem stored_keep {shown : MemoryMap} {who : Nat} {q w : State} (hw : w = stored shown who a size (size.keep v) q)
    (hothers : q.others = s.others) (hmem : q.mem = s.mem) (hmap : q.map = s.map)
    (hhistory : q.mapHistory = s.mapHistory) (hplat : q.plat = s.plat) (hwf : s.mem.wf) :
    w.others = s.others.map (Proc.observe who (a, size.bytes)) ∧ BytesKeptBut shown a size.bytes s w ∧
      BytesWritten shown a size.bytes v w ∧
      ((w.map = s.map ∧ w.mapHistory = s.mapHistory ∧ ∀ map, ¬ Switches s a size v map) ∨
        (Switches s a size v w.map ∧ w.mapHistory = s.map :: s.mapHistory)) := by
  subst hw
  obtain ⟨hkept, hwritten⟩ := bytes_of_stored (s := q) (hmem ▸ hwf) (stored_mem (map := shown) (who := who))
  have hmaps := stored_map (s := q) (a := a) (size := size) (v := size.keep v) shown who
  simp only [switches_keep, hmap, hhistory] at hmaps
  simp only [Switches, hplat] at hmaps
  exact ⟨by rw [stored_others, hothers], fun c hc => (hkept c hc).trans (by rw [hmem]),
    (bytesWritten_keep le_rfl).mp hwritten, hmaps⟩

end

/-- The transaction that a Store-Exclusive issues: the low bits of `Rt` (R147, D17). -/
def issuedStore (p : Proc) (rd rt : Reg) (a : Nat) (size : Size) (intact : Bool) : Txn :=
  ⟨p.seq, .storeExcl (size.keep (p.reg rt)) rd intact, BitVec.ofNat 32 a, size⟩

theorem afterStore_joined (s : State) (m n : Nat) (rd rt : Reg) (a : Nat) (size : Size) (intact : Bool) :
    Joined s (AfterStore { s with draws := m } n rd rt a size intact) (issuedStore s.cpu rd rt a size intact) :=
  ⟨by rw [AfterStore, issuedStore, keep_eq], rfl, rfl, rfl, rfl, rfl⟩

/-- The maps that a Store-Exclusive may switch to are those of the rules that fit its write. -/
theorem switches_of_maySwitch {s : State} {rd rt : Reg} {a : Nat} {size : Size} {intact : Bool} {r : MapRule}
    (hfit : a ≤ 0xFFFFFFFF) (h : (issuedStore s.cpu rd rt a size intact).maySwitch s.plat r = true) :
    Switches s a size (s.cpu.reg rt) r.map := by
  have ha := toNat_address hfit
  have h := (Bool.and_eq_true_iff.mp h).2
  exact switches_keep.mp (switches_of_switchesBy (by simpa only [issuedStore, ha] using h))

/-! ### A Store-Exclusive: what its step leaves -/

/-- The processor once its Store-Exclusive has returned `v` in `Rd` with nothing else outstanding. -/
def StoreReturned (s : State) (rd : Reg) (v : Word) (t : State) : Prop :=
  ∃ u written now, u.seq = s.cpu.seq ∧ t.cpu = Proc.seeOwnWrite { s.cpu with
    regs := s.cpu.regs.set rd.val v rd.isLt, pc := s.cpu.pc + 4#32, tag := none, seq := s.cpu.seq + 1,
    pool := [], dmbs := [] } u written now

/-- What a returned Store-Exclusive leaves of the processor and in its status register. -/
theorem StoreReturned.frame {s t : State} {rd : Reg} {v : Word} (h : StoreReturned s rd v t) :
    t.cpu.tag = none ∧ t.cpu.pc = s.cpu.pc + 4#32 ∧ t.cpu.pool = [] ∧ t.cpu.seq = s.cpu.seq + 1 ∧ t.cpu.dmbs = [] ∧
    t.cpu.ifetchEpoch = s.cpu.ifetchEpoch ∧ t.cpu.isbSeq = s.cpu.isbSeq ∧ t.cpu.mapEpoch = s.cpu.mapEpoch ∧
    (s.cpu.isbSeq ≤ s.cpu.seq → t.cpu.seen = s.cpu.seen) ∧ RegsKeptBut rd s t ∧ SameIdentity s t ∧ t.cpu.reg rd = v := by
  obtain ⟨u, written, now, hseq, hcpu⟩ := h
  refine ⟨by simp [hcpu], by simp [hcpu], by simp [hcpu], by simp [hcpu], by simp [hcpu], by simp [hcpu], by simp [hcpu],
    by simp [hcpu], fun hisb => ?_, fun q hq => ?_, by simp [hcpu, SameIdentity], ?_⟩
  · rw [hcpu, Proc.seeOwnWrite, if_neg (by rw [hseq]; exact Nat.not_lt.mpr hisb)]
  · rw [hcpu, Proc.seeOwnWrite_reg]
    exact Proc.setReg_reg_of_ne s.cpu rd q v hq
  · rw [hcpu, Proc.seeOwnWrite_reg]
    exact Proc.setReg_reg_self s.cpu rd v

/-- A Store-Exclusive issued with nothing else outstanding and completed with `v` has returned it. -/
theorem storeReturned_settled {s w : State} {m n a : Nat} {rd rt : Reg} {size : Size} {intact : Bool}
    (hpool : s.cpu.pool = []) (v : Word) (hw : w.cpu = (AfterStore { s with draws := m } n rd rt a size intact).cpu) :
    StoreReturned s rd v (settled (AfterStore { s with draws := m } n rd rt a size intact) 0
      (issuedStore s.cpu rd rt a size intact) (.done (some v)) w) := by
  refine ⟨_, _, _, rfl, congrArg (Proc.seeOwnWrite · _ _ _) ?_⟩
  rw [hw, settleTxn_only ((afterStore_joined s m n rd rt a size intact).pool.trans (by rw [hpool]; rfl)) rfl]
  rfl

/-- How a Store-Exclusive that `p` has issued ends (R153): with `v` returned by a completion that leaves `w`, by the map
`map` and the draw `d`. -/
def StoreOutcome (p : State) (a : Nat) (size : Size) (value : Word) (intact : Bool) (map : MemoryMap) (d : Nat)
    (v : Word) (w : State) : Prop :=
  if intact = false ∨ Config.storeExclusiveFails d = true then v = 1#32 ∧ ∃ e, w = { p with draws := e }
  else v = 0#32 ∧ w = stored map p.cpu.id a size value { p with draws := d + 1 }

theorem StoreOutcome.fields {p w : State} {a d : Nat} {size : Size} {value v : Word} {intact : Bool} {map : MemoryMap}
    (h : StoreOutcome p a size value intact map d v w) :
    w.masters = p.masters ∧ w.devices = p.devices ∧ w.plat = p.plat ∧ w.agenda = p.agenda := by
  unfold StoreOutcome at h
  split_ifs at h
  · obtain ⟨-, e, rfl⟩ := h
    exact ⟨rfl, rfl, rfl, rfl⟩
  · obtain ⟨-, rfl⟩ := h
    simp

/-- A Store-Exclusive completes by a map that allows it, as `intact` and the draw say. -/
theorem completeTxn_issuedStore {q p : State} {rd rt : Reg} {a : Nat} {size : Size} {intact : Bool} {map : MemoryMap}
    (d : Nat) (hfit : a ≤ 0xFFFFFFFF) (halign : a % size.bytes = 0) (hok : exclusiveAllowed map a size.bytes = true) :
    ∃ v w, completeTxn map p.cpu.id (issuedStore q.cpu rd rt a size intact) { p with draws := d } =
        .next (.done (some v), w) ∧ w.cpu = p.cpu ∧
      StoreOutcome p a size (size.keep (q.cpu.reg rt)) intact map d v w := by
  have ha := toNat_address hfit
  cases intact with
  | false => exact ⟨_, _, completeTxn_storeExcl_lost rfl, rfl, by simp [StoreOutcome]⟩
  | true =>
    cases hfails : Config.storeExclusiveFails d with
    | true => exact ⟨_, _, completeTxn_storeExcl_fails rfl hfails, rfl, by simp [StoreOutcome, hfails]⟩
    | false =>
      refine ⟨_, _, completeTxn_storeExcl_writes rfl hfails (by simpa [issuedStore, ha] using halign)
        (by simpa [issuedStore, ha] using hok), by simp, ?_⟩
      simp [StoreOutcome, hfails, issuedStore, ha]

/-- Settling a Store-Exclusive issued with nothing else outstanding completes it, by a map that allows it. -/
theorem settle_afterStore {s p : State} {m n a : Nat} {rd rt : Reg} {size : Size} {intact : Bool}
    (hp : AfterStore { s with draws := m } n rd rt a size intact = p) (hpool : s.cpu.pool = []) (hfit : a ≤ 0xFFFFFFFF)
    (halign : a % size.bytes = 0) (hok : ∃ map ∈ admitted s, exclusiveAllowed map a size.bytes = true) :
    ∃ map ∈ admitted p, ∃ d v w, n ≤ d ∧ (admitted p = [s.map] → d = n) ∧
      exclusiveAllowed map a size.bytes = true ∧ w.cpu = p.cpu ∧
      StoreOutcome p a size (size.keep (s.cpu.reg rt)) intact map d v w ∧
      settle p = .next (settled p 0 (issuedStore s.cpu rd rt a size intact) (.done (some v)) w) := by
  have ha := toNat_address hfit
  have hjoined := hp ▸ afterStore_joined s m n rd rt a size intact
  obtain ⟨map, hmap, d, ⟨hle, hfixed⟩, hpermitted, hsettle⟩ := settle_only (hjoined.pool.trans (by rw [hpool]; rfl))
  have hpermits (map : MemoryMap) : (issuedStore s.cpu rd rt a size intact).permitted p.plat map =
      exclusiveAllowed map a size.bytes := by simp [Txn.permitted, issuedStore, ha]
  obtain ⟨good, hgood, hallowed⟩ := hok
  have hgood : good ∈ admitted p := by
    subst hp
    exact hjoined.mem_mapsAdmitted.mpr (.inl hgood)
  have hok : exclusiveAllowed map a size.bytes = true :=
    (hpermits map).symm.trans (hpermitted ⟨good, hgood, (hpermits good).trans hallowed⟩)
  obtain ⟨v, w, hcomplete, hcpu, houtcome⟩ := completeTxn_issuedStore d hfit halign hok
  subst hp
  exact ⟨map, hmap, d, v, w, hle, hfixed, hok, hcpu, houtcome, hsettle _ _ hcomplete hcpu⟩

/-- A map admitted once a Store-Exclusive is issued was admitted before, or is one that it may switch to (U7). -/
theorem admitted_afterStore {s : State} {m n a : Nat} {rd rt : Reg} {size : Size} {intact : Bool} {map : MemoryMap}
    (hfit : a ≤ 0xFFFFFFFF) (h : map ∈ admitted (AfterStore { s with draws := m } n rd rt a size intact)) :
    map ∈ admitted s ∨ Switches s a size (s.cpu.reg rt) map := by
  refine ((afterStore_joined s m n rd rt a size intact).mem_mapsAdmitted.mp h).imp_right ?_
  rintro ⟨r, -, rfl, hswitch⟩
  exact switches_of_maySwitch hfit hswitch

/-- A Store-Exclusive that no rule fits leaves the maps admitted as they were. -/
theorem admitted_afterStore_of_no_switch {s : State} {m n a : Nat} {rd rt : Reg} {size : Size} {intact : Bool}
    (hfit : a ≤ 0xFFFFFFFF) (hno : ∀ map, ¬ Switches s a size (s.cpu.reg rt) map) :
    admitted (AfterStore { s with draws := m } n rd rt a size intact) = admitted s :=
  (afterStore_joined s m n rd rt a size intact).mapsAdmitted_eq
    (fun _ _ => Bool.eq_false_iff.mpr fun h => hno _ (switches_of_maySwitch hfit h)) _

/-- Settles O20: the checks in their order, and else the write that was issued completes, as its outcome says. -/
theorem storeExclusiveStep : Obligations.StoreExclusiveStep := by
  intro i rd rt rn offset size s s' a hi hw hf hpool hwf ha
  have hform := exclusiveForm_of_storeForm hi
  obtain ⟨hoverflows, hunaligned, hforbidden⟩ := step_exclusive_stops hform hw hf hpool ha
  obtain ⟨⟨m, rfl⟩, hpc, hstep⟩ := step_fetched hf hpool
  split_ifs with hover hmis hforbid hpaired
  · exact hoverflows hover
  · exact hunaligned (not_lt.mp hover) hmis
  · exact hforbidden (not_lt.mp hover) (not_not.mp hmis) hforbid
  all_goals
    have hfit := not_lt.mp hover
    have halign := not_not.mp hmis
    have hexec := exec_store_aligned (s := { s with draws := m }) hw ha hfit halign hi
      fun r _ => pending_of_pool_nil hpool r
  · rcases hexec with ⟨n, ⟨hn, hnfixed⟩, hexec⟩ | ⟨hexec, hmap⟩
    · obtain ⟨intact, htag⟩ := hpaired
      rw [storeAt_paired htag, retire_issueStore (s := { s with draws := m }) n rd rt a size intact hpc] at hexec
      obtain ⟨map, hmap, d, v, w, hd, hdfixed, hok, hcpu, houtcome, hsettle⟩ :=
        settle_afterStore (m := m) (n := n) (rd := rd) (rt := rt) (intact := intact) rfl hpool hfit halign
          (by simpa using hforbid)
      obtain ⟨htag', hpc', hpool', hseq, hdmbs, hepoch, hisb, hmapEpoch, hseen, hregs, hsame, hreg⟩ :=
        (storeReturned_settled hpool v hcpu).frame
      obtain ⟨hmasters, hdevices, hplat, hagenda⟩ := houtcome.fields
      refine .inr ⟨_, d, by rw [hstep, hexec, andThen_next, hsettle], htag', hpc', hpool', hseq, hdmbs, hepoch, hisb,
        hmapEpoch, hseen, hregs, hsame, hmasters, hdevices, hplat, hagenda.trans hf.1, hn.trans hd, fun hone hno => ?_, ?_⟩
      · exact (hdfixed ((admitted_afterStore_of_no_switch hfit hno).trans hone)).trans (hnfixed hone)
      · have hlost : s.cpu.tag = some ⟨BitVec.ofNat 32 a, size, false⟩ ↔ intact = false := by simp [htag]
        rw [StoreOutcome] at houtcome
        split_ifs with h <;> rw [hlost] at h
        · obtain ⟨rfl, e, rfl⟩ := (if_pos h ▸ houtcome :)
          exact ⟨hreg, rfl, rfl, rfl, rfl, rfl⟩
        · obtain ⟨rfl, hw⟩ := (if_neg h ▸ houtcome :)
          obtain ⟨hothers, hkept, hwritten, hmaps⟩ := stored_keep hw rfl rfl rfl rfl rfl hwf
          exact ⟨hreg, hothers, ⟨map, admitted_afterStore hfit hmap, hok, hkept, hwritten⟩, hmaps⟩
    · exact .inl ⟨by rw [hstep, hexec, andThen_refused], hmap⟩
  · have hunpaired : ∀ g, s.cpu.tag = some g → g.addr ≠ BitVec.ofNat 32 a ∨ g.size ≠ size := by
      rintro ⟨addr, size', intact⟩ hg
      rw [ne_eq, ne_eq, ← not_and_or]
      rintro ⟨rfl, rfl⟩
      exact hpaired ⟨intact, hg⟩
    refine hexec.imp (fun ⟨n, _, hexec⟩ => ?_) fun ⟨hexec, hmap⟩ => ⟨by rw [hstep, hexec, andThen_refused], hmap⟩
    rw [hstep, hexec, storeAt_unpaired hunpaired, andThen_refused]

end Sys2Proof.Proofs.ExclusiveSteps
end
